-- ==== Sys2Proof/Word.lean ====
section
/-! DEFINITION. The words of the block: the byte, the 9-bit frame, the 4-bit operation code, and the two levels of a pin
(00_scope.md section 6 and rule R8, 30_encoding.md rules R51 and R54). -/

namespace Sys2Proof

/-- "all opcodes and addresses are unsigned 8-bit values" (00_scope.md R8). -/
abbrev Byte := BitVec 8

/-- A frame as a 9-bit value `{dc, byte[7:0]}` (30_encoding.md R54). -/
abbrev Frame := BitVec 9

/-- A 4-bit host operation code (30_encoding.md R51). -/
abbrev OpCode := BitVec 4

/-- The level of a digital line; as a bit, LOW = 0 and HIGH = 1 (00_scope.md section 6). -/
inductive Level where
  | low
  | high
deriving DecidableEq, Repr, Inhabited

/-- LOW = 0, HIGH = 1 (00_scope.md section 6). -/
def Level.bit : Level → BitVec 1
  | .low => 0#1
  | .high => 1#1

end Sys2Proof
end

