-- ==== Sys2Proof/Config.lean ====
section
/-! DEFINITION. What an implementation fixes: the geometry record, the command table, the open parameters
(00_scope.md section 5), and the form of the environment's answers with their free values (00_scope.md section 4). -/

namespace Sys2Proof

/-- A logical colour-plane identifier (00_scope.md R4, 20_memory.md R31).  `other n` stands for any identifier that is
not in `PLANES`; a buffer may have an entry for one (95_test_vectors.md F11). -/
inductive PlaneId where
  | primary
  | accent
  | other (n : Nat)
deriving DecidableEq, Repr, Inhabited

/-- The order of plane identifiers that the canonical form of a buffer uses. -/
def PlaneId.rank : PlaneId → Nat
  | .primary => 0
  | .accent => 1
  | .other n => n + 2

/-- `PLANES = [primary, accent]`, in this order (00_scope.md R7). -/
def planeOrder : List PlaneId := [.primary, .accent]

/-- The display geometry, an immutable record (00_scope.md R4). -/
structure Geometry where
  name : String
  width : Nat
  height : Nat
  planes : List PlaneId
deriving DecidableEq, Repr

/-- The reference geometry (00_scope.md R5).  The document gives it no name: the empty text is a DESIGN CHOICE
(assumption 3; no rule reads the name). -/
def Geometry.reference : Geometry := ⟨"", 152, 296, planeOrder⟩

/-- The eleven chip commands (30_encoding.md R56, 44_chip_commands.md R132). -/
inductive ChipCommand where
  | softReset
  | dataEntryMode
  | setXWindow
  | setYWindow
  | updateControl
  | setXCounter
  | setYCounter
  | selectPrimary
  | selectAccent
  | refresh
  | deepSleep
deriving DecidableEq, Repr

/-- All chip commands, in the order of 30_encoding.md R56. -/
def ChipCommand.all : List ChipCommand :=
  [.softReset, .dataEntryMode, .setXWindow, .setYWindow, .updateControl, .setXCounter, .setYCounter,
   .selectPrimary, .selectAccent, .refresh, .deepSleep]

/-- The command table: the numeric opcode values, parameters of the block (00_scope.md section 5, 30_encoding.md R57). -/
structure CommandTable where
  softReset : Byte
  dataEntryMode : Byte
  setXWindow : Byte
  setYWindow : Byte
  updateControl : Byte
  setXCounter : Byte
  setYCounter : Byte
  selectPrimary : Byte
  selectAccent : Byte
  refresh : Byte
  deepSleep : Byte
deriving DecidableEq, Repr

/-- The parameters of 00_scope.md section 5.  `CMD_FRAME_BYTES = 1`, `NOT_BUSY_LEVEL = LOW` and the plane patterns are
fixed by the spec and are constants of the definitions that use them. -/
structure Params where
  geometry : Geometry
  opcodes : CommandTable
  /-- `T_HOLD` in nanoseconds. -/
  tHoldNs : Nat
  /-- `BUSY_TIMEOUT_POLLS`. -/
  busyTimeoutPolls : Option Nat
deriving DecidableEq, Repr

/-- What the environment answers to one I/O event (00_scope.md section 4 items c, d and e).  One record serves every
kind of event; an event reads the parts that concern it.
`completes`: the event completes (a delay: it elapses).  `busy`: the level a completed busy read returns.
`took`: whether an event that failed took effect all the same (60_exceptions.md R151). -/
structure Answer where
  completes : Bool
  busy : Level
  took : Bool
deriving DecidableEq, Repr, Inhabited

/-- FREE VALUE.  The environment's answer to the `n`-th event that no listed input answers: "The spec puts no law on
these draws" (00_scope.md section 7; 93_implementation_defined.md U5 to U8).  It has no body, so nothing can be proved of
it and a statement holds whatever it is (assumption 6). -/
opaque Config.freeAnswer : Nat → Answer

/-- FREE VALUE.  The real levels of the lines `PWR`, `RST` and `DC`, in this order, after a block reset in mid-session: "the
relation between the registers and the real pins and chip is then unspecified" (70_reset_and_hazards.md R172;
93_implementation_defined.md U19).  It has no body (assumption 21). -/
opaque Config.freeLevels : Nat → Level × Level × Level

end Sys2Proof
end

