-- ==== Sys2Proof/Syntax.lean ====
section
/-! DEFINITION. The instructions (one constructor per row of spec/opcode_table.json), the pixel-plane buffer that `show`
takes, and the encoded forms a host or the sequencer presents (30_encoding.md). -/

namespace Sys2Proof

/-- The pixel-plane buffer: "a mapping from logical color-plane identifier to a packed bitmap" (20_memory.md R31), for
each plane identifier either no entry or a byte sequence of some length (30_encoding.md R52).  The address space is
`(plane, index)`. -/
abbrev Buffer := List (PlaneId × List Byte)

/-- The instruction set: ten operation codes and six reserved codes of the host level (30_encoding.md R51), eleven chip
commands and the data frame of the wire level (30_encoding.md R54 to R56). -/
inductive Instr where
  | opInitialize
  | opHardReset
  | opSoftReset
  | opBusyWait
  | opShow (buffer : Buffer)
  | opClearDisplay
  | opSleep
  | opPowerOff
  | opSendCommand (opcode : Byte)
  | opSendData (byte : Byte)
  | reserved10
  | reserved11
  | reserved12
  | reserved13
  | reserved14
  | reserved15
  | cmdSoftReset
  | cmdDataEntryMode
  | cmdSetXWindow
  | cmdSetYWindow
  | cmdUpdateControl
  | cmdSetXCounter
  | cmdSetYCounter
  | cmdSelectPrimary
  | cmdSelectAccent
  | cmdRefresh
  | cmdSleep
  | data (byte : Byte)
deriving DecidableEq, Repr

/-- The operand of a host request (30_encoding.md R52): a buffer for `show`; one byte stands beside the codes of
`sendCommand` and `sendData`, whose operand is one unsigned 8-bit value. -/
inductive Operand where
  | absent
  | byte (b : Byte)
  | buffer (b : Buffer)
deriving DecidableEq, Repr

/-- The two encodings of 30_encoding.md: a host request `(code, operand)` (R50) and a wire frame (R54). -/
inductive Encoded where
  | request (code : OpCode) (operand : Operand)
  | frame (f : Frame)
deriving DecidableEq, Repr

end Sys2Proof
end

