-- ==== Sys2Proof/WellFormed.lean ====
section
/-! DEFINITION. Which instruction terms are well formed: a buffer operand in canonical form, and a `sendCommand` operand
that is one of the eleven opcodes (43_primitives.md R110). -/

namespace Sys2Proof

/-- A buffer is canonical when its planes strictly rise: one entry per plane, so that equal mappings are equal data. -/
def Buffer.canonical : Buffer → Bool
  | [] => true
  | [_] => true
  | e :: f :: rest => decide (e.1.rank < f.1.rank) && Buffer.canonical (f :: rest)

/-- The opcode value of a chip command (30_encoding.md R56). -/
def CommandTable.opcode (t : CommandTable) : ChipCommand → Byte
  | .softReset => t.softReset
  | .dataEntryMode => t.dataEntryMode
  | .setXWindow => t.setXWindow
  | .setYWindow => t.setYWindow
  | .updateControl => t.updateControl
  | .setXCounter => t.setXCounter
  | .setYCounter => t.setYCounter
  | .selectPrimary => t.selectPrimary
  | .selectAccent => t.selectAccent
  | .refresh => t.refresh
  | .deepSleep => t.deepSleep

/-- The eleven opcode bytes. -/
def CommandTable.codes (t : CommandTable) : List Byte := ChipCommand.all.map t.opcode

/-- "Invariant: codes are pairwise distinct" (30_encoding.md R56, R57). -/
def CommandTable.distinct (t : CommandTable) : Bool := decide t.codes.Nodup

/-- Well-formedness of an instruction under a command table.  `show` takes a mapping (20_memory.md R31) and
`sendCommand` takes "always one of the eleven values" (43_primitives.md R110); nothing else has a constraint. -/
def Instr.wf (t : CommandTable) : Instr → Bool
  | .opShow b => Buffer.canonical b
  | .opSendCommand o => decide (o ∈ t.codes)
  | .opInitialize | .opHardReset | .opSoftReset | .opBusyWait | .opClearDisplay | .opSleep | .opPowerOff => true
  | .opSendData _ => true
  | .reserved10 | .reserved11 | .reserved12 | .reserved13 | .reserved14 | .reserved15 => true
  | .cmdSoftReset | .cmdDataEntryMode | .cmdSetXWindow | .cmdSetYWindow | .cmdUpdateControl | .cmdSetXCounter
  | .cmdSetYCounter | .cmdSelectPrimary | .cmdSelectAccent | .cmdRefresh | .cmdSleep => true
  | .data _ => true

end Sys2Proof
end

