-- ==== Sys2Proof/Decode.lean ====
section
/-! DEFINITION. Decoding of host requests and wire frames, total and rejecting by name, and the encoder
(30_encoding.md R51, R54 to R59; spec/opcode_table.json). -/

namespace Sys2Proof

/-- Why an encoded form is no instruction. -/
inductive DecodeError where
  /-- A command frame whose byte is none of the eleven opcodes (30_encoding.md R59): the block never emits it. -/
  | unknownOpcode (b : Byte)
  /-- A number that is no 4-bit code or no 9-bit frame. -/
  | notAWord
deriving DecidableEq, Repr

/-- The spec's default opcode values (30_encoding.md R57, 93_implementation_defined.md G1), for a runnable model only.
PRESUMED (assumption 2): they are general knowledge, no rule of the spec; no statement rests on one. -/
def CommandTable.default : CommandTable where
  deepSleep := 0x10#8
  dataEntryMode := 0x11#8
  softReset := 0x12#8
  refresh := 0x20#8
  updateControl := 0x21#8
  selectPrimary := 0x24#8
  selectAccent := 0x26#8
  setXWindow := 0x44#8
  setYWindow := 0x45#8
  setXCounter := 0x4E#8
  setYCounter := 0x4F#8

/-- The command with a given opcode byte, if any. -/
def CommandTable.command? (t : CommandTable) (b : Byte) : Option ChipCommand :=
  ChipCommand.all.find? fun c => t.opcode c == b

/-- The instruction a chip command's frame is. -/
def ChipCommand.instr : ChipCommand → Instr
  | .softReset => .cmdSoftReset
  | .dataEntryMode => .cmdDataEntryMode
  | .setXWindow => .cmdSetXWindow
  | .setYWindow => .cmdSetYWindow
  | .updateControl => .cmdUpdateControl
  | .setXCounter => .cmdSetXCounter
  | .setYCounter => .cmdSetYCounter
  | .selectPrimary => .cmdSelectPrimary
  | .selectAccent => .cmdSelectAccent
  | .refresh => .cmdRefresh
  | .deepSleep => .cmdSleep

/-- `frame = {dc, byte[7:0]}` with `dc = 0` for LOW (30_encoding.md R54). -/
def mkFrame (dc : Level) (b : Byte) : Frame := dc.bit ++ b

/-- Bit 8 of a frame (30_encoding.md R54). -/
def Frame.dc (f : Frame) : Level := if f.getLsbD 8 then .high else .low

/-- Bits 7:0 of a frame (30_encoding.md R54). -/
def Frame.byte (f : Frame) : Byte := f.extractLsb' 0 8

/-- "the `dc` bit of each frame tells whether it opens a new command" (30_encoding.md R55). -/
def decodeFrame (t : CommandTable) (f : Frame) : Except DecodeError Instr :=
  match Frame.dc f with
  | .high => .ok (.data (Frame.byte f))
  | .low =>
    match t.command? (Frame.byte f) with
    | some c => .ok c.instr
    | none => .error (.unknownOpcode (Frame.byte f))

/-- The buffer a request hands over; a request without a buffer has no entry for any plane (assumption 12). -/
def Operand.toBuffer : Operand → Buffer
  | .buffer b => b
  | .byte _ => []
  | .absent => []

/-- The byte that stands beside a `sendCommand` or `sendData` code; none given reads as zero (assumption 12). -/
def Operand.toByte : Operand → Byte
  | .byte b => b
  | .buffer _ => 0#8
  | .absent => 0#8

/-- The table of operation codes (30_encoding.md R51).  An operation that takes no operand looks at the code alone. -/
def decodeRequest (code : OpCode) (operand : Operand) : Instr :=
  match code.toNat with
  | 0 => .opInitialize
  | 1 => .opHardReset
  | 2 => .opSoftReset
  | 3 => .opBusyWait
  | 4 => .opShow operand.toBuffer
  | 5 => .opClearDisplay
  | 6 => .opSleep
  | 7 => .opPowerOff
  | 8 => .opSendCommand operand.toByte
  | 9 => .opSendData operand.toByte
  | 10 => .reserved10
  | 11 => .reserved11
  | 12 => .reserved12
  | 13 => .reserved13
  | 14 => .reserved14
  | _ => .reserved15

/-- Decoding, total on both encodings. -/
def decode (t : CommandTable) : Encoded → Except DecodeError Instr
  | .request code operand => .ok (decodeRequest code operand)
  | .frame f => decodeFrame t f

/-- Encoding, from the tables of 30_encoding.md R51 and R56. -/
def encode (t : CommandTable) : Instr → Encoded
  | .opInitialize => .request 0#4 .absent
  | .opHardReset => .request 1#4 .absent
  | .opSoftReset => .request 2#4 .absent
  | .opBusyWait => .request 3#4 .absent
  | .opShow b => .request 4#4 (.buffer b)
  | .opClearDisplay => .request 5#4 .absent
  | .opSleep => .request 6#4 .absent
  | .opPowerOff => .request 7#4 .absent
  | .opSendCommand o => .request 8#4 (.byte o)
  | .opSendData b => .request 9#4 (.byte b)
  | .reserved10 => .request 10#4 .absent
  | .reserved11 => .request 11#4 .absent
  | .reserved12 => .request 12#4 .absent
  | .reserved13 => .request 13#4 .absent
  | .reserved14 => .request 14#4 .absent
  | .reserved15 => .request 15#4 .absent
  | .cmdSoftReset => .frame (mkFrame .low t.softReset)
  | .cmdDataEntryMode => .frame (mkFrame .low t.dataEntryMode)
  | .cmdSetXWindow => .frame (mkFrame .low t.setXWindow)
  | .cmdSetYWindow => .frame (mkFrame .low t.setYWindow)
  | .cmdUpdateControl => .frame (mkFrame .low t.updateControl)
  | .cmdSetXCounter => .frame (mkFrame .low t.setXCounter)
  | .cmdSetYCounter => .frame (mkFrame .low t.setYCounter)
  | .cmdSelectPrimary => .frame (mkFrame .low t.selectPrimary)
  | .cmdSelectAccent => .frame (mkFrame .low t.selectAccent)
  | .cmdRefresh => .frame (mkFrame .low t.refresh)
  | .cmdSleep => .frame (mkFrame .low t.deepSleep)
  | .data b => .frame (mkFrame .high b)

/-- A table word: 4-bit host codes lie in one byte, 9-bit frames in two bytes, the bits above them zero
(spec/opcode_table.json, assumption 18). -/
def tableWord (nbits w : Nat) : Except DecodeError Encoded :=
  if nbits ≤ 8 then
    if w < 16 then .ok (.request (BitVec.ofNat 4 w) .absent) else .error .notAWord
  else
    if w < 512 then .ok (.frame (BitVec.ofNat 9 w)) else .error .notAWord

/-- Decoding of a table word under a command table. -/
def decodeWord (t : CommandTable) (nbits w : Nat) : Except DecodeError Instr :=
  match tableWord nbits w with
  | .ok e => decode t e
  | .error r => .error r

/-- The instruction the decoder reads from a word of spec/opcode_table.json, whose command rows are written with the
default opcode values. -/
def decodeTableWord (nbits w : Nat) : Option Instr :=
  match decodeWord CommandTable.default nbits w with
  | .ok i => some i
  | .error _ => none

end Sys2Proof
end

