-- ==== Sys2Proof/Machine/State.lean ====
section
/-! DEFINITION. The state of the block: every register of 10_state.md, the operand it holds, its parameters, and what lies
between it and the outside (requests, responses, event trace, environment answers); the reasons a step can stop; and the
state after reset. -/

namespace Sys2Proof.Machine

/-- The values of the state-machine register (10_state.md R10), in the order of their 3-bit encoding 0 to 7. -/
inductive SeqState where
  | unpowered
  | powered
  | reset
  | configured
  | idle
  | busy
  | sleeping
  | poweredOff
deriving DecidableEq, Repr

/-- The values of the sticky `fault` register (10_state.md R13). -/
inductive FaultReg where
  | none
  | transportFailure
  | interrupted
  | busyTimeout
deriving DecidableEq, Repr

/-- The output pins (10_state.md R15). -/
inductive Pin where
  | pwr
  | rst
  | dc
deriving DecidableEq, Repr

/-- The three output pin latches (10_state.md R15). -/
structure Pins where
  pwr : Level
  rst : Level
  dc : Level
deriving DecidableEq, Repr

/-- The five host operations (30_encoding.md R51). -/
inductive HostOp where
  | initOp
  | showOp
  | clearOp
  | sleepOp
  | powerOffOp
deriving DecidableEq, Repr

/-- What the field `pc` stores of the sequencer position (10_state.md R17): `IDLE_PC`, or the running operation, the index of
the current micro-operation, and which of its events is next: `sub` is 0 at the start and 1 when the first event has been
performed; in a busy-wait, 1 says that the poll loop has been entered (assumption 8).  The byte index and the poll count,
which are parts of the position too, are stored once, in `byteIdx` and `pollCnt`; `State.position` is the whole position. -/
inductive Pc where
  | idle
  | running (op : HostOp) (k sub : Nat)
deriving DecidableEq, Repr

/-- The `sub` part of the sequencer position: which event of the micro-operation is next (10_state.md R17); in rows 3 and 5
of `show` the byte index (41_frame.md R92), with the next event of that byte's micro-operation; in a busy-wait "nothing
beyond `poll_cnt`" (10_state.md R17). -/
inductive Sub where
  | event (next : Nat)
  | byte (index next : Nat)
  | polls (count : Nat)
deriving DecidableEq, Repr

/-- The sequencer position as 10_state.md R17 and 41_frame.md R92 write it: `IDLE_PC` or the triple `(op, k, sub)`. -/
inductive Position where
  | idle
  | running (op : HostOp) (k : Nat) (sub : Sub)
deriving DecidableEq, Repr

/-- The micro-operations (40_init_reset_sync.md R70).  `stream` stands for rows 3 and 5 of `show`: one `SD` per byte of the
plane that `plane_idx` selects (41_frame.md R92). -/
inductive MicroOp where
  | pw (p : Pin) (v : Level)
  | dl
  | bw
  | sc (o : Byte)
  | sd (b : Byte)
  | stream
  | br
  | st (v : SeqState)
  | chk
deriving DecidableEq, Repr

/-- The I/O events of the trace (00_scope.md section 7), each with its outcome: completed or not, elapsed or not, the level
a busy read returned (`none`: the read failed).  A delay carries the least time it waits for (assumption 23). -/
inductive Event where
  | pinWrite (p : Pin) (v : Level) (completed : Bool)
  | busyRead (v : Option Level)
  | busSend (b : Byte) (completed : Bool)
  | busRelease (completed : Bool)
  | delay (ns : Nat) (elapsed : Bool)
deriving DecidableEq, Repr

/-- The 3-bit status of a response (60_exceptions.md R140). -/
inductive Status where
  | ok
  | illegalOperation
  | illegalState
  | missingPlane
  | badPlaneLength
  | transportFailure
  | interrupted
  | busyTimeout
deriving DecidableEq, Repr

/-- The "info recorded" column of 60_exceptions.md R140 (assumption 25). -/
inductive ErrorInfo where
  | none
  | code (c : OpCode)
  | registers (state : SeqState) (fault : FaultReg)
  | plane (p : PlaneId)
  | event (e : Event) (pc : Position)
  | position (pc : Position)
deriving DecidableEq, Repr

/-- One response: the status the host sees (30_encoding.md R53) and the diagnosis an error value may carry. -/
structure Response where
  status : Status
  info : ErrorInfo
deriving DecidableEq, Repr

/-- What comes from outside, in order: a request (30_encoding.md R50) or a block reset (70_reset_and_hazards.md R170). -/
inductive HostAction where
  | request (code : OpCode) (operand : Operand)
  | blockReset
deriving DecidableEq, Repr

/-- Where the current run begins (70_reset_and_hazards.md R187: "from block reset"): how many responses and events the logs
held at the block reset, and the real levels of the lines then. -/
structure RunStart where
  responses : Nat
  events : Nat
  lines : Pins
deriving DecidableEq, Repr

/-- The state of the machine.  INVENTORY.md lists each field with its rule. -/
structure State where
  /-- Parameters, never written (10_state.md R20). -/
  params : Params
  /-- `state` (10_state.md R10). -/
  state : SeqState
  /-- `fault` (10_state.md R13). -/
  fault : FaultReg
  /-- `pin[PWR]`, `pin[RST]`, `pin[DC]` (10_state.md R15). -/
  pins : Pins
  /-- The real levels of the three output lines, which a block reset in mid-session may leave different from the latches
  (70_reset_and_hazards.md R172). -/
  lines : Pins
  /-- `bus_owned` (10_state.md R19). -/
  busOwned : Bool
  /-- `pc` (10_state.md R17), but for the counts that stand in `byteIdx` and `pollCnt`: `State.position` is the whole. -/
  pc : Pc
  /-- `plane_idx` (10_state.md R18). -/
  planeIdx : Fin 2
  /-- `byte_idx` (10_state.md R18). -/
  byteIdx : Nat
  /-- `poll_cnt` (10_state.md R18). -/
  pollCnt : Nat
  /-- The buffer operand taken with the last `show` or `clearDisplay` (20_memory.md R46), in canonical form
  (assumption 9). -/
  operand : Buffer
  /-- What the host and the reset source will do, oldest first (assumption 10). -/
  host : List HostAction
  /-- Responses given, oldest first (30_encoding.md R53; assumption 11). -/
  responses : List Response
  /-- The event trace, oldest first (20_memory.md R42; assumption 11). -/
  trace : List Event
  /-- Where the current run begins in `responses` and `trace` (70_reset_and_hazards.md R187). -/
  run : RunStart
  /-- Environment answers already settled, oldest first (assumption 6). -/
  inputs : List Answer
  /-- How many free values have been drawn: the argument of `Config.freeAnswer` and `Config.freeLevels`. -/
  draws : Nat
deriving DecidableEq, Repr

/-- Why the machine stops with a fault (assumption 20).  Both constructors are raised only in states that no run reaches; each
is safe, since the model stops where the spec describes no state. -/
inductive Fault where
  /-- Raised by a step or a resumed host operation whose `k` lies outside the operation's list (40_init_reset_sync.md R70
  gives no such position).  Safe. -/
  | positionOutsideList
  /-- Raised by a step or a resumed `show` or `clearDisplay` that would read the buffer outside `0 <= index < PLANE_BYTES`
  of a plane it has (20_memory.md R31).  Safe. -/
  | bufferAddress
deriving DecidableEq, Repr

/-- Why an instruction has no meaning in a state. -/
inductive Refusal where
  /-- An arm of `exec` that is not modelled.  None is left. -/
  | notModelled (mnemonic : String)
  /-- Raised by a host operation at its request when the parameters are not valid: "with an invalid geometry the operations
  are refused" (00_scope.md R6; 93_implementation_defined.md U13, U14; assumption 19).  Safe. -/
  | invalidParameters
  /-- Raised by a host-level instruction executed as a request while another operation runs: "cannot happen: the host is
  blocked until the response" (93_implementation_defined.md U24; assumption 14).  No step raises it.  Safe. -/
  | notReady
  /-- Raised by a step whose next frame or request does not decode.  No step from valid parameters raises it.  Safe. -/
  | undecodable (e : DecodeError)
deriving DecidableEq, Repr

/-- The parameters State.reset carries, which no step writes (assumption 1): the reference geometry (00_scope.md R5), the default opcode values
(30_encoding.md R57), the least hold time and the document's baseline of no timeout (00_scope.md section 5;
assumptions 2 and 3). -/
def referenceParams : Params where
  geometry := Geometry.reference
  opcodes := CommandTable.default
  tHoldNs := 200
  busyTimeoutPolls := none

/-- The state after block reset (10_state.md R26).  The working registers are unspecified there: 0 is a DESIGN CHOICE
(assumption 4).  RST and DC are LOW as R26 decides, and the lines have the levels of the latches (assumption 5).  Nothing is
requested, answered, recorded or held. -/
def State.reset : State where
  params := referenceParams
  state := .unpowered
  fault := .none
  pins := ⟨.low, .low, .low⟩
  lines := ⟨.low, .low, .low⟩
  busOwned := true
  pc := .idle
  planeIdx := 0
  byteIdx := 0
  pollCnt := 0
  operand := []
  host := []
  responses := []
  trace := []
  run := ⟨0, 0, ⟨.low, .low, .low⟩⟩
  inputs := []
  draws := 0

end Sys2Proof.Machine
end

