-- ==== Sys2Proof/Machine/Operands.lean ====
section
/-! DEFINITION. Operands: validity of the parameters, the arithmetic of the geometry, argument bytes of the chip commands,
plane patterns, the buffer primitives, and the layout of pixels in a buffer
(00_scope.md R4 to R7, 20_memory.md R31, R32, R37, 30_encoding.md R60 to R62, 41_frame.md R91, R95). -/

namespace Sys2Proof.Machine

/-- A geometry is valid when `width % 8 == 0`, `8 <= width <= 256`, `1 <= height <= 512` (00_scope.md R6) and its planes
are `[primary, accent]` (00_scope.md R7). -/
def geometryValid (g : Geometry) : Bool :=
  g.width % 8 == 0 && decide (8 ≤ g.width) && decide (g.width ≤ 256) && decide (1 ≤ g.height)
    && decide (g.height ≤ 512) && g.planes == planeOrder

/-- `BUSY_TIMEOUT_POLLS` is `none`, or `some N` with `N >= 1` (00_scope.md section 5). -/
def timeoutValid : Option Nat → Bool
  | none => true
  | some n => decide (1 ≤ n)

/-- All the laws on the parameters (00_scope.md section 5): valid geometry, distinct opcodes (30_encoding.md R57),
`T_HOLD` at least 200 ns, a legal timeout. -/
def paramsValid (p : Params) : Bool :=
  geometryValid p.geometry && p.opcodes.distinct && decide (200 ≤ p.tHoldNs) && timeoutValid p.busyTimeoutPolls

/-- `ROW_BYTES = WIDTH / 8` (00_scope.md section 5). -/
def rowBytes (g : Geometry) : Nat := g.width / 8

/-- `PLANE_BYTES = WIDTH / 8 * HEIGHT` (30_encoding.md R62). -/
def planeBytes (g : Geometry) : Nat := rowBytes g * g.height

/-- `XE = ((WIDTH - 1) >> 3) & 0x1F` (30_encoding.md R61). -/
def xEnd (g : Geometry) : Byte := BitVec.ofNat 8 (((g.width - 1) >>> 3) &&& 0x1F)

/-- `YL = (HEIGHT - 1) & 0xFF` (30_encoding.md R61). -/
def yEndLow (g : Geometry) : Byte := BitVec.ofNat 8 ((g.height - 1) &&& 0xFF)

/-- `YH = ((HEIGHT - 1) >> 8) & 0x01` (30_encoding.md R61). -/
def yEndHigh (g : Geometry) : Byte := BitVec.ofNat 8 (((g.height - 1) >>> 8) &&& 0x01)

/-- The fixed argument bytes of each chip command, in order (30_encoding.md R56, R60).  The bitmap bytes that follow a
plane-select command come from the buffer and are not listed here. -/
def argumentBytes (g : Geometry) : ChipCommand → List Byte
  | .softReset => []
  | .dataEntryMode => [0x03#8]
  | .setXWindow => [0x00#8, xEnd g]
  | .setYWindow => [0x00#8, yEndLow g, yEndHigh g]
  | .updateControl => [0x00#8, 0x80#8]
  | .setXCounter => [0x00#8]
  | .setYCounter => [0x00#8, 0x00#8]
  | .selectPrimary => []
  | .selectAccent => []
  | .refresh => []
  | .deepSleep => [0x01#8]

/-- The blank pattern of a plane (00_scope.md R7, 41_frame.md R95): `0xFF` for the primary plane, `0x00` for an accent
plane. -/
def blankByte : PlaneId → Byte
  | .primary => 0xFF#8
  | .accent => 0x00#8
  | .other _ => 0x00#8

/-- The constant buffer BLANK (41_frame.md R95). -/
def blank (g : Geometry) : Buffer := planeOrder.map fun p => (p, List.replicate (planeBytes g) (blankByte p))

/-- The plane `plane_idx` selects: `PLANES[plane_idx]` (41_frame.md R92). -/
def planeAt (i : Fin 2) : PlaneId := if i = 0 then .primary else .accent

/-- The entry of a plane in a buffer, if it has one (20_memory.md R31). -/
def bufFind (p : PlaneId) : Buffer → Option (List Byte)
  | [] => none
  | e :: rest => if e.1 = p then some e.2 else bufFind p rest

/-- `BufHas(plane)` (00_scope.md section 7). -/
def bufHas (p : PlaneId) (b : Buffer) : Bool := (bufFind p b).isSome

/-- `BufLen(plane)` (00_scope.md section 7); zero for an absent plane, which `CHK` reports before it looks at a length. -/
def bufLen (p : PlaneId) (b : Buffer) : Nat := ((bufFind p b).getD []).length

/-- `MemRead((plane, index), 1)` (20_memory.md R31): none outside the address space. -/
def memRead (p : PlaneId) (i : Nat) (b : Buffer) : Option Byte := (bufFind p b).bind fun l => l[i]?

/-- The checks of `show` (41_frame.md R91): for each plane in order, presence before length; the first failing test. -/
def checkPlanes (n : Nat) (b : Buffer) : List PlaneId → Option Response
  | [] => none
  | p :: rest =>
    if bufHas p b then
      if bufLen p b = n then checkPlanes n b rest else some ⟨.badPlaneLength, .plane p⟩
    else some ⟨.missingPlane, .plane p⟩

/-- `CHK(buffer)` (41_frame.md R91). -/
def checkBuffer (g : Geometry) (b : Buffer) : Option Response := checkPlanes (planeBytes g) b planeOrder

/-- The canonical form of the memory the block reads: planes strictly rising, nothing but planes of `PLANES`. -/
def Memory.wf (b : Buffer) : Bool := Buffer.canonical b && b.all fun e => decide (e.1 ∈ planeOrder)

/-- The snapshot of a buffer that a `show` takes at its request (20_memory.md R46): the entries of `PLANES`, in order; "An
entry for a plane not in `PLANES` is ignored" (41_frame.md R91). -/
def Memory.snapshot (b : Buffer) : Buffer :=
  planeOrder.filterMap fun p => (bufFind p b).map fun l => (p, l)

/-- The byte that holds the pixel at column `x`, row `y`: index `y * (WIDTH / 8) + (x >> 3)` (20_memory.md R32). -/
def pixelByteIndex (g : Geometry) (x y : Nat) : Nat := y * rowBytes g + (x >>> 3)

/-- The bit of that byte: `7 - (x % 8)`, the leftmost pixel in the most significant bit (20_memory.md R32). -/
def pixelBitIndex (x : Nat) : Nat := 7 - x % 8

/-- The pixel at column `x`, row `y` of a plane of a buffer, as its bit (20_memory.md R32). -/
def pixelAt (g : Geometry) (p : PlaneId) (x y : Nat) (b : Buffer) : Option Bool :=
  (memRead p (pixelByteIndex g x y) b).map fun v => v.getLsbD (pixelBitIndex x)

/-- What one plane's bit says of a pixel (20_memory.md R37). -/
inductive Shade where
  | white
  | black
  | accentColour
  | toPrimary
deriving DecidableEq, Repr

/-- Plane polarity (20_memory.md R37): primary 1 is white and 0 black; accent 1 shows the accent colour and 0 leaves the
pixel to the primary plane. -/
def shade (p : PlaneId) (bit : Bool) : Shade :=
  match p, bit with
  | .primary, true => .white
  | .primary, false => .black
  | _, true => .accentColour
  | _, false => .toPrimary

end Sys2Proof.Machine
end

