-- ==== Sys2Proof/Machine/Flags.lean ====
section
/-! DEFINITION. The tested conditions and status codes of the block: encodings of `state`, `fault` and the status
(10_state.md R10, R13, 60_exceptions.md R140), the sticky update of `fault` (60_exceptions.md R150), and the acceptance
condition (10_state.md R25).  There is no other flag (10_state.md R14). -/

namespace Sys2Proof.Machine

/-- The 3-bit encoding of `state` (10_state.md R10). -/
def SeqState.code : SeqState → BitVec 3
  | .unpowered => 0#3
  | .powered => 1#3
  | .reset => 2#3
  | .configured => 3#3
  | .idle => 4#3
  | .busy => 5#3
  | .sleeping => 6#3
  | .poweredOff => 7#3

/-- The status codes (60_exceptions.md R140). -/
def Status.code : Status → BitVec 3
  | .ok => 0#3
  | .illegalOperation => 1#3
  | .illegalState => 2#3
  | .missingPlane => 3#3
  | .badPlaneLength => 4#3
  | .transportFailure => 5#3
  | .interrupted => 6#3
  | .busyTimeout => 7#3

/-- The value of `fault` for each status: the sticky kinds 5, 6 and 7 have one, the others none (60_exceptions.md R140). -/
def Status.sticky : Status → FaultReg
  | .transportFailure => .transportFailure
  | .interrupted => .interrupted
  | .busyTimeout => .busyTimeout
  | .ok => .none
  | .illegalOperation => .none
  | .illegalState => .none
  | .missingPlane => .none
  | .badPlaneLength => .none

/-- The 3-bit contents of `fault`: 0, or the code of the first sticky error (10_state.md R13). -/
def FaultReg.code : FaultReg → BitVec 3
  | .none => 0#3
  | .transportFailure => 5#3
  | .interrupted => 6#3
  | .busyTimeout => 7#3

/-- "if `fault = NONE` then `fault <- code`, otherwise `fault` is unchanged" (60_exceptions.md R150 (3)). -/
def FaultReg.record (f : FaultReg) (c : Status) : FaultReg :=
  match f with
  | .none => c.sticky
  | .transportFailure => .transportFailure
  | .interrupted => .interrupted
  | .busyTimeout => .busyTimeout

/-- `state` is IDLE or CONFIGURED: the document's precondition of a frame (10_state.md R25). -/
def SeqState.framesAllowed (v : SeqState) : Bool := v == .idle || v == .configured

/-- When a host operation is accepted (10_state.md R25). -/
def accepted (op : HostOp) (v : SeqState) (f : FaultReg) : Bool :=
  match op with
  | .initOp => v == .unpowered && f == .none
  | .showOp => v.framesAllowed && f == .none
  | .clearOp => v.framesAllowed && f == .none
  | .sleepOp => v.framesAllowed && f == .none
  | .powerOffOp => true

/-- The status outputs the host may read (10_state.md R21). -/
def State.statusOutputs (s : State) : BitVec 3 × BitVec 3 := (s.state.code, s.fault.code)

end Sys2Proof.Machine
end

