-- ==== Sys2Proof/Machine/Ops.lean ====
section
/-! DEFINITION. The shared operations of the sequencer: the environment's answers, the event trace, responses and the one
abort of 60_exceptions.md R150, the I/O events of 00_scope.md section 7, the two bus primitives of 43_primitives.md, the
busy poll of 40_init_reset_sync.md R80, the sequencer position, and block reset. -/

namespace Sys2Proof.Machine

/-- What a piece of an operation leaves: `go s`, the next micro-operation may start; `halt s`, the sequencer stops here for
this step, because the operation has ended (`pc` is `IDLE_PC`) or because a busy read returned HIGH. -/
inductive Flow where
  | go (s : State)
  | halt (s : State)

/-- The state a flow leaves. -/
def Flow.state : Flow → State
  | .go s => s
  | .halt s => s

/-- "after a micro-operation completes, the next in the list starts" (40_init_reset_sync.md R71 (a)); after a halt nothing
does (R71 (e)). -/
def Flow.then (f : Flow) (k : State → Flow) : Flow :=
  match f with
  | .go s => k s
  | .halt s => .halt s

/-- The environment's answer to the next event: the oldest settled one, else a free value. -/
def State.answer (s : State) : Answer := s.inputs.headD (Config.freeAnswer s.draws)

/-- The state once that answer is used up. -/
def State.drawn (s : State) : State :=
  match s.inputs with
  | [] => { s with draws := s.draws + 1 }
  | _ :: rest => { s with inputs := rest }

/-- One more event on the trace (20_memory.md R42). -/
def State.emit (e : Event) (s : State) : State := { s with trace := s.trace ++ [e] }

/-- `pin[p]` (10_state.md R15). -/
def Pins.get (x : Pins) : Pin → Level
  | .pwr => x.pwr
  | .rst => x.rst
  | .dc => x.dc

/-- `pin[p] <- v` (10_state.md R15). -/
def Pins.set (x : Pins) (p : Pin) (v : Level) : Pins :=
  match p with
  | .pwr => { x with pwr := v }
  | .rst => { x with rst := v }
  | .dc => { x with dc := v }

/-- `pin[p] <- v` in the state: the latch, and with it the line it drives (10_state.md R15). -/
def State.setPin (p : Pin) (v : Level) (s : State) : State :=
  { s with pins := s.pins.set p v, lines := s.lines.set p v }

/-- `state <- v`. -/
def State.setState (v : SeqState) (s : State) : State := { s with state := v }

/-- `bus_owned <- 0` (10_state.md R19). -/
def State.releaseBus (s : State) : State := { s with busOwned := false }

/-- `poll_cnt <- poll_cnt + 1` (40_init_reset_sync.md R80). -/
def State.countPoll (s : State) : State := { s with pollCnt := s.pollCnt + 1 }

/-- Give the response and return to `IDLE_PC` (40_init_reset_sync.md R71 (d); 10_state.md R17).  `planeIdx`, `byteIdx` and
`pollCnt` keep their last values after the operation: 10_state.md R18 says that none survives it and gives no value, so
this is the model's choice (assumption 27). -/
def State.respond (r : Response) (s : State) : State := { s with responses := s.responses ++ [r], pc := .idle }

/-- TAKING AN ERROR: the abort of a running operation by a sticky kind (60_exceptions.md R150).  Effects of earlier events
stand, `fault` is set if it was NONE, the response is the error's code, `pc` is `IDLE_PC`. -/
def State.abort (c : Status) (info : ErrorInfo) (s : State) : State :=
  State.respond ⟨c, info⟩ { s with fault := s.fault.record c }

/-- The progress part of `pc` (10_state.md R17). -/
def Pc.sub : Pc → Nat
  | .idle => 0
  | .running _ _ sub => sub

/-- Set the progress part of `pc`. -/
def Pc.setSub (n : Nat) : Pc → Pc
  | .idle => .idle
  | .running op k _ => .running op k n

/-- Set the progress part of the sequencer position. -/
def State.setSub (n : Nat) (s : State) : State := { s with pc := s.pc.setSub n }

/-- The operation is `show`, in either of its two forms (41_frame.md R94). -/
def HostOp.streams : HostOp → Bool
  | .showOp => true
  | .clearOp => true
  | .initOp => false
  | .sleepOp => false
  | .powerOffOp => false

/-- Rows 3 and 5 of `show`, which stand for one micro-operation per byte (41_frame.md R92). -/
def inByteLoop (op : HostOp) (k : Nat) : Bool := op.streams && (k == 3 || k == 5)

/-- The busy-waits of the lists: indices 6, 8 and 27 of `initialize` and 7 of `show` (40_init_reset_sync.md R73,
41_frame.md R92). -/
def inBusyWait (op : HostOp) (k : Nat) : Bool :=
  (op == .initOp && (k == 6 || k == 8 || k == 27)) || (op.streams && k == 7)

/-- THE SEQUENCER POSITION, `pc` of the spec: the byte index is its `sub` part in rows 3 and 5 of `show` (41_frame.md R92), the
poll count in a busy-wait and the next event elsewhere (10_state.md R17). -/
def State.position (s : State) : Position :=
  match s.pc with
  | .idle => .idle
  | .running op k next =>
    .running op k (if inByteLoop op k then .byte s.byteIdx next else if inBusyWait op k then .polls s.pollCnt else .event next)

/-- An event that did not complete: it stands on the trace as such, and the operation aborts with TransportFailure, whose
info is the event and the sequencer position (60_exceptions.md R145, R140). -/
def failEvent (e : Event) (s : State) : Flow :=
  .halt ((s.emit e).abort .transportFailure (.event e s.position))

/-- `PinWrite(p, v)` (00_scope.md section 7): on completion `pin[p] = v`; after a failure the latch, and the line, has the old
or the new level (60_exceptions.md R151; assumption 15). -/
def pinWrite (p : Pin) (v : Level) (s : State) : Flow :=
  let a := s.answer
  let s := s.drawn
  if a.completes then .go ((s.setPin p v).emit (.pinWrite p v true))
  else failEvent (.pinWrite p v false) (if a.took then s.setPin p v else s)

/-- `BusSend(b)` (00_scope.md section 7): one byte to the serial bus.  Whether a failed send delivered it is unspecified
(60_exceptions.md R151) and leaves no trace in the block (assumption 15). -/
def busSend (b : Byte) (s : State) : Flow :=
  let a := s.answer
  let s := s.drawn
  if a.completes then .go (s.emit (.busSend b true)) else failEvent (.busSend b false) s

/-- `BusRelease(); bus_owned <- 0` (42_sleep_power.md R103); after a failure `bus_owned` has either value
(60_exceptions.md R151; assumption 15). -/
def busRelease (s : State) : Flow :=
  let a := s.answer
  let s := s.drawn
  if a.completes then .go (s.releaseBus.emit (.busRelease true))
  else failEvent (.busRelease false) (if a.took then s.releaseBus else s)

/-- `Delay(T_HOLD)` (00_scope.md section 7): elapsed, or interrupted, which aborts with Interrupted
(60_exceptions.md R146). -/
def delayHold (s : State) : Flow :=
  let a := s.answer
  let s := s.drawn
  if a.completes then .go (s.emit (.delay s.params.tHoldNs true))
  else .halt ((s.emit (.delay s.params.tHoldNs false)).abort .interrupted (.position s.position))

/-- Whether `poll_cnt` has reached `BUSY_TIMEOUT_POLLS` (40_init_reset_sync.md R80, R81). -/
def timedOut (t : Option Nat) (polls : Nat) : Bool :=
  match t with
  | none => false
  | some n => decide (n ≤ polls)

/-- `poll_cnt <- 0` at the start of a `busyWait` (40_init_reset_sync.md R80). -/
def startWait (s : State) : State := if s.pc.sub = 0 then { s with pollCnt := 0 } else s

/-- One turn of the poll loop of `busyWait` (40_init_reset_sync.md R80): LOW ends the wait; HIGH is counted, and either the
timeout fires (R81) or the sequencer stays in the loop; a failed read aborts and is not counted (60_exceptions.md R152). -/
def busyPoll (s : State) : Flow :=
  let s := startWait s
  let a := s.answer
  let s := s.drawn
  if a.completes then
    match a.busy with
    | .low => .go (s.emit (.busyRead (some .low)))
    | .high =>
      let s := s.countPoll.emit (.busyRead (some .high))
      if timedOut s.params.busyTimeoutPolls s.pollCnt then .halt (s.abort .busyTimeout (.position s.position))
      else .halt (s.setSub 1)
  else failEvent (.busyRead none) s

/-- A frame: `PinWrite(DC, level)`, then `BusSend(byte)` (43_primitives.md R110, R111, R113).  When the pin write of the
current micro-operation has been performed already (`sub` is 1), only the byte is left. -/
def sendFrame (dc : Level) (b : Byte) (s : State) : Flow :=
  (if s.pc.sub = 0 then (pinWrite .dc dc s).then fun t => .go (t.setSub 1) else .go s).then (busSend b)

/-- `sendCommand(o)` (43_primitives.md R110). -/
def sendCommand (o : Byte) (s : State) : Flow := sendFrame .low o s

/-- `sendData(b)` (43_primitives.md R111). -/
def sendData (b : Byte) (s : State) : Flow := sendFrame .high b s

/-- Enter micro-operation `k`.  The loops of `show` write their registers as they start (10_state.md R18,
41_frame.md R92): `plane_idx` before each plane's select command, `byte_idx` before each plane's bytes. -/
def State.enter (op : HostOp) (k : Nat) (s : State) : State :=
  { s with
    pc := .running op k 0
    planeIdx := if op.streams && k == 2 then 0 else if op.streams && k == 4 then 1 else s.planeIdx
    byteIdx := if inByteLoop op k then 0 else s.byteIdx }

/-- The current micro-operation has completed (10_state.md R17): the next one is entered; in the byte loop, the next
byte until `byte_idx` reaches PLANE_BYTES (40_init_reset_sync.md R71 (c)): the byte index is the `sub` part of the position
there (41_frame.md R92, `State.position`), and the next byte's micro-operation begins with its first event. -/
def State.advance (s : State) : State :=
  match s.pc with
  | .idle => s
  | .running op k _ =>
    if inByteLoop op k then
      if s.byteIdx + 1 < planeBytes s.params.geometry then
        { s with byteIdx := s.byteIdx + 1, pc := .running op k 0 }
      else State.enter op (k + 1) { s with byteIdx := s.byteIdx + 1 }
    else State.enter op (k + 1) s

/-- The byte the byte loop sends next: `MemRead((PLANES[plane_idx], byte_idx), 1)` (41_frame.md R92). -/
def State.nextByte? (s : State) : Option Byte := memRead (planeAt s.planeIdx) s.byteIdx s.operand

/-- The same where the checks of `show` have passed, which make it present (00_scope.md section 7: never fails).  The
value for an absent byte is never used: every caller has checked that the byte is there (`operandReady`). -/
def State.nextByte (s : State) : Byte := s.nextByte?.getD 0#8

/-- The byte loop of `show`, `n` bytes (41_frame.md R92). -/
def streamBytes : Nat → State → Flow
  | 0, s => .go s
  | n + 1, s => (sendData s.nextByte s).then fun t => streamBytes n t.advance

/-- One micro-operation (40_init_reset_sync.md R70), the advance of `pc` with it. -/
def runMicro (m : MicroOp) (s : State) : Flow :=
  match m with
  | .pw p v => (pinWrite p v s).then fun t => .go t.advance
  | .dl => (delayHold s).then fun t => .go t.advance
  | .bw => (busyPoll s).then fun t => .go t.advance
  | .sc o => (sendCommand o s).then fun t => .go t.advance
  | .sd b => (sendData b s).then fun t => .go t.advance
  | .stream => streamBytes (planeBytes s.params.geometry - s.byteIdx) s
  | .br => (busRelease s).then fun t => .go t.advance
  | .st v => .go (s.setState v).advance
  | .chk =>
    match checkBuffer s.params.geometry s.operand with
    | none => .go s.advance
    | some r => .halt (s.respond r)

/-- A list of micro-operations in list order (40_init_reset_sync.md R70, R71 (a) and (e)). -/
def runList : List MicroOp → State → Flow
  | [], s => .go s
  | m :: rest, s => (runMicro m s).then (runList rest)

/-- The rest of an operation: "after the last micro-operation the response `OK` is given and `pc <- IDLE_PC`"
(40_init_reset_sync.md R71 (d)). -/
def runToEnd (l : List MicroOp) (s : State) : Flow :=
  (runList l s).then fun t => .halt (t.respond ⟨.ok, .none⟩)

/-- The block reset comes where it is meant to come: at the start, before any event of the run, or from POWERED_OFF
(70_reset_and_hazards.md R172). -/
def State.resetExpected (s : State) : Bool := s.state == .poweredOff || s.trace.length == s.run.events

/-- The real levels of the lines after a block reset.  "it drives no pin actively" (70_reset_and_hazards.md R170), so they stay
when the reset comes where it is meant to; in mid-session they are unknown (R172; assumption 21). -/
def State.linesAfterReset (s : State) : Pins :=
  if s.resetExpected then s.lines
  else
    let l := Config.freeLevels s.draws
    ⟨l.1, l.2.1, l.2.2⟩

/-- Block reset (70_reset_and_hazards.md R170): every register at its reset value, no I/O event, and a new run begins
(R187).  The parameters and what lies outside the block (host, responses, trace, environment) are not the block's registers
and stay (assumptions 10 and 11); in mid-session one free value is drawn for the lines (R172; assumption 21). -/
def State.blockReset (s : State) : State :=
  { s with
    state := State.reset.state
    fault := State.reset.fault
    pins := State.reset.pins
    lines := s.linesAfterReset
    busOwned := State.reset.busOwned
    pc := State.reset.pc
    planeIdx := State.reset.planeIdx
    byteIdx := State.reset.byteIdx
    pollCnt := State.reset.pollCnt
    operand := State.reset.operand
    run := ⟨s.responses.length, s.trace.length, s.linesAfterReset⟩
    draws := if s.resetExpected then s.draws else s.draws + 1 }

end Sys2Proof.Machine
end

