-- ==== Sys2Proof/Machine/Programs.lean ====
section
/-! DEFINITION. The micro-operation lists of the operations, and how a host-level instruction is dispatched, started and
resumed (40_init_reset_sync.md R70 to R73, R76, R78, 41_frame.md R92, 42_sleep_power.md R100, R103). -/

namespace Sys2Proof.Machine

/-- A chip command: `sendCommand(opcode)` followed by one `sendData` per argument byte, in order
(44_chip_commands.md R119). -/
def commandOps (p : Params) (c : ChipCommand) : List MicroOp :=
  .sc (p.opcodes.opcode c) :: (argumentBytes p.geometry c).map .sd

/-- `hardReset()` (40_init_reset_sync.md R76). -/
def hardResetOps : List MicroOp := [.pw .rst .low, .dl, .pw .rst .high, .dl, .bw]

/-- `softReset()` (40_init_reset_sync.md R78). -/
def softResetOps (p : Params) : List MicroOp := commandOps p .softReset ++ [.bw]

/-- The configuration commands in their fixed order (40_init_reset_sync.md R73; "fixed, must match exactly"). -/
def configurationOps (p : Params) : List MicroOp :=
  commandOps p .dataEntryMode ++ commandOps p .setXWindow ++ commandOps p .setYWindow ++ commandOps p .updateControl
    ++ commandOps p .setXCounter ++ commandOps p .setYCounter

/-- `initialize()`, indices 0 to 29 (40_init_reset_sync.md R73). -/
def initOps (p : Params) : List MicroOp :=
  [.pw .pwr .high, .st .powered] ++ hardResetOps ++ softResetOps p ++ [.st .reset] ++ configurationOps p
    ++ [.bw, .st .configured, .st .idle]

/-- `show(buffer)`, indices 0 to 8 (41_frame.md R92); `clearDisplay()` has the same list (41_frame.md R94). -/
def showOps (p : Params) : List MicroOp :=
  [.chk, .st .busy, .sc (p.opcodes.opcode .selectPrimary), .stream, .sc (p.opcodes.opcode .selectAccent), .stream,
   .sc (p.opcodes.opcode .refresh), .bw, .st .idle]

/-- `sleep()` (42_sleep_power.md R100). -/
def sleepOps (p : Params) : List MicroOp := commandOps p .deepSleep ++ [.st .sleeping]

/-- `powerOff()` when `state != POWERED_OFF` (42_sleep_power.md R103). -/
def powerOffOps : List MicroOp := [.pw .pwr .low, .pw .dc .low, .pw .rst .low, .br, .st .poweredOff]

/-- The list of each host operation (40_init_reset_sync.md R70). -/
def program (p : Params) : HostOp → List MicroOp
  | .initOp => initOps p
  | .showOp => showOps p
  | .clearOp => showOps p
  | .sleepOp => sleepOps p
  | .powerOffOp => powerOffOps

/-- The byte that row 3 or 5 of `show` would read next is there, and so is every byte of the rows still to come: the
buffer passes the checks of 41_frame.md R91 and `byte_idx` is below PLANE_BYTES (20_memory.md R31). -/
def operandReady (op : HostOp) (k : Nat) (s : State) : Bool :=
  !op.streams || k == 0 || decide (6 ≤ k)
    || ((checkBuffer s.params.geometry s.operand).isNone
        && (!inByteLoop op k || decide (s.byteIdx < planeBytes s.params.geometry)))

/-- `pc <- (op, 0, 0)` for an accepted request (40_init_reset_sync.md R72), with the snapshot of the operand that
`show` and `clearDisplay` stream (20_memory.md R46; assumptions 9 and 26). -/
def startOp (op : HostOp) (b : Buffer) (s : State) : State :=
  { s with pc := .running op 0 0, operand := if op.streams then Memory.snapshot b else s.operand }

/-- The request of a host operation: rejected with IllegalState when not accepted (10_state.md R25), answered OK with no
event for a `powerOff` in POWERED_OFF (42_sleep_power.md R104), else run (40_init_reset_sync.md R72). -/
def requestOp (op : HostOp) (b : Buffer) (s : State) : State :=
  if accepted op s.state s.fault then
    if op = .powerOffOp ∧ s.state = .poweredOff then s.respond ⟨.ok, .none⟩
    else (runToEnd (program s.params op) (startOp op b s)).state
  else s.respond ⟨.illegalState, .registers s.state s.fault⟩

/-- A host operation.  At `IDLE_PC` it is a request; at a position of its own list it goes on from there
(40_init_reset_sync.md R71).  It runs to its end, to an abort, or to a busy read that returns HIGH (assumption 7). -/
def hostOperation (op : HostOp) (b : Buffer) (s : State) : Host.Outcome State Fault Refusal :=
  match s.pc with
  | .idle => if paramsValid s.params then .next (requestOp op b s) else .refused .invalidParameters
  | .running op' k _ =>
    if op' = op then
      if k < (program s.params op).length then
        if operandReady op k s then .next (runToEnd ((program s.params op).drop k) s).state
        else .fault .bufferAddress
      else .fault .positionOutsideList
    else .refused .notReady

/-- A request whose code is a procedure's or reserved: IllegalOperation, no event, no register (30_encoding.md R59,
60_exceptions.md R141). -/
def illegalOperation (code : OpCode) (s : State) : State := s.respond ⟨.illegalOperation, .code code⟩

/-- A procedure: as a request it is rejected (30_encoding.md R51, R59); inside an operation its micro-operations are
executed in place, and then the calling list continues (40_init_reset_sync.md R71 (b); assumption 13). -/
def procedure (code : OpCode) (l : List MicroOp) (s : State) : Host.Outcome State Fault Refusal :=
  match s.pc with
  | .idle => .next (illegalOperation code s)
  | .running _ _ _ => .next (runList l s).state

/-- A reserved code, which only a request can name (30_encoding.md R51, R59). -/
def reservedCode (code : OpCode) (s : State) : Host.Outcome State Fault Refusal :=
  match s.pc with
  | .idle => .next (illegalOperation code s)
  | .running _ _ _ => .refused .notReady

/-- A wire frame of the running operation: one `SC` or `SD` micro-operation (40_init_reset_sync.md R70; assumption 13). -/
def emitFrame (m : MicroOp) (s : State) : Host.Outcome State Fault Refusal := .next (runMicro m s).state

end Sys2Proof.Machine
end

