-- ==== Sys2Proof/Machine/ChipCommands.lean ====
section
/-! DEFINITION. The eleven chip commands and the data frame (44_chip_commands.md R120 to R131): each is one frame on the
bus.  The argument bytes of a command follow as data frames of the same operation (R119). -/

namespace Sys2Proof.Machine

/-- `SOFT_RESET` (44_chip_commands.md R120). -/
def execCmdSoftReset (s : State) : Host.Outcome State Fault Refusal :=
  emitFrame (.sc (s.params.opcodes.opcode .softReset)) s

/-- `DATA_ENTRY_MODE` (44_chip_commands.md R121). -/
def execCmdDataEntryMode (s : State) : Host.Outcome State Fault Refusal :=
  emitFrame (.sc (s.params.opcodes.opcode .dataEntryMode)) s

/-- `SET_X_WINDOW` (44_chip_commands.md R122). -/
def execCmdSetXWindow (s : State) : Host.Outcome State Fault Refusal :=
  emitFrame (.sc (s.params.opcodes.opcode .setXWindow)) s

/-- `SET_Y_WINDOW` (44_chip_commands.md R123). -/
def execCmdSetYWindow (s : State) : Host.Outcome State Fault Refusal :=
  emitFrame (.sc (s.params.opcodes.opcode .setYWindow)) s

/-- `UPDATE_CONTROL` (44_chip_commands.md R124). -/
def execCmdUpdateControl (s : State) : Host.Outcome State Fault Refusal :=
  emitFrame (.sc (s.params.opcodes.opcode .updateControl)) s

/-- `SET_X_COUNTER` (44_chip_commands.md R125). -/
def execCmdSetXCounter (s : State) : Host.Outcome State Fault Refusal :=
  emitFrame (.sc (s.params.opcodes.opcode .setXCounter)) s

/-- `SET_Y_COUNTER` (44_chip_commands.md R126). -/
def execCmdSetYCounter (s : State) : Host.Outcome State Fault Refusal :=
  emitFrame (.sc (s.params.opcodes.opcode .setYCounter)) s

/-- `SELECT_PRIMARY` (44_chip_commands.md R127). -/
def execCmdSelectPrimary (s : State) : Host.Outcome State Fault Refusal :=
  emitFrame (.sc (s.params.opcodes.opcode .selectPrimary)) s

/-- `SELECT_ACCENT` (44_chip_commands.md R128). -/
def execCmdSelectAccent (s : State) : Host.Outcome State Fault Refusal :=
  emitFrame (.sc (s.params.opcodes.opcode .selectAccent)) s

/-- `REFRESH` (44_chip_commands.md R129). -/
def execCmdRefresh (s : State) : Host.Outcome State Fault Refusal :=
  emitFrame (.sc (s.params.opcodes.opcode .refresh)) s

/-- `SLEEP` (44_chip_commands.md R130). -/
def execCmdSleep (s : State) : Host.Outcome State Fault Refusal :=
  emitFrame (.sc (s.params.opcodes.opcode .deepSleep)) s

/-- The data frame (44_chip_commands.md R131). -/
def execData (b : Byte) (s : State) : Host.Outcome State Fault Refusal := emitFrame (.sd b) s

end Sys2Proof.Machine
end

