-- ==== Sys2Proof/Machine/HostOps.lean ====
section
/-! DEFINITION. The five host operations (40_init_reset_sync.md R73, 41_frame.md R90, R94, 42_sleep_power.md R100,
R103). -/

namespace Sys2Proof.Machine

/-- `initialize()` (40_init_reset_sync.md R73). -/
def execInitialize (s : State) : Host.Outcome State Fault Refusal := hostOperation .initOp [] s

/-- `show(buffer)` (41_frame.md R90). -/
def execShow (b : Buffer) (s : State) : Host.Outcome State Fault Refusal := hostOperation .showOp b s

/-- `clearDisplay()`: as `show(BLANK)` (41_frame.md R94, R95). -/
def execClearDisplay (s : State) : Host.Outcome State Fault Refusal :=
  hostOperation .clearOp (blank s.params.geometry) s

/-- `sleep()` (42_sleep_power.md R100). -/
def execSleep (s : State) : Host.Outcome State Fault Refusal := hostOperation .sleepOp [] s

/-- `powerOff()` (42_sleep_power.md R103, R104). -/
def execPowerOff (s : State) : Host.Outcome State Fault Refusal := hostOperation .powerOffOp [] s

end Sys2Proof.Machine
end

