-- ==== Sys2Proof/Machine/Procedures.lean ====
section
/-! DEFINITION. The five procedures (40_init_reset_sync.md R76, R78, R80, 43_primitives.md R110, R111) and the six
reserved codes (30_encoding.md R59). -/

namespace Sys2Proof.Machine

/-- `hardReset()` (40_init_reset_sync.md R76). -/
def execHardReset (s : State) : Host.Outcome State Fault Refusal := procedure 1#4 hardResetOps s

/-- `softReset()` (40_init_reset_sync.md R78). -/
def execSoftReset (s : State) : Host.Outcome State Fault Refusal := procedure 2#4 (softResetOps s.params) s

/-- `busyWait()` (40_init_reset_sync.md R80): one turn of its loop. -/
def execBusyWait (s : State) : Host.Outcome State Fault Refusal := procedure 3#4 [.bw] s

/-- `sendCommand(opcode)` (43_primitives.md R110). -/
def execSendCommand (o : Byte) (s : State) : Host.Outcome State Fault Refusal := procedure 8#4 [.sc o] s

/-- `sendData(byte)` (43_primitives.md R111). -/
def execSendData (b : Byte) (s : State) : Host.Outcome State Fault Refusal := procedure 9#4 [.sd b] s

/-- Reserved code 10 (30_encoding.md R59). -/
def execReserved10 (s : State) : Host.Outcome State Fault Refusal := reservedCode 10#4 s

/-- Reserved code 11 (30_encoding.md R59). -/
def execReserved11 (s : State) : Host.Outcome State Fault Refusal := reservedCode 11#4 s

/-- Reserved code 12 (30_encoding.md R59). -/
def execReserved12 (s : State) : Host.Outcome State Fault Refusal := reservedCode 12#4 s

/-- Reserved code 13 (30_encoding.md R59). -/
def execReserved13 (s : State) : Host.Outcome State Fault Refusal := reservedCode 13#4 s

/-- Reserved code 14 (30_encoding.md R59). -/
def execReserved14 (s : State) : Host.Outcome State Fault Refusal := reservedCode 14#4 s

/-- Reserved code 15 (30_encoding.md R59). -/
def execReserved15 (s : State) : Host.Outcome State Fault Refusal := reservedCode 15#4 s

end Sys2Proof.Machine
end

