-- ==== Sys2Proof/Machine/Dispatch.lean ====
section
/-! DEFINITION. Dispatch: one arm per constructor of Instr, one meaning per arm. -/

namespace Sys2Proof.Machine

def exec (i : Instr) (s : State) : Host.Outcome State Fault Refusal :=
  match i with
  | .opInitialize => Sys2Proof.Machine.execInitialize s
  | .opHardReset => Sys2Proof.Machine.execHardReset s
  | .opSoftReset => Sys2Proof.Machine.execSoftReset s
  | .opBusyWait => Sys2Proof.Machine.execBusyWait s
  | .opShow b => Sys2Proof.Machine.execShow b s
  | .opClearDisplay => Sys2Proof.Machine.execClearDisplay s
  | .opSleep => Sys2Proof.Machine.execSleep s
  | .opPowerOff => Sys2Proof.Machine.execPowerOff s
  | .opSendCommand o => Sys2Proof.Machine.execSendCommand o s
  | .opSendData b => Sys2Proof.Machine.execSendData b s
  | .reserved10 => Sys2Proof.Machine.execReserved10 s
  | .reserved11 => Sys2Proof.Machine.execReserved11 s
  | .reserved12 => Sys2Proof.Machine.execReserved12 s
  | .reserved13 => Sys2Proof.Machine.execReserved13 s
  | .reserved14 => Sys2Proof.Machine.execReserved14 s
  | .reserved15 => Sys2Proof.Machine.execReserved15 s
  | .cmdSoftReset => Sys2Proof.Machine.execCmdSoftReset s
  | .cmdDataEntryMode => Sys2Proof.Machine.execCmdDataEntryMode s
  | .cmdSetXWindow => Sys2Proof.Machine.execCmdSetXWindow s
  | .cmdSetYWindow => Sys2Proof.Machine.execCmdSetYWindow s
  | .cmdUpdateControl => Sys2Proof.Machine.execCmdUpdateControl s
  | .cmdSetXCounter => Sys2Proof.Machine.execCmdSetXCounter s
  | .cmdSetYCounter => Sys2Proof.Machine.execCmdSetYCounter s
  | .cmdSelectPrimary => Sys2Proof.Machine.execCmdSelectPrimary s
  | .cmdSelectAccent => Sys2Proof.Machine.execCmdSelectAccent s
  | .cmdRefresh => Sys2Proof.Machine.execCmdRefresh s
  | .cmdSleep => Sys2Proof.Machine.execCmdSleep s
  | .data b => Sys2Proof.Machine.execData b s

end Sys2Proof.Machine
end

