-- ==== Sys2Proof/Machine/Fetch.lean ====
section
/-! DEFINITION. What the next step executes: the host's next request at `IDLE_PC`, the instruction at the sequencer
position while an operation runs, or a block reset; and where a table word is placed so that the next step runs it. -/

namespace Sys2Proof.Machine

/-- What a step has to do. -/
inductive Fetched where
  /-- No request is there: the block waits at `IDLE_PC` (70_reset_and_hazards.md R170). -/
  | wait
  /-- A block reset, and the host actions after it. -/
  | blockReset (rest : List HostAction)
  /-- An instruction, and the state in which it executes. -/
  | instr (i : Instr) (s : State)
  /-- The position or the buffer address does not exist. -/
  | fault (r : Fault)
  /-- The frame or request does not decode. -/
  | undecodable (e : DecodeError)

/-- A decoded form, executed in `s`. -/
def Fetched.ofEncoded (e : Encoded) (s : State) : Fetched :=
  match decode s.params.opcodes e with
  | .ok i => .instr i s
  | .error r => .undecodable r

/-- The host operation as an instruction. -/
def HostOp.instr (b : Buffer) : HostOp → Instr
  | .initOp => .opInitialize
  | .showOp => .opShow b
  | .clearOp => .opClearDisplay
  | .sleepOp => .opSleep
  | .powerOffOp => .opPowerOff

/-- `hardReset` begins at index 2 of `initialize` (40_init_reset_sync.md R73). -/
def atHardReset (op : HostOp) (k : Nat) : Bool := op == .initOp && k == 2

/-- The instruction at position `k` of a running operation: the frame of an `SC` or `SD`, `busyWait` for a `BW`,
`hardReset` where it is called, and for the other micro-operations the operation itself, which goes on from there. -/
def fetchRunning (op : HostOp) (k : Nat) (s : State) : Fetched :=
  match (program s.params op)[k]? with
  | none => .fault .positionOutsideList
  | some (.sc o) => .ofEncoded (.frame (mkFrame .low o)) s
  | some (.sd b) => .ofEncoded (.frame (mkFrame .high b)) s
  | some .stream =>
    if s.byteIdx < planeBytes s.params.geometry then
      match s.nextByte? with
      | some b => .ofEncoded (.frame (mkFrame .high b)) s
      | none => .fault .bufferAddress
    else .fault .bufferAddress
  | some .bw => .instr .opBusyWait s
  | some (.pw _ _) => if atHardReset op k then .instr .opHardReset s else .instr (op.instr s.operand) s
  | some .dl => .instr (op.instr s.operand) s
  | some .br => .instr (op.instr s.operand) s
  | some (.st _) => .instr (op.instr s.operand) s
  | some .chk => .instr (op.instr s.operand) s

/-- What the next step executes.  A block reset at the head of the host's actions takes effect wherever the sequencer
stands (assumption 10); a request is taken only at `IDLE_PC` (30_encoding.md R50). -/
def fetch (s : State) : Fetched :=
  match s.host, s.pc with
  | .blockReset :: rest, _ => .blockReset rest
  | [], .idle => .wait
  | .request c o :: rest, .idle => .ofEncoded (.request c o) { s with host := rest }
  | [], .running op k _ => fetchRunning op k s
  | .request _ _ :: _, .running op k _ => fetchRunning op k s

/-- The position at which an operation emits a chip command (40_init_reset_sync.md R73, 41_frame.md R92,
42_sleep_power.md R100). -/
def commandPosition : ChipCommand → HostOp × Nat
  | .softReset => (.initOp, 7)
  | .dataEntryMode => (.initOp, 10)
  | .setXWindow => (.initOp, 12)
  | .setYWindow => (.initOp, 15)
  | .updateControl => (.initOp, 19)
  | .setXCounter => (.initOp, 22)
  | .setYCounter => (.initOp, 24)
  | .selectPrimary => (.showOp, 2)
  | .selectAccent => (.showOp, 4)
  | .refresh => (.showOp, 6)
  | .deepSleep => (.sleepOp, 0)

/-- The host actions without block resets before the first request. -/
def afterResets : List HostAction → List HostAction
  | [] => []
  | .blockReset :: rest => afterResets rest
  | .request c o :: rest => .request c o :: rest

/-- Place an encoded form where the next step executes it: a request at the head of the host's actions with the sequencer
at `IDLE_PC`; a command frame at the position of the operation that emits it; a data frame as the first byte of the
primary plane, at row 3 of `show` (assumption 17). -/
def placeEncoded (e : Encoded) (s : State) : State :=
  match e with
  | .request c o => { s with pc := .idle, host := .request c o :: s.host }
  | .frame f =>
    match Frame.dc f with
    | .high =>
      { s with
        pc := .running .showOp 3 0
        planeIdx := 0
        byteIdx := 0
        operand := [(.primary, [Frame.byte f])]
        host := afterResets s.host }
    | .low =>
      match s.params.opcodes.command? (Frame.byte f) with
      | some c =>
        { s with
          pc := .running (commandPosition c).1 (commandPosition c).2 0
          host := afterResets s.host }
      | none => s

/-- Place a table word (spec/opcode_table.json).  A number that is no word leaves the state as it is. -/
def placeWord (nbits w : Nat) (s : State) : State :=
  match tableWord nbits w with
  | .ok e => placeEncoded e s
  | .error _ => s

end Sys2Proof.Machine
end

