-- ==== Sys2Proof/Machine/Step.lean ====
section
/-! DEFINITION. One step of the block: what `fetch` finds is executed. -/

namespace Sys2Proof.Machine

/-- One step.  It executes one instruction: at `IDLE_PC` the host's next request (40_init_reset_sync.md R72), else the
instruction at the sequencer position; with no request it waits at `IDLE_PC`. -/
def step (s : State) : Host.Outcome State Fault Refusal :=
  match fetch s with
  | .wait => .next s
  | .blockReset rest => .next (State.blockReset { s with host := rest })
  | .instr i t => exec i t
  | .fault r => .fault r
  | .undecodable e => .refused (.undecodable e)

/-- The state with a table word placed where the next step executes it (assumption 17). -/
def State.withFetchWord (s : State) (nbits w : Nat) : State := placeWord nbits w s

end Sys2Proof.Machine
end

