-- ==== Sys2Proof/Machine/Wire.lean ====
section
/-! DEFINITION. What the chip receives: the wire view of a trace (43_primitives.md R112), the frames in it, the commands
they form (30_encoding.md R55), and the bytes last sent to each chip-side register (10_state.md R22; assumption 24).  These read the trace
only: the block keeps no copy of anything of the chip (10_state.md R24). -/

namespace Sys2Proof.Machine

/-- One item of the wire view (43_primitives.md R112): a frame, or a change of level of `PWR` or `RST`. -/
inductive WireItem where
  | frame (f : Frame)
  | power (v : Level)
  | reset (v : Level)
deriving DecidableEq, Repr

/-- The levels of the lines after an event: a completed pin write sets one; after a failed one it has the old or the new level,
as `took` says (60_exceptions.md R151); nothing else drives them (70_reset_and_hazards.md R174). -/
def Pins.after (x : Pins) (took : Bool) : Event → Pins
  | .pinWrite p v completed => if completed || took then x.set p v else x
  | .busSend _ _ => x
  | .busyRead _ => x
  | .busRelease _ => x
  | .delay _ _ => x

/-- The levels after a trace; `took` says of each event in turn whether it took effect although it failed. -/
def Pins.afterAll (x : Pins) (took : List Bool) : List Event → Pins
  | [] => x
  | e :: rest => (x.after (took.headD false) e).afterAll took.tail rest

/-- The level changes of `PWR` and `RST` between two settings of the lines.  A redundant write changes nothing
(43_primitives.md R112). -/
def levelChanges (x y : Pins) : List WireItem :=
  (if y.pwr = x.pwr then [] else [.power y.pwr]) ++ if y.rst = x.rst then [] else [.reset y.rst]

/-- The frame of a completed `BusSend`, with the level of `DC` at that time (43_primitives.md R112). -/
def frameItem (x : Pins) : Event → List WireItem
  | .busSend b true => [.frame (mkFrame x.dc b)]
  | .busSend _ false => []
  | .pinWrite _ _ _ => []
  | .busyRead _ => []
  | .busRelease _ => []
  | .delay _ _ => []

/-- The wire view of a trace that begins with the given levels of the lines: "the sequence of frames ... together with the
level changes of `PWR` and `RST` in their places" (43_primitives.md R112).  A trace whose writes all complete has one view;
a failed write may or may not have changed its line (60_exceptions.md R151), and each choice of `took` gives one of the views
that are possible then (assumption 16). -/
def wireView (x : Pins) (took : List Bool) : List Event → List WireItem
  | [] => []
  | e :: rest =>
    levelChanges x (x.after (took.headD false) e) ++ frameItem x e
      ++ wireView (x.after (took.headD false) e) took.tail rest

/-- The frames of a wire view. -/
def framesOf : List WireItem → List Frame
  | [] => []
  | .frame f :: rest => f :: framesOf rest
  | .power _ :: rest => framesOf rest
  | .reset _ :: rest => framesOf rest

/-- The frames of a command with given argument bytes (30_encoding.md R55). -/
def commandFrames (o : Byte) (args : List Byte) : List Frame := mkFrame .low o :: args.map (mkFrame .high)

/-- The two events of a completed frame, which `C:xx` and `W:xx` stand for (00_scope.md section 7). -/
def frameEvents (dc : Level) (b : Byte) : List Event := [.pinWrite .dc dc true, .busSend b true]

/-- The events of a completed command with given argument bytes (44_chip_commands.md R119). -/
def commandEvents (o : Byte) (args : List Byte) : List Event := frameEvents .low o ++ args.flatMap (frameEvents .high)

/-- Frames grouped into commands: a command frame opens a command and the data frames after it are its arguments; "the
`dc` bit of each frame tells whether it opens a new command" (30_encoding.md R55).  Data frames before the first command
frame belong to none. -/
def commandsOf : List Frame → List (Byte × List Byte)
  | [] => []
  | f :: rest =>
    match Frame.dc f with
    | .high => commandsOf rest
    | .low =>
      (Frame.byte f, ((rest.takeWhile fun g => Frame.dc g == .high).map Frame.byte)) :: commandsOf rest

/-- The argument bytes last sent to a chip-side register, by the command that writes it (10_state.md R22): a view of the
trace, no state of the block.  None: not sent in this trace.  The levels the view begins with do not matter: every frame of
the block drives `DC` first (43_primitives.md R112). -/
def lastSent (t : CommandTable) (c : ChipCommand) (trace : List Event) : Option (List Byte) :=
  ((commandsOf (framesOf (wireView ⟨.low, .low, .low⟩ [] trace))).reverse.find? fun e => e.1 == t.opcode c).map Prod.snd

/-- The events of a busy-wait whose reads return HIGH `n` times and then LOW (40_init_reset_sync.md R80). -/
def waitEvents (n : Nat) : List Event := List.replicate n (.busyRead (some .high)) ++ [.busyRead (some .low)]

/-- The events of a `hardReset` up to its busy-wait (40_init_reset_sync.md R76). -/
def resetPulse (hold : Nat) : List Event :=
  [.pinWrite .rst .low true, .delay hold true, .pinWrite .rst .high true, .delay hold true]

/-- The events of the configuration commands, written out from 40_init_reset_sync.md R73. -/
def configurationEvents (p : Params) : List Event :=
  commandEvents p.opcodes.dataEntryMode [0x03#8]
    ++ commandEvents p.opcodes.setXWindow [0x00#8, xEnd p.geometry]
    ++ commandEvents p.opcodes.setYWindow [0x00#8, yEndLow p.geometry, yEndHigh p.geometry]
    ++ commandEvents p.opcodes.updateControl [0x00#8, 0x80#8]
    ++ commandEvents p.opcodes.setXCounter [0x00#8]
    ++ commandEvents p.opcodes.setYCounter [0x00#8, 0x00#8]

/-- The events of a whole `initialize` whose three waits read HIGH `a`, `b` and `c` times before LOW, written out from
40_init_reset_sync.md R73. -/
def initializeEvents (p : Params) (a b c : Nat) : List Event :=
  [.pinWrite .pwr .high true] ++ resetPulse p.tHoldNs ++ waitEvents a ++ commandEvents p.opcodes.softReset []
    ++ waitEvents b ++ configurationEvents p ++ waitEvents c

/-- The events of a whole `show` of two planes whose closing wait reads HIGH `n` times before LOW, written out from
41_frame.md R92. -/
def showEvents (p : Params) (primary accent : List Byte) (n : Nat) : List Event :=
  commandEvents p.opcodes.selectPrimary primary ++ commandEvents p.opcodes.selectAccent accent
    ++ commandEvents p.opcodes.refresh [] ++ waitEvents n

end Sys2Proof.Machine
end

