-- ==== Sys2Proof/Machine/Run.lean ====
section
/-! DEFINITION. Runs (70_reset_and_hazards.md R187): a program of requests from block reset, when its run has ended, what
its result is, and which runs are clean. -/

namespace Sys2Proof.Machine

/-- "a finite program (a list of requests)" (70_reset_and_hazards.md R187). -/
abbrev Program := List (OpCode × Operand)

/-- "the execution of a finite program ... from block reset" (70_reset_and_hazards.md R187): the block reset is done and the
host has the program's requests to present. -/
def State.load (p : Program) (s : State) : State :=
  { s.blockReset with host := p.map fun q => .request q.1 q.2 }

/-- The host's next action is a request: one of the program is left.  A block reset ends the program before it. -/
def State.requestLeft (s : State) : Bool :=
  match s.host with
  | .request _ _ :: _ => true
  | .blockReset :: _ => false
  | [] => false

/-- THE END OF A RUN: "It ends when the response to the last request has been given" (70_reset_and_hazards.md R187), that is
when no operation runs and no request is left.  While a `busyWait` polls, the run has not ended.  The run of a program of
no requests is over at once (assumption 28). -/
def State.runOver (s : State) : Bool := s.pc == .idle && !s.requestLeft

/-- The responses of the current run: those since the last block reset. -/
def State.runResponses (s : State) : List Response := s.responses.drop s.run.responses

/-- The event trace of the current run. -/
def State.runTrace (s : State) : List Event := s.trace.drop s.run.events

/-- The wire view of the current run, from the real levels of the lines at its start (43_primitives.md R112). -/
def State.runView (took : List Bool) (s : State) : List WireItem := wireView s.run.lines took s.runTrace

/-- The final registers: the control and status registers of 10_state.md R21. -/
structure Registers where
  state : SeqState
  fault : FaultReg
  pins : Pins
  busOwned : Bool
deriving DecidableEq, Repr

/-- "its result is the list of responses, the event trace, and the final registers" (70_reset_and_hazards.md R187). -/
structure RunResult where
  responses : List Response
  trace : List Event
  registers : Registers
deriving DecidableEq, Repr

/-- The result of the current run, once it has ended. -/
def State.runResult (s : State) : Option RunResult :=
  if s.runOver then some ⟨s.runResponses, s.runTrace, ⟨s.state, s.fault, s.pins, s.busOwned⟩⟩ else none

/-- "A run is *clean* when every response is `OK`" (70_reset_and_hazards.md R187).  A run that does not end is none, clean or
otherwise (93_implementation_defined.md U4: "never a clean end"). -/
def State.clean (s : State) : Bool := s.runOver && s.runResponses.all fun r => r.status == .ok

end Sys2Proof.Machine
end

