-- ==== Sys2Proof/Safety.lean ====
section
/-! DEFINITION. What counts as a safe run, in the terms the statements use: the premise that no event fails, the invariant
of the registers, and what the name of `clearDisplay` in a position changes. -/

namespace Sys2Proof.Machine

/-- The environment's `i`-th next answer: a settled one, else a free value. -/
def State.answerAt (i : Nat) (s : State) : Answer :=
  s.inputs[i]?.getD (Config.freeAnswer (s.draws + (i - s.inputs.length)))

/-- The state once `n` answers are used up. -/
def State.afterAnswers (n : Nat) (s : State) : State :=
  { s with inputs := s.inputs.drop n, draws := s.draws + (n - s.inputs.length) }

/-- The premise "no event fails" (60_exceptions.md R145: "The driver assumes these are supplied and reliable"), with every
busy read LOW, for the next `n` events. -/
def State.smooth (n : Nat) (s : State) : Prop :=
  ∀ i, i < n → (s.answerAt i).completes = true ∧ (s.answerAt i).busy = .low

/-- The weaker premise: the next `n` events complete, whatever level a busy read returns. -/
def State.noFail (n : Nat) (s : State) : Prop := ∀ i, i < n → (s.answerAt i).completes = true

/-- A busy-wait whose first read takes the `i`-th next answer reads HIGH `n` times and then LOW. -/
def State.waits (i n : Nat) (s : State) : Prop :=
  (∀ j, j < n → (s.answerAt (i + j)).busy = .high) ∧ (s.answerAt (i + n)).busy = .low

/-- The premise of a complete `initialize`: no event fails, the three busy-waits read HIGH `a`, `b` and `c` times before
LOW, and none of them reaches the timeout (40_init_reset_sync.md R73, R80, R81). -/
def State.initializes (a b c : Nat) (s : State) : Prop :=
  s.noFail (44 + a + b + c) ∧ s.waits 5 a ∧ s.waits (8 + a) b ∧ s.waits (43 + a + b) c
    ∧ ∀ n, s.params.busyTimeoutPolls = some n → a < n ∧ b < n ∧ c < n

/-- The premise of a complete `show`: no event fails, and the busy-wait reads HIGH `n` times before LOW, without reaching the
timeout (41_frame.md R92, 40_init_reset_sync.md R80, R81). -/
def State.shows (n : Nat) (s : State) : Prop :=
  s.noFail (4 * planeBytes s.params.geometry + 7 + n) ∧ s.waits (4 * planeBytes s.params.geometry + 6) n
    ∧ ∀ m, s.params.busyTimeoutPolls = some m → n < m

/-- The host's next action is not a block reset. -/
def State.noReset (s : State) : Bool :=
  match s.host with
  | .blockReset :: _ => false
  | .request _ _ :: _ => true
  | [] => true

/-- The rows of the summary of every change of `state` (10_state.md, after R11). -/
inductive StateEdge : SeqState → SeqState → Prop where
  | powerOn : StateEdge .unpowered .powered
  | resetDone : StateEdge .powered .reset
  | configured : StateEdge .reset .configured
  | ready : StateEdge .configured .idle
  | frameFromIdle : StateEdge .idle .busy
  | frameFromConfigured : StateEdge .configured .busy
  | frameDone : StateEdge .busy .idle
  | sleepFromIdle : StateEdge .idle .sleeping
  | sleepFromConfigured : StateEdge .configured .sleeping
  | powerOff (v : SeqState) : StateEdge v .poweredOff

/-- The five host operations (30_encoding.md R51). -/
def isHostOp : Instr → Bool
  | .opInitialize | .opShow _ | .opClearDisplay | .opSleep | .opPowerOff => true
  | .opHardReset | .opSoftReset | .opBusyWait | .opSendCommand _ | .opSendData _ => false
  | .reserved10 | .reserved11 | .reserved12 | .reserved13 | .reserved14 | .reserved15 => false
  | .cmdSoftReset | .cmdDataEntryMode | .cmdSetXWindow | .cmdSetYWindow | .cmdUpdateControl | .cmdSetXCounter
  | .cmdSetYCounter | .cmdSelectPrimary | .cmdSelectAccent | .cmdRefresh | .cmdSleep => false
  | .data _ => false

/-- The sequencer position with the name of `clearDisplay` read as `show`. -/
def Pc.asShow : Pc → Pc
  | .running .clearOp k sub => .running .showOp k sub
  | p => p

/-- The same for the position of a diagnosis. -/
def Position.asShow : Position → Position
  | .running .clearOp k sub => .running .showOp k sub
  | p => p

/-- The diagnosis of an error with the name of `clearDisplay` read as `show`. -/
def ErrorInfo.asShow : ErrorInfo → ErrorInfo
  | .event e pc => .event e pc.asShow
  | .position pc => .position pc.asShow
  | x => x

/-- The state with the name of `clearDisplay` read as `show` wherever a position is written. -/
def State.asShow (s : State) : State :=
  { s with pc := s.pc.asShow, responses := s.responses.map fun r => ⟨r.status, r.info.asShow⟩ }

/-- Two outcomes are the same but for the name of `clearDisplay` in positions. -/
def sameAsShow (x y : Host.Outcome State Fault Refusal) : Prop :=
  match x, y with
  | .next s, .next t => s.asShow = t.asShow
  | .fault r, .fault q => r = q
  | .refused r, .refused q => r = q
  | .next _, .fault _ => False
  | .next _, .refused _ => False
  | .fault _, .next _ => False
  | .fault _, .refused _ => False
  | .refused _, .next _ => False
  | .refused _, .fault _ => False

/-- The line of a pin has the level of its latch. -/
def State.driven (p : Pin) (s : State) : Bool := s.lines.get p == s.pins.get p

/-- The panel is off and the session over (42_sleep_power.md R103): pins LOW, bus released. -/
def sessionOver (s : State) : Bool := s.pins == ⟨.low, .low, .low⟩ && s.lines == s.pins && !s.busOwned

/-- The registers at `IDLE_PC` while no sticky error has happened (10_state.md R11, R26, 60_exceptions.md R167). -/
def calmIdle (s : State) : Bool :=
  match s.state with
  | .unpowered => s.pins == ⟨.low, .low, .low⟩ && s.busOwned
  | .idle => s.pins.pwr == .high && s.pins.rst == .high && s.lines == s.pins && s.busOwned
  | .sleeping => s.pins == ⟨.high, .high, .high⟩ && s.lines == s.pins && s.busOwned
  | .poweredOff => sessionOver s
  | .powered => false
  | .reset => false
  | .configured => false
  | .busy => false

/-- The registers at `IDLE_PC`.  After a sticky error only two things are said: `state` is not CONFIGURED (90_conflicts.md
C6), and POWERED_OFF still means that the session is over. -/
def idleOk (s : State) : Bool :=
  match s.fault with
  | .none => calmIdle s
  | .transportFailure => s.state != .configured && (s.state != .poweredOff || sessionOver s)
  | .interrupted => s.state != .configured && (s.state != .poweredOff || sessionOver s)
  | .busyTimeout => s.state != .configured && (s.state != .poweredOff || sessionOver s)

/-- The value of `state` at position `k` of `initialize` (40_init_reset_sync.md R73). -/
def initState (k : Nat) : SeqState :=
  if k ≤ 1 then .unpowered else if k ≤ 9 then .powered else if k ≤ 28 then .reset else .configured

/-- A poll loop that has been entered has counted fewer HIGH reads than the timeout (40_init_reset_sync.md R81). -/
def pollsBelow (t : Option Nat) (polls : Nat) : Bool :=
  match t with
  | none => true
  | some n => decide (polls < n)

/-- `poll_cnt <= N` when `BUSY_TIMEOUT_POLLS = some N` (10_state.md R18). -/
def pollsBounded (t : Option Nat) (polls : Nat) : Bool :=
  match t with
  | none => true
  | some n => decide (polls ≤ n)

/-- The loop registers of `show` at position `k` (10_state.md R18, 41_frame.md R92). -/
def loopOk (k : Nat) (s : State) : Bool :=
  (!(k == 2 || k == 3) || s.planeIdx == 0) && (decide (k < 4) || s.planeIdx == 1)
    && (!(k == 3 || k == 5) || decide (s.byteIdx < planeBytes s.params.geometry))

/-- The registers at position `k` of a running operation.  A line has the level of its latch once the operation, or the session
before it, has driven it: a block reset in mid-session may have left it otherwise (70_reset_and_hazards.md R172). -/
def opOk (op : HostOp) (k : Nat) (s : State) : Bool :=
  match op with
  | .initOp =>
    s.busOwned && s.state == initState k && s.pins.pwr == (if k = 0 then .low else .high)
      && s.pins.rst == (if k < 5 then .low else .high)
      && (k == 0 || s.driven .pwr) && (decide (k < 3) || s.driven .rst) && (decide (k < 8) || s.driven .dc)
  | .showOp =>
    s.busOwned && s.pins.pwr == .high && s.pins.rst == .high
      && s.state == (if k ≤ 1 then .idle else .busy)
      && (k == 0 || (checkBuffer s.params.geometry s.operand).isNone) && loopOk k s && s.lines == s.pins
  | .clearOp =>
    s.busOwned && s.pins.pwr == .high && s.pins.rst == .high
      && s.state == (if k ≤ 1 then .idle else .busy)
      && (k == 0 || (checkBuffer s.params.geometry s.operand).isNone) && loopOk k s && s.lines == s.pins
  | .sleepOp =>
    s.busOwned && s.pins.pwr == .high && s.pins.rst == .high && s.state == .idle
      && (k != 2 || s.pins.dc == .high) && s.lines == s.pins
  | .powerOffOp =>
    s.state != .poweredOff && s.state != .configured && (k == 0 || (s.pins.pwr == .low && s.driven .pwr))
      && (decide (k ≤ 1) || (s.pins.dc == .low && s.driven .dc))
      && (decide (k ≤ 2) || (s.pins.rst == .low && s.driven .rst)) && (decide (k ≤ 3) || !s.busOwned)

/-- The position exists, no sticky error has happened except before a `powerOff`, and `sub` is not 0 only in a poll loop
that has not timed out. -/
def positionOk (op : HostOp) (k sub : Nat) (s : State) : Bool :=
  decide (k < (program s.params op).length) && (s.fault == .none || op == .powerOffOp)
    && (sub == 0 || (sub == 1 && (program s.params op)[k]? == some .bw
                      && pollsBelow s.params.busyTimeoutPolls s.pollCnt))

/-- The registers, wherever the sequencer stands. -/
def registersOk (s : State) : Bool :=
  match s.pc with
  | .idle => idleOk s
  | .running op k sub => positionOk op k sub s && opOk op k s

/-- The run begins inside the logs (70_reset_and_hazards.md R187). -/
def runMarksOk (s : State) : Bool :=
  decide (s.run.responses ≤ s.responses.length) && decide (s.run.events ≤ s.trace.length)

/-- THE INVARIANT of the block: valid parameters, memory in canonical form, loop counters in their ranges, the run's marks
inside the logs, and registers that agree with the sequencer position. -/
def BlockInv (s : State) : Bool :=
  paramsValid s.params && Memory.wf s.operand && decide (s.byteIdx ≤ planeBytes s.params.geometry)
    && pollsBounded s.params.busyTimeoutPolls s.pollCnt && runMarksOk s && registersOk s

end Sys2Proof.Machine
end

