-- ==== Sys2Proof/Certificates/Slice0/Obligations.lean ====
section
/-! DEFINITION. The statements for the provers.  OBLIGATIONS.json lists them with the rules they rest on. -/

open Sys2Proof Sys2Proof.Machine

/-! ### Encoding -/

/-- Words written out from 30_encoding.md R51 and R54 and read by the decoder: operation codes, a reserved code, the data
frame `1 0010 0111`, and the frame `0 1111 1111`, which is no command.  The three command words use the model's default
opcode values (assumption 2), the `show` code without a buffer reads as an empty buffer (assumption 12), and a word of 8 bits
is read as a code and one of 16 bits as a frame (assumption 18): these are the model's choices, no rules of the spec. -/
def Obligations.TableWordsDecode : Prop :=
  decodeTableWord 8 0b0000 = some .opInitialize ∧ decodeTableWord 8 0b0011 = some .opBusyWait
    ∧ decodeTableWord 8 0b0100 = some (.opShow []) ∧ decodeTableWord 8 0b0111 = some .opPowerOff
    ∧ decodeTableWord 8 0b1111 = some .reserved15 ∧ decodeTableWord 16 0b100100111 = some (.data 0x27#8)
    ∧ decodeTableWord 16 0b000010010 = some .cmdSoftReset ∧ decodeTableWord 16 0b000100000 = some .cmdRefresh
    ∧ decodeTableWord 16 0b001000101 = some .cmdSetYWindow ∧ decodeTableWord 16 0b011111111 = none

/-- Decoding the encoding of any instruction gives it back, with every operand, under every command table whose codes are
pairwise distinct (30_encoding.md R51, R54, R56, R57). -/
def Obligations.DecodeOfEncode : Prop :=
  ∀ (t : CommandTable) (i : Instr), t.distinct = true → decode t (encode t i) = .ok i

/-- Every frame has at most one meaning: what it decodes to encodes to it; and the frames that are no instruction are
exactly the command frames whose byte is none of the eleven opcodes (30_encoding.md R54, R59). -/
def Obligations.FramesDecodeUniquely : Prop :=
  ∀ (t : CommandTable) (f : Frame),
    (∀ i, decodeFrame t f = .ok i → encode t i = .frame f)
      ∧ ((∃ e, decodeFrame t f = .error e) ↔ Frame.dc f = .low ∧ Frame.byte f ∉ t.codes)

/-- For a valid geometry the masks of 30_encoding.md R61 drop nothing: XE is `(WIDTH - 1) >> 3`, and YL with YH is
`HEIGHT - 1`, YH being 0 or 1; a plane has `WIDTH / 8 * HEIGHT` bytes, between 1 and 16384 (R62, 10_state.md R18). -/
def Obligations.WindowBytesExact : Prop :=
  ∀ g : Geometry, geometryValid g = true →
    (xEnd g).toNat = (g.width - 1) / 8 ∧ (xEnd g).toNat ≤ 31
      ∧ (yEndLow g).toNat + 256 * (yEndHigh g).toNat = g.height - 1 ∧ (yEndHigh g).toNat ≤ 1
      ∧ 8 * planeBytes g = g.width * g.height ∧ 1 ≤ planeBytes g ∧ planeBytes g ≤ 16384

/-- The layout of a bitmap (20_memory.md R32): for a valid geometry the pixel at column `x`, row `y` is bit `7 - (x % 8)` of the
byte at index `y * (WIDTH / 8) + (x >> 3)`, which lies in the plane; and every bit of every byte of a plane is exactly one
pixel. -/
def Obligations.PixelLayout : Prop :=
  ∀ g : Geometry, geometryValid g = true →
    (∀ (p : PlaneId) (b : Buffer) (l : List Byte) (x y : Nat), bufFind p b = some l → l.length = planeBytes g →
        x < g.width → y < g.height →
          ∃ v, l[y * (g.width / 8) + (x >>> 3)]? = some v ∧ pixelAt g p x y b = some (v.getLsbD (7 - x % 8)))
      ∧ ∀ i n, i < planeBytes g → n < 8 →
          ∃! q : Nat × Nat, q.1 < g.width ∧ q.2 < g.height ∧ pixelByteIndex g q.1 q.2 = i ∧ pixelBitIndex q.1 = n

/-- The encodings of `state` (10_state.md R10) and of the status and `fault` (60_exceptions.md R140, 10_state.md R13), and the
status outputs after block reset. -/
def Obligations.StatusEncodings : Prop :=
  [SeqState.unpowered, .powered, .reset, .configured, .idle, .busy, .sleeping, .poweredOff].map SeqState.code
      = [0#3, 1#3, 2#3, 3#3, 4#3, 5#3, 6#3, 7#3]
    ∧ [Status.ok, .illegalOperation, .illegalState, .missingPlane, .badPlaneLength, .transportFailure, .interrupted,
        .busyTimeout].map Status.code = [0#3, 1#3, 2#3, 3#3, 4#3, 5#3, 6#3, 7#3]
    ∧ [FaultReg.none, .transportFailure, .interrupted, .busyTimeout].map FaultReg.code = [0#3, 5#3, 6#3, 7#3]
    ∧ [Status.ok, .illegalOperation, .illegalState, .missingPlane, .badPlaneLength].map Status.sticky
        = [.none, .none, .none, .none, .none]
    ∧ [Status.transportFailure, .interrupted, .busyTimeout].map Status.sticky
        = [.transportFailure, .interrupted, .busyTimeout]
    ∧ State.reset.statusOutputs = (0#3, 0#3)

/-! ### Reset and stepping -/

/-- Block reset (70_reset_and_hazards.md R170, 10_state.md R26): the reset state has the values of R26, and a block reset at
any position of any state answers a next state with those values, ready at `IDLE_PC`, with no I/O event, and waits there:
with no request a further step changes nothing.  It drives no pin: at the start of a run, before any event of it, and from
POWERED_OFF the real levels of the lines stay as they are; for a block reset in mid-session see `BlockResetBeginsRun`.  The
working registers, which R26 leaves unspecified, are not mentioned. -/
def Obligations.BlockResetRegisters : Prop :=
  (State.reset.state = .unpowered ∧ State.reset.fault = .none ∧ State.reset.pins = ⟨.low, .low, .low⟩
      ∧ State.reset.busOwned = true ∧ State.reset.pc = .idle ∧ State.reset.trace = [] ∧ State.reset.responses = [])
    ∧ ∀ (s : State) (rest : List HostAction), s.host = .blockReset :: rest →
        ∃ t, step s = .next t ∧ t.state = .unpowered ∧ t.fault = .none ∧ t.pins = ⟨.low, .low, .low⟩
          ∧ t.busOwned = true ∧ t.pc = .idle ∧ t.trace = s.trace ∧ t.responses = s.responses ∧ t.host = rest
          ∧ t.params = s.params ∧ (rest = [] → step t = .next t)
          ∧ (s.state = .poweredOff ∨ s.trace.length = s.run.events → t.lines = s.lines)

/-- At `IDLE_PC` with no request the block waits and nothing changes (70_reset_and_hazards.md R170). -/
def Obligations.IdleBlockWaits : Prop :=
  ∀ s : State, s.pc = .idle → s.host = [] → step s = .next s

/-- A STEP RUNS THE DECODED INSTRUCTION, at `IDLE_PC`: the host's oldest request is taken and its instruction executed
(40_init_reset_sync.md R72). -/
def Obligations.StepRunsRequest : Prop :=
  ∀ (s : State) (c : OpCode) (o : Operand) (rest : List HostAction) (i : Instr),
    s.pc = .idle → s.host = .request c o :: rest → decode s.params.opcodes (.request c o) = .ok i →
      step s = exec i { s with host := rest }

/-- A STEP RUNS THE DECODED INSTRUCTION, inside an operation: the frame of an `SC` or `SD`, the next bitmap byte as a data
frame in the byte loop, `busyWait` for a `BW`, `hardReset` where it is called, the operation itself otherwise.  Which row
a step executes is the model's choice (assumption 7). -/
def Obligations.StepRunsPosition : Prop :=
  ∀ (s : State) (op : HostOp) (k sub : Nat) (m : MicroOp),
    s.pc = .running op k sub → s.noReset = true → (program s.params op)[k]? = some m →
      match m with
      | .sc o => ∀ i, decode s.params.opcodes (.frame (mkFrame .low o)) = .ok i → step s = exec i s
      | .sd b => step s = exec (.data b) s
      | .stream => ∀ b, s.byteIdx < planeBytes s.params.geometry →
          memRead (planeAt s.planeIdx) s.byteIdx s.operand = some b → step s = exec (.data b) s
      | .bw => step s = exec .opBusyWait s
      | .pw _ _ => step s = exec (if op = .initOp ∧ k = 2 then .opHardReset else op.instr s.operand) s
      | .dl => step s = exec (op.instr s.operand) s
      | .br => step s = exec (op.instr s.operand) s
      | .st _ => step s = exec (op.instr s.operand) s
      | .chk => step s = exec (op.instr s.operand) s

/-! ### Requests that are rejected -/

/-- IllegalOperation (60_exceptions.md R141): a request whose code is not one of 0, 4, 5, 6, 7 completes with that response,
no event, no register written, the block still ready.  It covers the six reserved codes and the five procedures. -/
def Obligations.ProcedureAndReservedCodes : Prop :=
  ∀ (s : State) (c : OpCode) (o : Operand), s.pc = .idle →
    c.toNat ≠ 0 → c.toNat ≠ 4 → c.toNat ≠ 5 → c.toNat ≠ 6 → c.toNat ≠ 7 →
      exec (decodeRequest c o) s
        = .next { s with responses := s.responses ++ [⟨.illegalOperation, .code c⟩] }

/-- The reserved codes, constructor by constructor: each completes with IllegalOperation, the effect the spec gives it
(30_encoding.md R59, 60_exceptions.md R141). -/
def Obligations.ReservedCodesAnswer : Prop :=
  ∀ s : State, s.pc = .idle →
    exec .reserved10 s = .next { s with responses := s.responses ++ [⟨.illegalOperation, .code 10#4⟩] }
      ∧ exec .reserved11 s = .next { s with responses := s.responses ++ [⟨.illegalOperation, .code 11#4⟩] }
      ∧ exec .reserved12 s = .next { s with responses := s.responses ++ [⟨.illegalOperation, .code 12#4⟩] }
      ∧ exec .reserved13 s = .next { s with responses := s.responses ++ [⟨.illegalOperation, .code 13#4⟩] }
      ∧ exec .reserved14 s = .next { s with responses := s.responses ++ [⟨.illegalOperation, .code 14#4⟩] }
      ∧ exec .reserved15 s = .next { s with responses := s.responses ++ [⟨.illegalOperation, .code 15#4⟩] }

/-- IllegalState (60_exceptions.md R142): `initialize` when `state != UNPOWERED`; `show`, `clearDisplay` and `sleep` when
`state` is neither IDLE nor CONFIGURED; any of the four when `fault != NONE`.  No event, no register, still ready. -/
def Obligations.RejectedRequests : Prop :=
  ∀ (s : State) (b : Buffer), s.pc = .idle → paramsValid s.params = true →
    ((s.state ≠ .unpowered ∨ s.fault ≠ .none) →
      exec .opInitialize s
        = .next { s with responses := s.responses ++ [⟨.illegalState, .registers s.state s.fault⟩] })
      ∧ ((s.state ≠ .idle ∧ s.state ≠ .configured ∨ s.fault ≠ .none) →
          exec (.opShow b) s
              = .next { s with responses := s.responses ++ [⟨.illegalState, .registers s.state s.fault⟩] }
            ∧ exec .opClearDisplay s
              = .next { s with responses := s.responses ++ [⟨.illegalState, .registers s.state s.fault⟩] }
            ∧ exec .opSleep s
              = .next { s with responses := s.responses ++ [⟨.illegalState, .registers s.state s.fault⟩] })

/-- Which geometries are valid, and "with an invalid geometry the operations are refused" (00_scope.md R6), the bounds
written out. -/
def Obligations.InvalidGeometryRefused : Prop :=
  (∀ g : Geometry, g.planes = planeOrder →
    (geometryValid g = true ↔ g.width % 8 = 0 ∧ 8 ≤ g.width ∧ g.width ≤ 256 ∧ 1 ≤ g.height ∧ g.height ≤ 512))
  ∧ ∀ (s : State) (b : Buffer), s.pc = .idle →
    ¬ (s.params.geometry.width % 8 = 0 ∧ 8 ≤ s.params.geometry.width ∧ s.params.geometry.width ≤ 256
        ∧ 1 ≤ s.params.geometry.height ∧ s.params.geometry.height ≤ 512) →
      exec .opInitialize s = .refused .invalidParameters ∧ exec (.opShow b) s = .refused .invalidParameters
        ∧ exec .opClearDisplay s = .refused .invalidParameters ∧ exec .opSleep s = .refused .invalidParameters
        ∧ exec .opPowerOff s = .refused .invalidParameters

/-- The checks of `show` (60_exceptions.md R143, R144, R152): planes in order, presence before length; the first failing
test is the response; no event, no register written, the block ready.  The operand the block then holds (`m`) is the
model's own field and is left open here. -/
def Obligations.BadBuffersRejected : Prop :=
  ∀ (s : State) (b : Buffer), s.pc = .idle → paramsValid s.params = true →
    (s.state = .idle ∨ s.state = .configured) → s.fault = .none →
      (bufFind .primary b = none →
        ∃ m, exec (.opShow b) s
          = .next { s with operand := m, responses := s.responses ++ [⟨.missingPlane, .plane .primary⟩] })
        ∧ (∀ l, bufFind .primary b = some l → l.length ≠ planeBytes s.params.geometry →
            ∃ m, exec (.opShow b) s
              = .next { s with operand := m, responses := s.responses ++ [⟨.badPlaneLength, .plane .primary⟩] })
        ∧ (∀ l, bufFind .primary b = some l → l.length = planeBytes s.params.geometry → bufFind .accent b = none →
            ∃ m, exec (.opShow b) s
              = .next { s with operand := m, responses := s.responses ++ [⟨.missingPlane, .plane .accent⟩] })
        ∧ (∀ l k, bufFind .primary b = some l → l.length = planeBytes s.params.geometry →
            bufFind .accent b = some k → k.length ≠ planeBytes s.params.geometry →
            ∃ m, exec (.opShow b) s
              = .next { s with operand := m, responses := s.responses ++ [⟨.badPlaneLength, .plane .accent⟩] })

/-! ### Host operations that complete -/

/-- `initialize` completes (40_init_reset_sync.md R73): accepted in UNPOWERED with no fault, no event failing and every busy
read LOW, it ends in IDLE with the three pins HIGH, answers OK, and has performed the events of R73 in order; nothing else
of the state changes.  That `poll_cnt` keeps its last value after the operation is the model's choice (assumption 27), no
clause of a rule. -/
def Obligations.InitializeCompletes : Prop :=
  ∀ s : State, s.pc = .idle → paramsValid s.params = true → s.state = .unpowered → s.fault = .none → s.smooth 44 →
    exec .opInitialize s = .next { s.afterAnswers 44 with
      state := .idle
      pins := ⟨.high, .high, .high⟩
      lines := ⟨.high, .high, .high⟩
      pollCnt := 0
      responses := s.responses ++ [⟨.ok, .none⟩]
      trace := s.trace ++ initializeEvents s.params 0 0 0 }

/-- A requested `initialize` whose three busy-waits read HIGH `a`, `b` and `c` times, below the timeout (40_init_reset_sync.md
R73, R80, R81): the run ends in IDLE with the three pins HIGH and the response OK, has performed the events of R73 in order,
and changes nothing else.  That it takes at most `a + b + c + 5` steps is the model's step size (assumption 7), that an
operand beside the code does not matter its reading of such a request (assumption 12), and that `poll_cnt` keeps its last
value its choice (assumption 27). -/
def Obligations.InitializeEndsWhenBusyFalls : Prop :=
  ∀ (a b c : Nat) (s : State) (o : Operand) (rest : List HostAction),
    s.pc = .idle → s.host = .request 0#4 o :: rest → rest.head? ≠ some .blockReset → paramsValid s.params = true →
    s.state = .unpowered → s.fault = .none → s.initializes a b c →
      ∃ n, n ≤ a + b + c + 5 ∧ Host.Core.run core n s = .next { s.afterAnswers (44 + a + b + c) with
        state := .idle
        pins := ⟨.high, .high, .high⟩
        lines := ⟨.high, .high, .high⟩
        pollCnt := c
        host := rest
        responses := s.responses ++ [⟨.ok, .none⟩]
        trace := s.trace ++ initializeEvents s.params a b c }

/-- The first pin writes of `initialize` fail (60_exceptions.md R145, R150, R151; vectors I8 and H5): the write of PWR, then
the two writes of RST.  The latch of that pin has the old or the new level, as the environment's answer says (`took`);
nothing later of the list happens; `state` is UNPOWERED, then POWERED (10_state.md R12); the response is
TransportFailure. -/
def Obligations.InitializePinWriteFails : Prop :=
  ∀ s : State, s.pc = .idle → paramsValid s.params = true → s.state = .unpowered → s.fault = .none →
    ((s.answerAt 0).completes = false →
      exec .opInitialize s = .next { s.afterAnswers 1 with
        pins := { s.pins with pwr := if (s.answerAt 0).took then .high else s.pins.pwr }
        lines := { s.lines with pwr := if (s.answerAt 0).took then .high else s.lines.pwr }
        fault := .transportFailure
        responses := s.responses ++ [⟨.transportFailure, .event (.pinWrite .pwr .high false) (.running .initOp 0 (.event 0))⟩]
        trace := s.trace ++ [.pinWrite .pwr .high false] })
      ∧ (s.noFail 1 → (s.answerAt 1).completes = false →
          exec .opInitialize s = .next { s.afterAnswers 2 with
            state := .powered
            pins := { s.pins with pwr := .high, rst := if (s.answerAt 1).took then .low else s.pins.rst }
            lines := { s.lines with pwr := .high, rst := if (s.answerAt 1).took then .low else s.lines.rst }
            fault := .transportFailure
            responses := s.responses ++ [⟨.transportFailure, .event (.pinWrite .rst .low false) (.running .initOp 2 (.event 0))⟩]
            trace := s.trace ++ [.pinWrite .pwr .high true, .pinWrite .rst .low false] })
      ∧ (s.noFail 3 → (s.answerAt 3).completes = false →
          exec .opInitialize s = .next { s.afterAnswers 4 with
            state := .powered
            pins := { s.pins with pwr := .high, rst := if (s.answerAt 3).took then .high else .low }
            lines := { s.lines with pwr := .high, rst := if (s.answerAt 3).took then .high else .low }
            fault := .transportFailure
            responses := s.responses ++ [⟨.transportFailure, .event (.pinWrite .rst .high false) (.running .initOp 4 (.event 0))⟩]
            trace := s.trace ++ [.pinWrite .pwr .high true, .pinWrite .rst .low true, .delay s.params.tHoldNs true,
                                 .pinWrite .rst .high false] })

/-- The wire view of a complete `initialize` (40_init_reset_sync.md R74), whatever number of HIGH reads its three busy-waits
see: its frames are these 18, 7 command frames and 11 data frames, whatever the geometry; only XE, YL and YH depend on it.
The run begins with the request and ends with the response OK. -/
def Obligations.InitializeFrames : Prop :=
  ∀ (a b c : Nat) (s : State) (rest : List HostAction),
    s.pc = .idle → s.host = .request 0#4 .absent :: rest → rest.head? ≠ some .blockReset → paramsValid s.params = true →
    s.state = .unpowered → s.fault = .none → s.initializes a b c →
    ∃ (n : Nat) (t : State) (E : List Event), Host.Core.run core n s = .next t ∧ t.pc = .idle
      ∧ t.responses = s.responses ++ [⟨.ok, .none⟩] ∧ t.trace = s.trace ++ E
      ∧ framesOf (wireView s.lines [] E)
        = [mkFrame .low s.params.opcodes.softReset,
           mkFrame .low s.params.opcodes.dataEntryMode, mkFrame .high 0x03#8,
           mkFrame .low s.params.opcodes.setXWindow, mkFrame .high 0x00#8, mkFrame .high (xEnd s.params.geometry),
           mkFrame .low s.params.opcodes.setYWindow, mkFrame .high 0x00#8, mkFrame .high (yEndLow s.params.geometry),
           mkFrame .high (yEndHigh s.params.geometry),
           mkFrame .low s.params.opcodes.updateControl, mkFrame .high 0x00#8, mkFrame .high 0x80#8,
           mkFrame .low s.params.opcodes.setXCounter, mkFrame .high 0x00#8,
           mkFrame .low s.params.opcodes.setYCounter, mkFrame .high 0x00#8, mkFrame .high 0x00#8]
      ∧ ((framesOf (wireView s.lines [] E)).filter fun f => Frame.dc f == .low).length = 7
      ∧ ((framesOf (wireView s.lines [] E)).filter fun f => Frame.dc f == .high).length = 11

/-- What the chip's registers were last sent in a complete `initialize` that begins a trace (10_state.md R22,
30_encoding.md R55), whatever number of HIGH reads its busy-waits see: the frames form seven commands with the argument
bytes of 30_encoding.md R60 and R61, and nothing was sent to the display RAM, the update trigger or the sleep mode.  An
operand beside the code of the request does not matter (assumption 12). -/
def Obligations.InitializeCommands : Prop :=
  ∀ (a b c : Nat) (s : State) (o : Operand) (rest : List HostAction),
    s.pc = .idle → s.host = .request 0#4 o :: rest → rest.head? ≠ some .blockReset → paramsValid s.params = true →
    s.state = .unpowered → s.fault = .none → s.trace = [] → s.initializes a b c →
      ∃ (n : Nat) (t : State), Host.Core.run core n s = .next t ∧ t.pc = .idle
        ∧ t.responses = s.responses ++ [⟨.ok, .none⟩]
        ∧ commandsOf (framesOf (wireView s.lines [] t.trace))
          = [(s.params.opcodes.softReset, []), (s.params.opcodes.dataEntryMode, [0x03#8]),
             (s.params.opcodes.setXWindow, [0x00#8, xEnd s.params.geometry]),
             (s.params.opcodes.setYWindow, [0x00#8, yEndLow s.params.geometry, yEndHigh s.params.geometry]),
             (s.params.opcodes.updateControl, [0x00#8, 0x80#8]), (s.params.opcodes.setXCounter, [0x00#8]),
             (s.params.opcodes.setYCounter, [0x00#8, 0x00#8])]
        ∧ lastSent s.params.opcodes .setYWindow t.trace
          = some [0x00#8, yEndLow s.params.geometry, yEndHigh s.params.geometry]
        ∧ lastSent s.params.opcodes .dataEntryMode t.trace = some [0x03#8]
        ∧ lastSent s.params.opcodes .selectPrimary t.trace = none
        ∧ lastSent s.params.opcodes .selectAccent t.trace = none
        ∧ lastSent s.params.opcodes .refresh t.trace = none
        ∧ lastSent s.params.opcodes .deepSleep t.trace = none

/-- `show` completes (41_frame.md R90, R92): accepted in IDLE or CONFIGURED with no fault and a buffer that has both planes
at the right length, no event failing and the closing read LOW, it ends in IDLE, answers OK, and has performed the events
of R92 in order.  An entry for any other plane does not matter.  That the two planes stay in the field `operand` after the
operation and the working registers at their last values is the model's choice (assumptions 9 and 27), no clause of a
rule. -/
def Obligations.ShowCompletes : Prop :=
  ∀ (s : State) (b : Buffer) (primary accent : List Byte),
    s.pc = .idle → paramsValid s.params = true → (s.state = .idle ∨ s.state = .configured) → s.fault = .none →
    bufFind .primary b = some primary → primary.length = planeBytes s.params.geometry →
    bufFind .accent b = some accent → accent.length = planeBytes s.params.geometry →
    s.smooth (4 * planeBytes s.params.geometry + 7) →
      exec (.opShow b) s = .next { s.afterAnswers (4 * planeBytes s.params.geometry + 7) with
        state := .idle
        pins := { s.pins with dc := .low }
        lines := { s.lines with dc := .low }
        planeIdx := 1
        byteIdx := planeBytes s.params.geometry
        pollCnt := 0
        operand := [(.primary, primary), (.accent, accent)]
        responses := s.responses ++ [⟨.ok, .none⟩]
        trace := s.trace ++ showEvents s.params primary accent 0 }

/-- The wire view of a complete `show` (41_frame.md R93), whatever number `n` of HIGH reads its busy-wait sees: plane-select
and bytes of the primary plane, plane-select and bytes of the accent plane, refresh; `2 * PLANE_BYTES + 3` frames, 3 of them
command frames; in events, twice as many pin writes and bus sends, and `n + 1` busy reads.  The run begins with the request
and ends with the response OK. -/
def Obligations.ShowFrames : Prop :=
  ∀ (n : Nat) (s : State) (b : Buffer) (rest : List HostAction) (primary accent : List Byte),
    s.pc = .idle → s.host = .request 4#4 (.buffer b) :: rest → rest.head? ≠ some .blockReset →
    paramsValid s.params = true → (s.state = .idle ∨ s.state = .configured) → s.fault = .none →
    bufFind .primary b = some primary → primary.length = planeBytes s.params.geometry →
    bufFind .accent b = some accent → accent.length = planeBytes s.params.geometry → s.shows n →
      ∃ (k : Nat) (t : State) (E : List Event), Host.Core.run core k s = .next t ∧ t.pc = .idle
        ∧ t.responses = s.responses ++ [⟨.ok, .none⟩] ∧ t.trace = s.trace ++ E
        ∧ framesOf (wireView s.lines [] E)
          = commandFrames s.params.opcodes.selectPrimary primary ++ commandFrames s.params.opcodes.selectAccent accent
            ++ commandFrames s.params.opcodes.refresh []
        ∧ (framesOf (wireView s.lines [] E)).length = 2 * planeBytes s.params.geometry + 3
        ∧ ((framesOf (wireView s.lines [] E)).filter fun f => Frame.dc f == .low).length = 3
        ∧ E.length = 2 * (2 * planeBytes s.params.geometry + 3) + (n + 1)

/-- `clearDisplay` completes (41_frame.md R94, R95): as `show`, with PLANE_BYTES bytes `0xFF` and PLANE_BYTES bytes `0x00`.
That the two planes stay in the field `operand` after the operation and the working registers at their last values is the
model's choice (assumptions 9 and 27), no clause of a rule. -/
def Obligations.ClearDisplayCompletes : Prop :=
  ∀ s : State, s.pc = .idle → paramsValid s.params = true → (s.state = .idle ∨ s.state = .configured) →
    s.fault = .none → s.smooth (4 * planeBytes s.params.geometry + 7) →
      exec .opClearDisplay s = .next { s.afterAnswers (4 * planeBytes s.params.geometry + 7) with
        state := .idle
        pins := { s.pins with dc := .low }
        lines := { s.lines with dc := .low }
        planeIdx := 1
        byteIdx := planeBytes s.params.geometry
        pollCnt := 0
        operand := [(.primary, List.replicate (planeBytes s.params.geometry) 0xFF#8),
                    (.accent, List.replicate (planeBytes s.params.geometry) 0x00#8)]
        responses := s.responses ++ [⟨.ok, .none⟩]
        trace := s.trace ++ showEvents s.params (List.replicate (planeBytes s.params.geometry) 0xFF#8)
          (List.replicate (planeBytes s.params.geometry) 0x00#8) 0 }

/-- `clearDisplay()` behaves exactly as `show(BLANK)` (41_frame.md R94), whatever the environment answers, but for the
operation's name in a position.  The request: same events, same registers, same response, and never MissingPlane or
BadPlaneLength.  The whole run from the request, with every later poll, timeout, resumed row and operation after it: the
same after any number of steps. -/
def Obligations.ClearDisplayIsShowBlank : Prop :=
  (∀ s : State, s.pc = .idle → paramsValid s.params = true →
    ∃ t u, exec .opClearDisplay s = .next t ∧ exec (.opShow (blank s.params.geometry)) s = .next u
      ∧ t.asShow = u.asShow
      ∧ ∀ r ∈ t.responses, r ∈ s.responses ∨ (r.status ≠ .missingPlane ∧ r.status ≠ .badPlaneLength))
  ∧ ∀ (n : Nat) (s : State) (rest : List HostAction), s.pc = .idle →
      sameAsShow (Host.Core.run core (n + 1) { s with host := .request 5#4 .absent :: rest })
        (Host.Core.run core (n + 1) { s with host := .request 4#4 (.buffer (blank s.params.geometry)) :: rest })

/-- A step does not see whether the running operation is called `show` or `clearDisplay` (41_frame.md R94): two states that are
the same but for that name step to states, or to the same stop, that are the same but for that name.  It covers every poll
of the closing busy-wait, its timeout, every byte of the loop and the rows resumed after it. -/
def Obligations.StepRespectsShowName : Prop :=
  ∀ s t : State, s.asShow = t.asShow → sameAsShow (step s) (step t)

/-- `sleep` completes (42_sleep_power.md R100): the frames of SLEEP with argument `0x01`, no busy read, `state` SLEEPING, `DC`
left HIGH, power and reset pins as they were. -/
def Obligations.SleepCompletes : Prop :=
  ∀ s : State, s.pc = .idle → paramsValid s.params = true → (s.state = .idle ∨ s.state = .configured) →
    s.fault = .none → s.smooth 4 →
      exec .opSleep s = .next { s.afterAnswers 4 with
        state := .sleeping
        pins := { s.pins with dc := .high }
        lines := { s.lines with dc := .high }
        responses := s.responses ++ [⟨.ok, .none⟩]
        trace := s.trace ++ commandEvents s.params.opcodes.deepSleep [0x01#8] }

/-- `powerOff` completes (42_sleep_power.md R103): in any state but POWERED_OFF, whatever `fault` holds, the three pins go LOW
in the order PWR, DC, RST, the bus is released, `state` is POWERED_OFF, `fault` is not cleared, no frame is sent. -/
def Obligations.PowerOffCompletes : Prop :=
  ∀ s : State, s.pc = .idle → paramsValid s.params = true → s.state ≠ .poweredOff → s.smooth 4 →
    exec .opPowerOff s = .next { s.afterAnswers 4 with
      state := .poweredOff
      pins := ⟨.low, .low, .low⟩
      lines := ⟨.low, .low, .low⟩
      busOwned := false
      responses := s.responses ++ [⟨.ok, .none⟩]
      trace := s.trace ++ [.pinWrite .pwr .low true, .pinWrite .dc .low true, .pinWrite .rst .low true,
                           .busRelease true] }

/-- `powerOff` in POWERED_OFF performs no event, writes no register and answers OK; so a second `powerOff` leaves the pins
as the first did, and the two together give the trace `P- D- R- X` and nothing more (42_sleep_power.md R104). -/
def Obligations.PowerOffIdempotent : Prop :=
  (∀ s : State, s.pc = .idle → paramsValid s.params = true → s.state = .poweredOff →
    exec .opPowerOff s = .next { s with responses := s.responses ++ [⟨.ok, .none⟩] })
  ∧ ∀ s : State, s.pc = .idle → paramsValid s.params = true → s.state ≠ .poweredOff → s.smooth 4 →
      ∃ t u, exec .opPowerOff s = .next t ∧ exec .opPowerOff t = .next u ∧ u.pins = t.pins ∧ u.state = .poweredOff
        ∧ u.busOwned = false ∧ u.responses = s.responses ++ [⟨.ok, .none⟩, ⟨.ok, .none⟩]
        ∧ u.trace = s.trace ++ [.pinWrite .pwr .low true, .pinWrite .dc .low true, .pinWrite .rst .low true,
                                .busRelease true]

/-- A `powerOff` whose bus release fails (42_sleep_power.md R105 (c), 60_exceptions.md R150, R151): the pins are LOW, `state`
keeps its value, `bus_owned` keeps its value or is 0, `fault` is set if it was NONE, the response is TransportFailure. -/
def Obligations.PowerOffReleaseFails : Prop :=
  ∀ s : State, s.pc = .idle → paramsValid s.params = true → s.state ≠ .poweredOff → s.smooth 3 →
    (s.answerAt 3).completes = false →
      ∃ t owned, exec .opPowerOff s = .next t ∧ (owned = s.busOwned ∨ owned = false)
        ∧ t = { s.afterAnswers 4 with
            pins := ⟨.low, .low, .low⟩
            lines := ⟨.low, .low, .low⟩
            busOwned := owned
            fault := if s.fault = .none then .transportFailure else s.fault
            responses := s.responses
              ++ [⟨.transportFailure, .event (.busRelease false) (.running .powerOffOp 3 (.event 0))⟩]
            trace := s.trace ++ [.pinWrite .pwr .low true, .pinWrite .dc .low true, .pinWrite .rst .low true,
                                 .busRelease false] }

/-- A `powerOff` whose pin writes fail (42_sleep_power.md R105 (c), 60_exceptions.md R150, R151): PWR, then DC, then RST.  The
pins written before are LOW, the latch of the failing one has the old level or is LOW, as the environment's answer says
(`took`), the later ones are untouched, `state` and `bus_owned` keep their values, `fault` is set if it was NONE. -/
def Obligations.PowerOffPinWriteFails : Prop :=
  ∀ s : State, s.pc = .idle → paramsValid s.params = true → s.state ≠ .poweredOff →
    ((s.answerAt 0).completes = false →
      exec .opPowerOff s = .next { s.afterAnswers 1 with
        pins := { s.pins with pwr := if (s.answerAt 0).took then .low else s.pins.pwr }
        lines := { s.lines with pwr := if (s.answerAt 0).took then .low else s.lines.pwr }
        fault := if s.fault = .none then .transportFailure else s.fault
        responses := s.responses
          ++ [⟨.transportFailure, .event (.pinWrite .pwr .low false) (.running .powerOffOp 0 (.event 0))⟩]
        trace := s.trace ++ [.pinWrite .pwr .low false] })
      ∧ (s.noFail 1 → (s.answerAt 1).completes = false →
          exec .opPowerOff s = .next { s.afterAnswers 2 with
            pins := { s.pins with pwr := .low, dc := if (s.answerAt 1).took then .low else s.pins.dc }
            lines := { s.lines with pwr := .low, dc := if (s.answerAt 1).took then .low else s.lines.dc }
            fault := if s.fault = .none then .transportFailure else s.fault
            responses := s.responses
              ++ [⟨.transportFailure, .event (.pinWrite .dc .low false) (.running .powerOffOp 1 (.event 0))⟩]
            trace := s.trace ++ [.pinWrite .pwr .low true, .pinWrite .dc .low false] })
      ∧ (s.noFail 2 → (s.answerAt 2).completes = false →
          exec .opPowerOff s = .next { s.afterAnswers 3 with
            pins := ⟨.low, if (s.answerAt 2).took then .low else s.pins.rst, .low⟩
            lines := ⟨.low, if (s.answerAt 2).took then .low else s.lines.rst, .low⟩
            fault := if s.fault = .none then .transportFailure else s.fault
            responses := s.responses
              ++ [⟨.transportFailure, .event (.pinWrite .rst .low false) (.running .powerOffOp 2 (.event 0))⟩]
            trace := s.trace ++ [.pinWrite .pwr .low true, .pinWrite .dc .low true, .pinWrite .rst .low false] })

/-! ### Procedures and frames inside an operation -/

/-- `hardReset` (40_init_reset_sync.md R76), where `initialize` calls it: RST LOW, hold, HIGH, hold, one LOW busy read; RST is
HIGH, `poll_cnt` 0, `state` unchanged, and the calling list continues. -/
def Obligations.HardResetCompletes : Prop :=
  ∀ s : State, s.pc = .running .initOp 2 0 → s.smooth 5 →
    exec .opHardReset s = .next { s.afterAnswers 5 with
      pins := { s.pins with rst := .high }
      lines := { s.lines with rst := .high }
      pollCnt := 0
      pc := .running .initOp 7 0
      trace := s.trace ++ resetPulse s.params.tHoldNs ++ [.busyRead (some .low)] }

/-- Interrupted holds (40_init_reset_sync.md R77 (a), 60_exceptions.md R146, R150): in the first hold RST stays LOW, in the second
it is HIGH; no busy read is made, `fault` is Interrupted if it was NONE, the response is Interrupted, `pc` is `IDLE_PC`. -/
def Obligations.HardResetInterrupted : Prop :=
  ∀ s : State, s.pc = .running .initOp 2 0 →
    (s.smooth 1 → (s.answerAt 1).completes = false →
      exec .opHardReset s = .next { s.afterAnswers 2 with
        pins := { s.pins with rst := .low }
        lines := { s.lines with rst := .low }
        fault := if s.fault = .none then .interrupted else s.fault
        pc := .idle
        responses := s.responses ++ [⟨.interrupted, .position (.running .initOp 3 (.event 0))⟩]
        trace := s.trace ++ [.pinWrite .rst .low true, .delay s.params.tHoldNs false] })
      ∧ (s.smooth 3 → (s.answerAt 3).completes = false →
          exec .opHardReset s = .next { s.afterAnswers 4 with
            pins := { s.pins with rst := .high }
            lines := { s.lines with rst := .high }
            fault := if s.fault = .none then .interrupted else s.fault
            pc := .idle
            responses := s.responses ++ [⟨.interrupted, .position (.running .initOp 5 (.event 0))⟩]
            trace := s.trace ++ [.pinWrite .rst .low true, .delay s.params.tHoldNs true, .pinWrite .rst .high true,
                                 .delay s.params.tHoldNs false] })

/-- The pin writes of `hardReset` fail (60_exceptions.md R145, R150, R151; vector H5), where `initialize` calls it: the latch of
RST has the old or the new level, as the environment's answer says (`took`); the later events do not happen; `fault` is
TransportFailure if it was NONE, the response is TransportFailure, `pc` is `IDLE_PC`, `state` is unchanged. -/
def Obligations.HardResetPinWriteFails : Prop :=
  ∀ s : State, s.pc = .running .initOp 2 0 →
    ((s.answerAt 0).completes = false →
      exec .opHardReset s = .next { s.afterAnswers 1 with
        pins := { s.pins with rst := if (s.answerAt 0).took then .low else s.pins.rst }
        lines := { s.lines with rst := if (s.answerAt 0).took then .low else s.lines.rst }
        fault := if s.fault = .none then .transportFailure else s.fault
        pc := .idle
        responses := s.responses ++ [⟨.transportFailure, .event (.pinWrite .rst .low false) (.running .initOp 2 (.event 0))⟩]
        trace := s.trace ++ [.pinWrite .rst .low false] })
      ∧ (s.noFail 2 → (s.answerAt 2).completes = false →
          exec .opHardReset s = .next { s.afterAnswers 3 with
            pins := { s.pins with rst := if (s.answerAt 2).took then .high else .low }
            lines := { s.lines with rst := if (s.answerAt 2).took then .high else .low }
            fault := if s.fault = .none then .transportFailure else s.fault
            pc := .idle
            responses := s.responses ++ [⟨.transportFailure, .event (.pinWrite .rst .high false) (.running .initOp 4 (.event 0))⟩]
            trace := s.trace ++ [.pinWrite .rst .low true, .delay s.params.tHoldNs true, .pinWrite .rst .high false] })

/-- `softReset` (40_init_reset_sync.md R78), where `initialize` calls it: the soft-reset command, then one LOW busy read. -/
def Obligations.SoftResetCompletes : Prop :=
  ∀ s : State, s.pc = .running .initOp 7 0 → s.smooth 3 →
    exec .opSoftReset s = .next { s.afterAnswers 3 with
      pins := { s.pins with dc := .low }
      lines := { s.lines with dc := .low }
      pollCnt := 0
      pc := .running .initOp 9 0
      trace := s.trace ++ commandEvents s.params.opcodes.softReset [] ++ [.busyRead (some .low)] }

/-- One turn of `busyWait` at a `BW` of any operation (40_init_reset_sync.md R80, R81, 60_exceptions.md R152).  `poll_cnt` counts
from 0 at the start of the wait.  LOW ends the wait, even at the N-th read; HIGH is counted, and the wait goes on unless
the count has reached the timeout, which raises BusyTimeout; a failed read raises TransportFailure and is not counted.
The position an error records has the count as its `sub` part (10_state.md R17).  That `exec` is one turn of the loop and stops
after a HIGH read is the model's step size (assumption 7), that the field `pc` stores 0 before the first read, which clears
the count, and 1 after a HIGH one its numbering (assumption 8), and that an aborted wait leaves its count in `poll_cnt` its
choice (assumption 27). -/
def Obligations.BusyWaitPolls : Prop :=
  ∀ (s : State) (op : HostOp) (k sub : Nat) (polls : Nat),
    s.pc = .running op k sub → (program s.params op)[k]? = some .bw → polls = (if sub = 0 then 0 else s.pollCnt) →
      ((s.answerAt 0).completes = true → (s.answerAt 0).busy = .low →
        exec .opBusyWait s = .next { s.afterAnswers 1 with
          pollCnt := polls
          pc := .running op (k + 1) 0
          trace := s.trace ++ [.busyRead (some .low)] })
      ∧ ((s.answerAt 0).completes = true → (s.answerAt 0).busy = .high →
          (∀ n, s.params.busyTimeoutPolls = some n → polls + 1 < n) →
          exec .opBusyWait s = .next { s.afterAnswers 1 with
            pollCnt := polls + 1
            pc := .running op k 1
            trace := s.trace ++ [.busyRead (some .high)] })
      ∧ (∀ n, (s.answerAt 0).completes = true → (s.answerAt 0).busy = .high →
          s.params.busyTimeoutPolls = some n → n ≤ polls + 1 →
          exec .opBusyWait s = .next { s.afterAnswers 1 with
            pollCnt := polls + 1
            pc := .idle
            fault := if s.fault = .none then .busyTimeout else s.fault
            responses := s.responses ++ [⟨.busyTimeout, .position (.running op k (.polls (polls + 1)))⟩]
            trace := s.trace ++ [.busyRead (some .high)] })
      ∧ ((s.answerAt 0).completes = false →
          exec .opBusyWait s = .next { s.afterAnswers 1 with
            pollCnt := polls
            pc := .idle
            fault := if s.fault = .none then .transportFailure else s.fault
            responses := s.responses ++ [⟨.transportFailure, .event (.busyRead none) (.running op k (.polls polls))⟩]
            trace := s.trace ++ [.busyRead none] })

/-- A hardware hang (60_exceptions.md R148): without a timeout, a busy line that reads HIGH `n` times keeps the block in its
wait for `n` steps: no response, no request taken, nothing but the count and the reads; and the run has not ended, so it has
no result and is not clean (70_reset_and_hazards.md R187, 93_implementation_defined.md U4).  One read a step is the model's
step size (assumption 7), and the 1 that `pc` stores in the loop its numbering (assumption 8). -/
def Obligations.HighBusyLineHangs : Prop :=
  ∀ (n : Nat) (s : State) (op : HostOp) (k : Nat),
    s.pc = .running op k 1 → (program s.params op)[k]? = some .bw → s.params.busyTimeoutPolls = none →
    s.noReset = true →
    (∀ i, i < n → (s.answerAt i).completes = true ∧ (s.answerAt i).busy = .high) →
      ∃ t, Host.Core.run core n s = .next t
        ∧ t = { s.afterAnswers n with
            pollCnt := s.pollCnt + n
            trace := s.trace ++ List.replicate n (.busyRead (some .high)) }
        ∧ t.runOver = false ∧ t.runResult = none ∧ t.clean = false

/-- A `show` whose chip is busy for `n + 1` polls (41_frame.md R90, 40_init_reset_sync.md R80): from the request, the run of
`n + 3` steps streams the frames, polls HIGH `n + 1` times and LOW once, and ends in IDLE with the response OK.  The number
of steps is the model's step size (assumption 7), and that `poll_cnt` keeps its last value its choice (assumption 27). -/
def Obligations.ShowEndsWhenBusyFalls : Prop :=
  ∀ (n : Nat) (s : State) (b : Buffer) (rest : List HostAction) (primary accent : List Byte),
    s.pc = .idle → s.host = .request 4#4 (.buffer b) :: rest → rest.head? ≠ some .blockReset →
    paramsValid s.params = true → s.params.busyTimeoutPolls = none →
    (s.state = .idle ∨ s.state = .configured) → s.fault = .none →
    bufFind .primary b = some primary → primary.length = planeBytes s.params.geometry →
    bufFind .accent b = some accent → accent.length = planeBytes s.params.geometry →
    (∀ i, i < 4 * planeBytes s.params.geometry + n + 8 → (s.answerAt i).completes = true) →
    (∀ i, i < n + 1 → (s.answerAt (4 * planeBytes s.params.geometry + 6 + i)).busy = .high) →
    (s.answerAt (4 * planeBytes s.params.geometry + 7 + n)).busy = .low →
      ∃ t, Host.Core.run core (n + 3) s = .next t ∧ t.state = .idle ∧ t.pc = .idle ∧ t.fault = .none
        ∧ t.host = rest ∧ t.responses = s.responses ++ [⟨.ok, .none⟩] ∧ t.pollCnt = n + 1
        ∧ t.trace = s.trace ++ showEvents s.params primary accent (n + 1)

/-- `sendCommand` and `sendData` inside an operation (43_primitives.md R110, R111): DC is driven LOW or HIGH, then the one byte
is sent; nothing else but the position changes, which advances as `State.advance` says.  The pin write is performed also
when DC has that level already. -/
def Obligations.BusPrimitivesComplete : Prop :=
  ∀ (s : State) (op : HostOp) (k : Nat) (b : Byte), s.pc = .running op k 0 → s.smooth 2 →
    exec (.opSendCommand b) s = .next (State.advance { s.afterAnswers 2 with
        pins := { s.pins with dc := .low }
        lines := { s.lines with dc := .low }
        pc := .running op k 1
        trace := s.trace ++ [.pinWrite .dc .low true, .busSend b true] })
      ∧ exec (.opSendData b) s = .next (State.advance { s.afterAnswers 2 with
          pins := { s.pins with dc := .high }
          lines := { s.lines with dc := .high }
          pc := .running op k 1
          trace := s.trace ++ [.pinWrite .dc .high true, .busSend b true] })

/-- The data frame completes (44_chip_commands.md R131): one byte with DC HIGH. -/
def Obligations.DataFrameCompletes : Prop :=
  ∀ (s : State) (op : HostOp) (k : Nat) (b : Byte), s.pc = .running op k 0 → s.smooth 2 →
    exec (.data b) s = .next (State.advance { s.afterAnswers 2 with
      pins := { s.pins with dc := .high }
      lines := { s.lines with dc := .high }
      pc := .running op k 1
      trace := s.trace ++ [.pinWrite .dc .high true, .busSend b true] })

/-- The eleven chip commands complete (44_chip_commands.md R120 to R130; constructors cmdSoftReset, cmdDataEntryMode,
cmdSetXWindow, cmdSetYWindow, cmdUpdateControl, cmdSetXCounter, cmdSetYCounter, cmdSelectPrimary, cmdSelectAccent,
cmdRefresh, cmdSleep): each sends its own opcode byte with DC LOW. -/
def Obligations.ChipCommandsComplete : Prop :=
  ∀ (s : State) (op : HostOp) (k : Nat) (i : Instr) (o : Byte), s.pc = .running op k 0 → s.smooth 2 →
    (i, o) ∈ [(.cmdSoftReset, s.params.opcodes.softReset), (.cmdDataEntryMode, s.params.opcodes.dataEntryMode),
      (.cmdSetXWindow, s.params.opcodes.setXWindow), (.cmdSetYWindow, s.params.opcodes.setYWindow),
      (.cmdUpdateControl, s.params.opcodes.updateControl), (.cmdSetXCounter, s.params.opcodes.setXCounter),
      (.cmdSetYCounter, s.params.opcodes.setYCounter), (.cmdSelectPrimary, s.params.opcodes.selectPrimary),
      (.cmdSelectAccent, s.params.opcodes.selectAccent), (.cmdRefresh, s.params.opcodes.refresh),
      (.cmdSleep, s.params.opcodes.deepSleep)] →
      exec i s = .next (State.advance { s.afterAnswers 2 with
        pins := { s.pins with dc := .low }
        lines := { s.lines with dc := .low }
        pc := .running op k 1
        trace := s.trace ++ [.pinWrite .dc .low true, .busSend o true] })

/-- A command with its arguments (44_chip_commands.md R119): from the position at which the block emits a command that is no
plane select, one step per byte sends the opcode with DC LOW and then each argument byte of 30_encoding.md R56 in order
with DC HIGH, with no other event between them.  One step a byte is the model's step size (assumption 7). -/
def Obligations.CommandsCarryTheirArguments : Prop :=
  ∀ (s : State) (c : ChipCommand) (args : List Byte),
    s.pc = .running (commandPosition c).1 (commandPosition c).2 0 → s.noReset = true → paramsValid s.params = true →
    (c, args) ∈ [(.softReset, []), (.dataEntryMode, [0x03#8]), (.setXWindow, [0x00#8, xEnd s.params.geometry]),
      (.setYWindow, [0x00#8, yEndLow s.params.geometry, yEndHigh s.params.geometry]),
      (.updateControl, [0x00#8, 0x80#8]), (.setXCounter, [0x00#8]), (.setYCounter, [0x00#8, 0x00#8]),
      (.refresh, []), (.deepSleep, [0x01#8])] →
    s.smooth (2 * (args.length + 1)) →
      ∃ t, Host.Core.run core (args.length + 1) s = .next t
        ∧ t.trace = s.trace ++ commandEvents (s.params.opcodes.opcode c) args
        ∧ t.pc = .running (commandPosition c).1 ((commandPosition c).2 + args.length + 1) 0
        ∧ t.state = s.state ∧ t.responses = s.responses

/-- The byte loops of `show` and `clearDisplay`, rows 3 and 5 (41_frame.md R92, 40_init_reset_sync.md R71 (c)): after a bitmap
byte the next index is taken; after the byte at `PLANE_BYTES - 1` of the primary plane row 4 follows, with `plane_idx` 1, and
after that of the accent plane row 6, with `plane_idx` as it was.  The byte index is the `sub` part of the sequencer position;
that the next event of that byte stands beside it is the model's choice (assumption 8). -/
def Obligations.ByteLoopAdvances : Prop :=
  ∀ (s : State) (op : HostOp) (k : Nat) (b : Byte), (op = .showOp ∨ op = .clearOp) → (k = 3 ∨ k = 5) →
    s.pc = .running op k 0 → s.smooth 2 →
    s.position = .running op k (.byte s.byteIdx 0)
      ∧ (s.byteIdx + 1 < planeBytes s.params.geometry →
          ∃ t, exec (.data b) s = .next t ∧ t.position = .running op k (.byte (s.byteIdx + 1) 0)
            ∧ t = { s.afterAnswers 2 with
                pins := { s.pins with dc := .high }
                lines := { s.lines with dc := .high }
                byteIdx := s.byteIdx + 1
                trace := s.trace ++ [.pinWrite .dc .high true, .busSend b true] })
      ∧ (s.byteIdx + 1 = planeBytes s.params.geometry → k = 3 →
          exec (.data b) s = .next { s.afterAnswers 2 with
            pins := { s.pins with dc := .high }
            lines := { s.lines with dc := .high }
            planeIdx := 1
            byteIdx := planeBytes s.params.geometry
            pc := .running op 4 0
            trace := s.trace ++ [.pinWrite .dc .high true, .busSend b true] })
      ∧ (s.byteIdx + 1 = planeBytes s.params.geometry → k = 5 →
          exec (.data b) s = .next { s.afterAnswers 2 with
            pins := { s.pins with dc := .high }
            lines := { s.lines with dc := .high }
            byteIdx := planeBytes s.params.geometry
            pc := .running op 6 0
            trace := s.trace ++ [.pinWrite .dc .high true, .busSend b true] })

/-- A frame that fails (43_primitives.md R110, 60_exceptions.md R150, R151), for the data frame and the chip commands: if the pin
write fails the byte is not sent and DC has the old or the new level; if the send fails DC has been driven.  Either way
the operation aborts with TransportFailure, whose diagnosis is the event and the sequencer position.  In rows 3 and 5 of
`show` the position has the byte index as its `sub` part (41_frame.md R92); that the next event of that byte stands beside
it, 0 the pin write and 1 the send, is the model's choice (assumption 8). -/
def Obligations.FailedFramesAbort : Prop :=
  ∀ (s : State) (op : HostOp) (k : Nat) (i : Instr) (dc : Level) (b : Byte), s.pc = .running op k 0 →
    ((∃ c : ChipCommand, i = c.instr ∧ dc = .low ∧ b = s.params.opcodes.opcode c) ∨ (i = .data b ∧ dc = .high)) →
    ((s.answerAt 0).completes = false →
      exec i s = .next { s.afterAnswers 1 with
        pins := { s.pins with dc := if (s.answerAt 0).took then dc else s.pins.dc }
        lines := { s.lines with dc := if (s.answerAt 0).took then dc else s.lines.dc }
        fault := if s.fault = .none then .transportFailure else s.fault
        pc := .idle
        responses := s.responses ++ [⟨.transportFailure, .event (.pinWrite .dc dc false) s.position⟩]
        trace := s.trace ++ [.pinWrite .dc dc false] })
      ∧ ((s.answerAt 0).completes = true → (s.answerAt 1).completes = false →
          exec i s = .next { s.afterAnswers 2 with
            pins := { s.pins with dc := dc }
            lines := { s.lines with dc := dc }
            fault := if s.fault = .none then .transportFailure else s.fault
            pc := .idle
            responses := s.responses
              ++ [⟨.transportFailure, .event (.busSend b false) (State.position { s with pc := .running op k 1 })⟩]
            trace := s.trace ++ [.pinWrite .dc dc true, .busSend b false] })
      ∧ ((op = .showOp ∨ op = .clearOp) → (k = 3 ∨ k = 5) →
          s.position = .running op k (.byte s.byteIdx 0)
            ∧ State.position { s with pc := .running op k 1 } = .running op k (.byte s.byteIdx 1))

/-- The wire view is the frames and the level changes of PWR and RST, in their places (43_primitives.md R112).  From levels `x`
of the lines, in a trace whose first part is `E`: a write that changes no level of its pin leaves the view as it is, for
each of the three pins, completed or not; a completed one that changes the level of PWR or RST stands in its place; a
completed send is a frame with the level of DC at that time; nothing else shows.  A failed write has left the old level or
the new one (60_exceptions.md R151), DC's too: where it took effect (`true` in the list beside the trace) the view is that
of the completed write, and where it did not (`false`) it is that of a trace without it. -/
def Obligations.WireViewShowsLevelChanges : Prop :=
  ∀ (x : Pins) (took : List Bool) (E F : List Event) (a : Bool) (l : List Bool), took.length = E.length →
    (∀ p v c, (x.afterAll took E).get p = v →
        wireView x (took ++ a :: l) (E ++ .pinWrite p v c :: F) = wireView x (took ++ l) (E ++ F))
      ∧ (∀ v, (x.afterAll took E).pwr ≠ v → wireView x (took ++ a :: l) (E ++ .pinWrite .pwr v true :: F)
          = wireView x took E ++ .power v :: wireView ((x.afterAll took E).set .pwr v) l F)
      ∧ (∀ v, (x.afterAll took E).rst ≠ v → wireView x (took ++ a :: l) (E ++ .pinWrite .rst v true :: F)
          = wireView x took E ++ .reset v :: wireView ((x.afterAll took E).set .rst v) l F)
      ∧ (∀ v, wireView x (took ++ a :: l) (E ++ .pinWrite .dc v true :: F)
          = wireView x took E ++ wireView ((x.afterAll took E).set .dc v) l F)
      ∧ (∀ b, wireView x (took ++ a :: l) (E ++ .busSend b true :: F)
          = wireView x took E ++ .frame (mkFrame (x.afterAll took E).dc b) :: wireView (x.afterAll took E) l F)
      ∧ (∀ p v, wireView x (took ++ true :: l) (E ++ .pinWrite p v false :: F)
            = wireView x (took ++ a :: l) (E ++ .pinWrite p v true :: F)
          ∧ wireView x (took ++ false :: l) (E ++ .pinWrite p v false :: F) = wireView x (took ++ l) (E ++ F))
      ∧ ∀ e, ((∃ v, e = .busyRead v) ∨ (∃ c, e = .busRelease c) ∨ (∃ n c, e = .delay n c) ∨ ∃ b, e = .busSend b false) →
          wireView x (took ++ a :: l) (E ++ e :: F) = wireView x (took ++ l) (E ++ F)

/-! ### Frames of the instructions -/

/-- WHAT AN INSTRUCTION LEAVES UNCHANGED, whatever the environment answers.  The parameters, the host's actions and the marks of
the run's start: always.  `state`: all but the five host operations.  PWR, latch and line: all but `initialize` and
`powerOff`.  RST, latch and line: all but these and `hardReset`.  DC, latch and line: `hardReset`, `busyWait` and the reserved
codes.  `bus_owned`: all but `powerOff`.  `poll_cnt`: all but `initialize`,
`hardReset`, `softReset`, `busyWait`, `show` and `clearDisplay`.  `plane_idx` and `byte_idx`: whenever `show` and
`clearDisplay` neither are executed nor run.  Every byte of the buffer, and its planes' lengths: all but `show` and
`clearDisplay`, which take a new operand at their request only.  (10_state.md R12, R13, R18, R19, R20; 20_memory.md R31.) -/
def Obligations.InstructionFrames : Prop :=
  ∀ (i : Instr) (s t : State), exec i s = .next t →
    t.params = s.params ∧ t.host = s.host ∧ t.run = s.run
      ∧ (isHostOp i = false → t.state = s.state)
      ∧ (i ≠ .opInitialize → i ≠ .opPowerOff → t.pins.pwr = s.pins.pwr ∧ t.lines.pwr = s.lines.pwr)
      ∧ (i ≠ .opInitialize → i ≠ .opPowerOff → i ≠ .opHardReset →
          t.pins.rst = s.pins.rst ∧ t.lines.rst = s.lines.rst)
      ∧ (i ∈ [.opHardReset, .opBusyWait, .reserved10, .reserved11, .reserved12, .reserved13, .reserved14, .reserved15] →
          t.pins.dc = s.pins.dc ∧ t.lines.dc = s.lines.dc)
      ∧ (i ≠ .opPowerOff → t.busOwned = s.busOwned)
      ∧ (i ≠ .opInitialize → i ≠ .opHardReset → i ≠ .opSoftReset → i ≠ .opBusyWait → (∀ b, i ≠ .opShow b) →
          i ≠ .opClearDisplay → t.pollCnt = s.pollCnt)
      ∧ ((∀ b, i ≠ .opShow b) → i ≠ .opClearDisplay →
          (∀ k sub, s.pc ≠ .running .showOp k sub ∧ s.pc ≠ .running .clearOp k sub) →
          t.planeIdx = s.planeIdx ∧ t.byteIdx = s.byteIdx)
      ∧ ((∀ b, i ≠ .opShow b) ∧ i ≠ .opClearDisplay ∨ s.pc ≠ .idle →
          ∀ p n, memRead p n t.operand = memRead p n s.operand ∧ bufLen p t.operand = bufLen p s.operand)

/-! ### Invariants and rules of the whole machine -/

/-- The reset state meets the invariant. -/
def Obligations.ResetMeetsInvariant : Prop := BlockInv State.reset = true

/-- THE INVARIANT IS KEPT by every step, from every state that meets it: valid parameters, the buffer in canonical form, loop
counters in range, the run's marks inside the logs, and `state`, pins, lines and bus ownership agreeing with the sequencer
position (10_state.md R11, R12, R17, R18, R19, 60_exceptions.md R167). -/
def Obligations.StepKeepsInvariant : Prop :=
  ∀ s t : State, BlockInv s = true → step s = .next t → BlockInv t = true

/-- From every state that meets the invariant a step answers a next state: no fault and no refusal is ever met in a run from
valid parameters; an unending wait is a step too (60_exceptions.md R148). -/
def Obligations.StepNeverStops : Prop :=
  ∀ s : State, BlockInv s = true → ∃ t, step s = .next t

/-- `fault` is sticky and holds the first sticky error (10_state.md R13): a step without a block reset keeps it once it is not
NONE, sets it only to the code of a sticky error that it answers with, and while it is not NONE every host operation except
`powerOff` is rejected; a block reset clears it. -/
def Obligations.FaultIsSticky : Prop :=
  (∀ s t : State, s.noReset = true → step s = .next t →
    (s.fault ≠ .none → t.fault = s.fault)
      ∧ (s.fault = .none → t.fault ≠ .none →
          ∃ c x, t.responses = s.responses ++ [⟨c, x⟩] ∧ t.fault.code = c.code
            ∧ (c = .transportFailure ∨ c = .interrupted ∨ c = .busyTimeout)))
    ∧ (∀ (s : State) (i : Instr), s.pc = .idle → paramsValid s.params = true → s.fault ≠ .none → isHostOp i = true →
        i ≠ .opPowerOff →
        exec i s = .next { s with responses := s.responses ++ [⟨.illegalState, .registers s.state s.fault⟩] })
    ∧ (∀ (s t : State) (rest : List HostAction), s.host = .blockReset :: rest → step s = .next t → t.fault = .none)

/-- Every sticky error answered by a step stands in `fault` afterwards, and the block is ready again (60_exceptions.md R150). -/
def Obligations.StickyErrorsAreRecorded : Prop :=
  ∀ (s t : State) (r : Response), s.noReset = true → step s = .next t → t.responses = s.responses ++ [r] →
    r.status.sticky ≠ .none →
      t.pc = .idle ∧ t.fault = (if s.fault = .none then r.status.sticky else s.fault)

/-- An aborted operation leaves `state` at the value it had when the failing event was attempted (10_state.md R12): at position
`k` of `initialize` the value its list has set there, BUSY in a `show` or `clearDisplay`, and the value at the start of the
step in a `sleep` or `powerOff`. -/
def Obligations.AbortLeavesState : Prop :=
  ∀ (s t : State) (r : Response) (op : HostOp) (k : Nat) (sub : Sub), BlockInv s = true → s.noReset = true → step s = .next t →
    t.responses = s.responses ++ [r] → r.status.sticky ≠ .none →
    ((∃ e, r.info = .event e (.running op k sub)) ∨ r.info = .position (.running op k sub)) →
      t.state = match op with
        | .initOp =>
          if k ≤ 1 then .unpowered else if k ≤ 9 then .powered else if k ≤ 28 then .reset else .configured
        | .showOp => .busy
        | .clearOp => .busy
        | .sleepOp => s.state
        | .powerOffOp => s.state

/-- After a sticky error no frame is sent (70_reset_and_hazards.md R181). -/
def Obligations.NoFrameAfterFault : Prop :=
  ∀ (s t : State), BlockInv s = true → s.noReset = true → s.fault ≠ .none → step s = .next t →
    ∃ E, t.trace = s.trace ++ E ∧ ∀ x took, framesOf (wireView x took E) = []

/-- Every command frame a step emits carries one of the eleven opcodes of the table (30_encoding.md R59). -/
def Obligations.CommandFramesAreInTable : Prop :=
  ∀ (s t : State), BlockInv s = true → step s = .next t →
    ∃ E, t.trace = s.trace ++ E
      ∧ ∀ x took, ∀ f ∈ framesOf (wireView x took E), Frame.dc f = .low → Frame.byte f ∈ s.params.opcodes.codes

/-- The trace, the responses and the free draws only grow, and no step writes a parameter (20_memory.md R42, 10_state.md R20).
The output latches, and the lines, change only with the pin writes on the trace: a step without a block reset leaves them as
its events say, a failed write having left the old level or the new one (10_state.md R15, 60_exceptions.md R151). -/
def Obligations.TraceOnlyGrows : Prop :=
  ∀ s t : State, step s = .next t →
    s.trace <+: t.trace ∧ s.responses <+: t.responses ∧ s.draws ≤ t.draws ∧ t.params = s.params
      ∧ (s.noReset = true → ∃ E took, t.trace = s.trace ++ E ∧ took.length = E.length
          ∧ t.pins = s.pins.afterAll took E ∧ t.lines = s.lines.afterAll took E)

/-- `state` changes only along the rows of the summary of 10_state.md (R11, R12): nothing leaves SLEEPING but for POWERED_OFF,
and nothing leaves POWERED_OFF except a block reset. -/
def Obligations.StateFollowsSummary : Prop :=
  ∀ s t : State, BlockInv s = true → s.noReset = true → step s = .next t →
    Relation.ReflTransGen StateEdge s.state t.state
      ∧ (s.state = .sleeping → t.state = .sleeping ∨ t.state = .poweredOff)
      ∧ (s.state = .poweredOff → t.state = .poweredOff ∧ t.trace = s.trace)

/-- `bus_owned` changes only from 1 to 0, only in a `powerOff` (10_state.md R19); a block reset sets it. -/
def Obligations.OnlyPowerOffReleasesBus : Prop :=
  ∀ s t : State, step s = .next t → t.busOwned ≠ s.busOwned →
    (s.noReset = false ∧ t.busOwned = true)
      ∨ (s.busOwned = true ∧ t.busOwned = false
          ∧ ((∃ o rest, s.pc = .idle ∧ s.host = .request 7#4 o :: rest)
            ∨ ∃ k sub, s.pc = .running .powerOffOp k sub))

/-- The buffer is never written (20_memory.md R31): a step changes the operand held only by a block reset, or by taking the
request of a `show` or a `clearDisplay`, whose operand it then is. -/
def Obligations.BufferIsNeverWritten : Prop :=
  ∀ s t : State, s.noReset = true → step s = .next t → t.operand ≠ s.operand →
    s.pc = .idle ∧ ((∃ o rest, s.host = .request 4#4 o :: rest ∧ t.operand = Memory.snapshot o.toBuffer)
      ∨ ∃ o rest, s.host = .request 5#4 o :: rest ∧ t.operand = blank s.params.geometry)

/-- Only the two holds of `hardReset`, inside `initialize`, can be interrupted (60_exceptions.md R146, R161): a response
Interrupted of a step names one of their two positions. -/
def Obligations.OnlyHoldsAreInterrupted : Prop :=
  ∀ (s t : State) (r : Response), BlockInv s = true → step s = .next t → t.responses = s.responses ++ [r] →
    r.status = .interrupted →
      ∃ k sub, (k = 3 ∨ k = 5) ∧ r.info = .position (.running .initOp k sub)

/-- A step gives at most one response, and one exactly when the operation is over (30_encoding.md R50, R53): from a state that
meets the invariant, a step that ends at `IDLE_PC` and did not just wait or reset has given one response, and a step that
leaves an operation running has given none. -/
def Obligations.OneResponsePerOperation : Prop :=
  ∀ s t : State, BlockInv s = true → s.noReset = true → step s = .next t →
    (t.pc ≠ .idle → t.responses = s.responses)
      ∧ (t.pc = .idle → ¬ (s.pc = .idle ∧ s.host = []) → ∃ r, t.responses = s.responses ++ [r])

/-- Runs (70_reset_and_hazards.md R170, R172, R187).  A block reset begins a run: no response and no event belongs to it yet, and
it begins with the lines as they are; in mid-session their real levels are unknown, a free value, whatever the latches
say.  The run ends with the step that answers the last request and with no other.  Once it has ended its result is its
responses, its events and the final registers, and it is clean exactly when each of its responses is OK; before that, and for
ever in a run that does not end, it has no result and is not clean (93_implementation_defined.md U4).  The form of the
unknown levels is the model's (assumption 21), and that the run of no requests is over at once its choice (assumption 28). -/
def Obligations.BlockResetBeginsRun : Prop :=
  (∀ (s t : State) (rest : List HostAction), s.host = .blockReset :: rest → step s = .next t →
    t.runResponses = [] ∧ t.runTrace = [] ∧ t.run.lines = t.lines
      ∧ (s.state ≠ .poweredOff → s.trace.length ≠ s.run.events →
          t.lines = ⟨(Config.freeLevels s.draws).1, (Config.freeLevels s.draws).2.1, (Config.freeLevels s.draws).2.2⟩
            ∧ t.draws = s.draws + 1))
    ∧ (∀ s t : State, BlockInv s = true → s.noReset = true → step s = .next t → s.runOver = false →
        t.run = s.run
          ∧ (t.runOver = true ↔ (∃ r, t.responses = s.responses ++ [r]) ∧ ∀ c o rest, t.host ≠ .request c o :: rest))
    ∧ ∀ s : State,
        (s.runOver = true →
          s.runResult = some ⟨s.runResponses, s.runTrace, ⟨s.state, s.fault, s.pins, s.busOwned⟩⟩
            ∧ (s.clean = true ↔ ∀ r ∈ s.runResponses, r.status = .ok))
          ∧ (s.runOver = false → s.runResult = none ∧ s.clean = false)
end

