-- ==== Sys2Proof/Laws/State.lean ====
section
/-! SUPPORT. One lemma per field per update of the state, so that no proof unfolds a record update. -/

namespace Sys2Proof.Machine

/-! ### `emit` -/

@[simp] theorem State.emit_params (e : Event) (s : State) : (s.emit e).params = s.params := rfl
@[simp] theorem State.emit_state (e : Event) (s : State) : (s.emit e).state = s.state := rfl
@[simp] theorem State.emit_fault (e : Event) (s : State) : (s.emit e).fault = s.fault := rfl
@[simp] theorem State.emit_pins (e : Event) (s : State) : (s.emit e).pins = s.pins := rfl
@[simp] theorem State.emit_lines (e : Event) (s : State) : (s.emit e).lines = s.lines := rfl
@[simp] theorem State.emit_busOwned (e : Event) (s : State) : (s.emit e).busOwned = s.busOwned := rfl
@[simp] theorem State.emit_pc (e : Event) (s : State) : (s.emit e).pc = s.pc := rfl
@[simp] theorem State.emit_planeIdx (e : Event) (s : State) : (s.emit e).planeIdx = s.planeIdx := rfl
@[simp] theorem State.emit_byteIdx (e : Event) (s : State) : (s.emit e).byteIdx = s.byteIdx := rfl
@[simp] theorem State.emit_pollCnt (e : Event) (s : State) : (s.emit e).pollCnt = s.pollCnt := rfl
@[simp] theorem State.emit_operand (e : Event) (s : State) : (s.emit e).operand = s.operand := rfl
@[simp] theorem State.emit_host (e : Event) (s : State) : (s.emit e).host = s.host := rfl
@[simp] theorem State.emit_responses (e : Event) (s : State) : (s.emit e).responses = s.responses := rfl
@[simp] theorem State.emit_trace (e : Event) (s : State) : (s.emit e).trace = s.trace ++ [e] := rfl
@[simp] theorem State.emit_run (e : Event) (s : State) : (s.emit e).run = s.run := rfl
@[simp] theorem State.emit_inputs (e : Event) (s : State) : (s.emit e).inputs = s.inputs := rfl
@[simp] theorem State.emit_draws (e : Event) (s : State) : (s.emit e).draws = s.draws := rfl

/-! ### `setPin` -/

@[simp] theorem State.setPin_params (p : Pin) (v : Level) (s : State) : (s.setPin p v).params = s.params := rfl
@[simp] theorem State.setPin_state (p : Pin) (v : Level) (s : State) : (s.setPin p v).state = s.state := rfl
@[simp] theorem State.setPin_fault (p : Pin) (v : Level) (s : State) : (s.setPin p v).fault = s.fault := rfl
@[simp] theorem State.setPin_pins (p : Pin) (v : Level) (s : State) : (s.setPin p v).pins = s.pins.set p v := rfl
@[simp] theorem State.setPin_lines (p : Pin) (v : Level) (s : State) : (s.setPin p v).lines = s.lines.set p v := rfl
@[simp] theorem State.setPin_busOwned (p : Pin) (v : Level) (s : State) : (s.setPin p v).busOwned = s.busOwned := rfl
@[simp] theorem State.setPin_pc (p : Pin) (v : Level) (s : State) : (s.setPin p v).pc = s.pc := rfl
@[simp] theorem State.setPin_planeIdx (p : Pin) (v : Level) (s : State) : (s.setPin p v).planeIdx = s.planeIdx := rfl
@[simp] theorem State.setPin_byteIdx (p : Pin) (v : Level) (s : State) : (s.setPin p v).byteIdx = s.byteIdx := rfl
@[simp] theorem State.setPin_pollCnt (p : Pin) (v : Level) (s : State) : (s.setPin p v).pollCnt = s.pollCnt := rfl
@[simp] theorem State.setPin_operand (p : Pin) (v : Level) (s : State) : (s.setPin p v).operand = s.operand := rfl
@[simp] theorem State.setPin_host (p : Pin) (v : Level) (s : State) : (s.setPin p v).host = s.host := rfl
@[simp] theorem State.setPin_responses (p : Pin) (v : Level) (s : State) : (s.setPin p v).responses = s.responses := rfl
@[simp] theorem State.setPin_trace (p : Pin) (v : Level) (s : State) : (s.setPin p v).trace = s.trace := rfl
@[simp] theorem State.setPin_run (p : Pin) (v : Level) (s : State) : (s.setPin p v).run = s.run := rfl
@[simp] theorem State.setPin_inputs (p : Pin) (v : Level) (s : State) : (s.setPin p v).inputs = s.inputs := rfl
@[simp] theorem State.setPin_draws (p : Pin) (v : Level) (s : State) : (s.setPin p v).draws = s.draws := rfl

/-! ### `setState` -/

@[simp] theorem State.setState_params (v : SeqState) (s : State) : (s.setState v).params = s.params := rfl
@[simp] theorem State.setState_state (v : SeqState) (s : State) : (s.setState v).state = v := rfl
@[simp] theorem State.setState_fault (v : SeqState) (s : State) : (s.setState v).fault = s.fault := rfl
@[simp] theorem State.setState_pins (v : SeqState) (s : State) : (s.setState v).pins = s.pins := rfl
@[simp] theorem State.setState_lines (v : SeqState) (s : State) : (s.setState v).lines = s.lines := rfl
@[simp] theorem State.setState_busOwned (v : SeqState) (s : State) : (s.setState v).busOwned = s.busOwned := rfl
@[simp] theorem State.setState_pc (v : SeqState) (s : State) : (s.setState v).pc = s.pc := rfl
@[simp] theorem State.setState_planeIdx (v : SeqState) (s : State) : (s.setState v).planeIdx = s.planeIdx := rfl
@[simp] theorem State.setState_byteIdx (v : SeqState) (s : State) : (s.setState v).byteIdx = s.byteIdx := rfl
@[simp] theorem State.setState_pollCnt (v : SeqState) (s : State) : (s.setState v).pollCnt = s.pollCnt := rfl
@[simp] theorem State.setState_operand (v : SeqState) (s : State) : (s.setState v).operand = s.operand := rfl
@[simp] theorem State.setState_host (v : SeqState) (s : State) : (s.setState v).host = s.host := rfl
@[simp] theorem State.setState_responses (v : SeqState) (s : State) : (s.setState v).responses = s.responses := rfl
@[simp] theorem State.setState_trace (v : SeqState) (s : State) : (s.setState v).trace = s.trace := rfl
@[simp] theorem State.setState_run (v : SeqState) (s : State) : (s.setState v).run = s.run := rfl
@[simp] theorem State.setState_inputs (v : SeqState) (s : State) : (s.setState v).inputs = s.inputs := rfl
@[simp] theorem State.setState_draws (v : SeqState) (s : State) : (s.setState v).draws = s.draws := rfl

/-! ### `releaseBus` -/

@[simp] theorem State.releaseBus_params (s : State) : s.releaseBus.params = s.params := rfl
@[simp] theorem State.releaseBus_state (s : State) : s.releaseBus.state = s.state := rfl
@[simp] theorem State.releaseBus_fault (s : State) : s.releaseBus.fault = s.fault := rfl
@[simp] theorem State.releaseBus_pins (s : State) : s.releaseBus.pins = s.pins := rfl
@[simp] theorem State.releaseBus_lines (s : State) : s.releaseBus.lines = s.lines := rfl
@[simp] theorem State.releaseBus_busOwned (s : State) : s.releaseBus.busOwned = false := rfl
@[simp] theorem State.releaseBus_pc (s : State) : s.releaseBus.pc = s.pc := rfl
@[simp] theorem State.releaseBus_planeIdx (s : State) : s.releaseBus.planeIdx = s.planeIdx := rfl
@[simp] theorem State.releaseBus_byteIdx (s : State) : s.releaseBus.byteIdx = s.byteIdx := rfl
@[simp] theorem State.releaseBus_pollCnt (s : State) : s.releaseBus.pollCnt = s.pollCnt := rfl
@[simp] theorem State.releaseBus_operand (s : State) : s.releaseBus.operand = s.operand := rfl
@[simp] theorem State.releaseBus_host (s : State) : s.releaseBus.host = s.host := rfl
@[simp] theorem State.releaseBus_responses (s : State) : s.releaseBus.responses = s.responses := rfl
@[simp] theorem State.releaseBus_trace (s : State) : s.releaseBus.trace = s.trace := rfl
@[simp] theorem State.releaseBus_run (s : State) : s.releaseBus.run = s.run := rfl
@[simp] theorem State.releaseBus_inputs (s : State) : s.releaseBus.inputs = s.inputs := rfl
@[simp] theorem State.releaseBus_draws (s : State) : s.releaseBus.draws = s.draws := rfl

/-! ### `countPoll` -/

@[simp] theorem State.countPoll_params (s : State) : s.countPoll.params = s.params := rfl
@[simp] theorem State.countPoll_state (s : State) : s.countPoll.state = s.state := rfl
@[simp] theorem State.countPoll_fault (s : State) : s.countPoll.fault = s.fault := rfl
@[simp] theorem State.countPoll_pins (s : State) : s.countPoll.pins = s.pins := rfl
@[simp] theorem State.countPoll_lines (s : State) : s.countPoll.lines = s.lines := rfl
@[simp] theorem State.countPoll_busOwned (s : State) : s.countPoll.busOwned = s.busOwned := rfl
@[simp] theorem State.countPoll_pc (s : State) : s.countPoll.pc = s.pc := rfl
@[simp] theorem State.countPoll_planeIdx (s : State) : s.countPoll.planeIdx = s.planeIdx := rfl
@[simp] theorem State.countPoll_byteIdx (s : State) : s.countPoll.byteIdx = s.byteIdx := rfl
@[simp] theorem State.countPoll_pollCnt (s : State) : s.countPoll.pollCnt = s.pollCnt + 1 := rfl
@[simp] theorem State.countPoll_operand (s : State) : s.countPoll.operand = s.operand := rfl
@[simp] theorem State.countPoll_host (s : State) : s.countPoll.host = s.host := rfl
@[simp] theorem State.countPoll_responses (s : State) : s.countPoll.responses = s.responses := rfl
@[simp] theorem State.countPoll_trace (s : State) : s.countPoll.trace = s.trace := rfl
@[simp] theorem State.countPoll_run (s : State) : s.countPoll.run = s.run := rfl
@[simp] theorem State.countPoll_inputs (s : State) : s.countPoll.inputs = s.inputs := rfl
@[simp] theorem State.countPoll_draws (s : State) : s.countPoll.draws = s.draws := rfl

/-! ### `respond` -/

@[simp] theorem State.respond_params (r : Response) (s : State) : (s.respond r).params = s.params := rfl
@[simp] theorem State.respond_state (r : Response) (s : State) : (s.respond r).state = s.state := rfl
@[simp] theorem State.respond_fault (r : Response) (s : State) : (s.respond r).fault = s.fault := rfl
@[simp] theorem State.respond_pins (r : Response) (s : State) : (s.respond r).pins = s.pins := rfl
@[simp] theorem State.respond_lines (r : Response) (s : State) : (s.respond r).lines = s.lines := rfl
@[simp] theorem State.respond_busOwned (r : Response) (s : State) : (s.respond r).busOwned = s.busOwned := rfl
@[simp] theorem State.respond_pc (r : Response) (s : State) : (s.respond r).pc = .idle := rfl
@[simp] theorem State.respond_planeIdx (r : Response) (s : State) : (s.respond r).planeIdx = s.planeIdx := rfl
@[simp] theorem State.respond_byteIdx (r : Response) (s : State) : (s.respond r).byteIdx = s.byteIdx := rfl
@[simp] theorem State.respond_pollCnt (r : Response) (s : State) : (s.respond r).pollCnt = s.pollCnt := rfl
@[simp] theorem State.respond_operand (r : Response) (s : State) : (s.respond r).operand = s.operand := rfl
@[simp] theorem State.respond_host (r : Response) (s : State) : (s.respond r).host = s.host := rfl
@[simp] theorem State.respond_responses (r : Response) (s : State) : (s.respond r).responses = s.responses ++ [r] := rfl
@[simp] theorem State.respond_trace (r : Response) (s : State) : (s.respond r).trace = s.trace := rfl
@[simp] theorem State.respond_run (r : Response) (s : State) : (s.respond r).run = s.run := rfl
@[simp] theorem State.respond_inputs (r : Response) (s : State) : (s.respond r).inputs = s.inputs := rfl
@[simp] theorem State.respond_draws (r : Response) (s : State) : (s.respond r).draws = s.draws := rfl

/-! ### `abort` -/

@[simp] theorem State.abort_params (c : Status) (x : ErrorInfo) (s : State) : (s.abort c x).params = s.params := rfl
@[simp] theorem State.abort_state (c : Status) (x : ErrorInfo) (s : State) : (s.abort c x).state = s.state := rfl
@[simp] theorem State.abort_fault (c : Status) (x : ErrorInfo) (s : State) : (s.abort c x).fault = s.fault.record c := rfl
@[simp] theorem State.abort_pins (c : Status) (x : ErrorInfo) (s : State) : (s.abort c x).pins = s.pins := rfl
@[simp] theorem State.abort_lines (c : Status) (x : ErrorInfo) (s : State) : (s.abort c x).lines = s.lines := rfl
@[simp] theorem State.abort_busOwned (c : Status) (x : ErrorInfo) (s : State) : (s.abort c x).busOwned = s.busOwned := rfl
@[simp] theorem State.abort_pc (c : Status) (x : ErrorInfo) (s : State) : (s.abort c x).pc = .idle := rfl
@[simp] theorem State.abort_planeIdx (c : Status) (x : ErrorInfo) (s : State) : (s.abort c x).planeIdx = s.planeIdx := rfl
@[simp] theorem State.abort_byteIdx (c : Status) (x : ErrorInfo) (s : State) : (s.abort c x).byteIdx = s.byteIdx := rfl
@[simp] theorem State.abort_pollCnt (c : Status) (x : ErrorInfo) (s : State) : (s.abort c x).pollCnt = s.pollCnt := rfl
@[simp] theorem State.abort_operand (c : Status) (x : ErrorInfo) (s : State) : (s.abort c x).operand = s.operand := rfl
@[simp] theorem State.abort_host (c : Status) (x : ErrorInfo) (s : State) : (s.abort c x).host = s.host := rfl
@[simp] theorem State.abort_responses (c : Status) (x : ErrorInfo) (s : State) : (s.abort c x).responses = s.responses ++ [⟨c, x⟩] := rfl
@[simp] theorem State.abort_trace (c : Status) (x : ErrorInfo) (s : State) : (s.abort c x).trace = s.trace := rfl
@[simp] theorem State.abort_run (c : Status) (x : ErrorInfo) (s : State) : (s.abort c x).run = s.run := rfl
@[simp] theorem State.abort_inputs (c : Status) (x : ErrorInfo) (s : State) : (s.abort c x).inputs = s.inputs := rfl
@[simp] theorem State.abort_draws (c : Status) (x : ErrorInfo) (s : State) : (s.abort c x).draws = s.draws := rfl

/-! ### `setSub` -/

@[simp] theorem State.setSub_params (n : Nat) (s : State) : (s.setSub n).params = s.params := rfl
@[simp] theorem State.setSub_state (n : Nat) (s : State) : (s.setSub n).state = s.state := rfl
@[simp] theorem State.setSub_fault (n : Nat) (s : State) : (s.setSub n).fault = s.fault := rfl
@[simp] theorem State.setSub_pins (n : Nat) (s : State) : (s.setSub n).pins = s.pins := rfl
@[simp] theorem State.setSub_lines (n : Nat) (s : State) : (s.setSub n).lines = s.lines := rfl
@[simp] theorem State.setSub_busOwned (n : Nat) (s : State) : (s.setSub n).busOwned = s.busOwned := rfl
@[simp] theorem State.setSub_pc (n : Nat) (s : State) : (s.setSub n).pc = s.pc.setSub n := rfl
@[simp] theorem State.setSub_planeIdx (n : Nat) (s : State) : (s.setSub n).planeIdx = s.planeIdx := rfl
@[simp] theorem State.setSub_byteIdx (n : Nat) (s : State) : (s.setSub n).byteIdx = s.byteIdx := rfl
@[simp] theorem State.setSub_pollCnt (n : Nat) (s : State) : (s.setSub n).pollCnt = s.pollCnt := rfl
@[simp] theorem State.setSub_operand (n : Nat) (s : State) : (s.setSub n).operand = s.operand := rfl
@[simp] theorem State.setSub_host (n : Nat) (s : State) : (s.setSub n).host = s.host := rfl
@[simp] theorem State.setSub_responses (n : Nat) (s : State) : (s.setSub n).responses = s.responses := rfl
@[simp] theorem State.setSub_trace (n : Nat) (s : State) : (s.setSub n).trace = s.trace := rfl
@[simp] theorem State.setSub_run (n : Nat) (s : State) : (s.setSub n).run = s.run := rfl
@[simp] theorem State.setSub_inputs (n : Nat) (s : State) : (s.setSub n).inputs = s.inputs := rfl
@[simp] theorem State.setSub_draws (n : Nat) (s : State) : (s.setSub n).draws = s.draws := rfl

/-! ### `enter` -/

@[simp] theorem State.enter_params (op : HostOp) (k : Nat) (s : State) : (State.enter op k s).params = s.params := rfl
@[simp] theorem State.enter_state (op : HostOp) (k : Nat) (s : State) : (State.enter op k s).state = s.state := rfl
@[simp] theorem State.enter_fault (op : HostOp) (k : Nat) (s : State) : (State.enter op k s).fault = s.fault := rfl
@[simp] theorem State.enter_pins (op : HostOp) (k : Nat) (s : State) : (State.enter op k s).pins = s.pins := rfl
@[simp] theorem State.enter_lines (op : HostOp) (k : Nat) (s : State) : (State.enter op k s).lines = s.lines := rfl
@[simp] theorem State.enter_busOwned (op : HostOp) (k : Nat) (s : State) : (State.enter op k s).busOwned = s.busOwned := rfl
@[simp] theorem State.enter_pc (op : HostOp) (k : Nat) (s : State) : (State.enter op k s).pc = .running op k 0 := rfl
@[simp] theorem State.enter_planeIdx (op : HostOp) (k : Nat) (s : State) : (State.enter op k s).planeIdx = (if op.streams && k == 2 then 0 else if op.streams && k == 4 then 1 else s.planeIdx) := rfl
@[simp] theorem State.enter_byteIdx (op : HostOp) (k : Nat) (s : State) : (State.enter op k s).byteIdx = (if inByteLoop op k then 0 else s.byteIdx) := rfl
@[simp] theorem State.enter_pollCnt (op : HostOp) (k : Nat) (s : State) : (State.enter op k s).pollCnt = s.pollCnt := rfl
@[simp] theorem State.enter_operand (op : HostOp) (k : Nat) (s : State) : (State.enter op k s).operand = s.operand := rfl
@[simp] theorem State.enter_host (op : HostOp) (k : Nat) (s : State) : (State.enter op k s).host = s.host := rfl
@[simp] theorem State.enter_responses (op : HostOp) (k : Nat) (s : State) : (State.enter op k s).responses = s.responses := rfl
@[simp] theorem State.enter_trace (op : HostOp) (k : Nat) (s : State) : (State.enter op k s).trace = s.trace := rfl
@[simp] theorem State.enter_run (op : HostOp) (k : Nat) (s : State) : (State.enter op k s).run = s.run := rfl
@[simp] theorem State.enter_inputs (op : HostOp) (k : Nat) (s : State) : (State.enter op k s).inputs = s.inputs := rfl
@[simp] theorem State.enter_draws (op : HostOp) (k : Nat) (s : State) : (State.enter op k s).draws = s.draws := rfl

/-! ### `startOp` -/

@[simp] theorem startOp_params (op : HostOp) (b : Buffer) (s : State) : (startOp op b s).params = s.params := rfl
@[simp] theorem startOp_state (op : HostOp) (b : Buffer) (s : State) : (startOp op b s).state = s.state := rfl
@[simp] theorem startOp_fault (op : HostOp) (b : Buffer) (s : State) : (startOp op b s).fault = s.fault := rfl
@[simp] theorem startOp_pins (op : HostOp) (b : Buffer) (s : State) : (startOp op b s).pins = s.pins := rfl
@[simp] theorem startOp_lines (op : HostOp) (b : Buffer) (s : State) : (startOp op b s).lines = s.lines := rfl
@[simp] theorem startOp_busOwned (op : HostOp) (b : Buffer) (s : State) : (startOp op b s).busOwned = s.busOwned := rfl
@[simp] theorem startOp_pc (op : HostOp) (b : Buffer) (s : State) : (startOp op b s).pc = .running op 0 0 := rfl
@[simp] theorem startOp_planeIdx (op : HostOp) (b : Buffer) (s : State) : (startOp op b s).planeIdx = s.planeIdx := rfl
@[simp] theorem startOp_byteIdx (op : HostOp) (b : Buffer) (s : State) : (startOp op b s).byteIdx = s.byteIdx := rfl
@[simp] theorem startOp_pollCnt (op : HostOp) (b : Buffer) (s : State) : (startOp op b s).pollCnt = s.pollCnt := rfl
@[simp] theorem startOp_operand (op : HostOp) (b : Buffer) (s : State) : (startOp op b s).operand = (if op.streams then Memory.snapshot b else s.operand) := rfl
@[simp] theorem startOp_host (op : HostOp) (b : Buffer) (s : State) : (startOp op b s).host = s.host := rfl
@[simp] theorem startOp_responses (op : HostOp) (b : Buffer) (s : State) : (startOp op b s).responses = s.responses := rfl
@[simp] theorem startOp_trace (op : HostOp) (b : Buffer) (s : State) : (startOp op b s).trace = s.trace := rfl
@[simp] theorem startOp_run (op : HostOp) (b : Buffer) (s : State) : (startOp op b s).run = s.run := rfl
@[simp] theorem startOp_inputs (op : HostOp) (b : Buffer) (s : State) : (startOp op b s).inputs = s.inputs := rfl
@[simp] theorem startOp_draws (op : HostOp) (b : Buffer) (s : State) : (startOp op b s).draws = s.draws := rfl

/-! ### `blockReset` -/

@[simp] theorem State.blockReset_params (s : State) : s.blockReset.params = s.params := rfl
@[simp] theorem State.blockReset_state (s : State) : s.blockReset.state = .unpowered := rfl
@[simp] theorem State.blockReset_fault (s : State) : s.blockReset.fault = .none := rfl
@[simp] theorem State.blockReset_pins (s : State) : s.blockReset.pins = ⟨.low, .low, .low⟩ := rfl
@[simp] theorem State.blockReset_lines (s : State) : s.blockReset.lines = s.linesAfterReset := rfl
@[simp] theorem State.blockReset_busOwned (s : State) : s.blockReset.busOwned = true := rfl
@[simp] theorem State.blockReset_pc (s : State) : s.blockReset.pc = .idle := rfl
@[simp] theorem State.blockReset_planeIdx (s : State) : s.blockReset.planeIdx = 0 := rfl
@[simp] theorem State.blockReset_byteIdx (s : State) : s.blockReset.byteIdx = 0 := rfl
@[simp] theorem State.blockReset_pollCnt (s : State) : s.blockReset.pollCnt = 0 := rfl
@[simp] theorem State.blockReset_operand (s : State) : s.blockReset.operand = [] := rfl
@[simp] theorem State.blockReset_host (s : State) : s.blockReset.host = s.host := rfl
@[simp] theorem State.blockReset_responses (s : State) : s.blockReset.responses = s.responses := rfl
@[simp] theorem State.blockReset_trace (s : State) : s.blockReset.trace = s.trace := rfl
@[simp] theorem State.blockReset_run (s : State) : s.blockReset.run = ⟨s.responses.length, s.trace.length, s.linesAfterReset⟩ := rfl
@[simp] theorem State.blockReset_inputs (s : State) : s.blockReset.inputs = s.inputs := rfl
@[simp] theorem State.blockReset_draws (s : State) : s.blockReset.draws = (if s.resetExpected then s.draws else s.draws + 1) := rfl

/-! ### `drawn` -/

@[simp] theorem State.drawn_params (s : State) : s.drawn.params = s.params := by unfold State.drawn; split <;> rfl
@[simp] theorem State.drawn_state (s : State) : s.drawn.state = s.state := by unfold State.drawn; split <;> rfl
@[simp] theorem State.drawn_fault (s : State) : s.drawn.fault = s.fault := by unfold State.drawn; split <;> rfl
@[simp] theorem State.drawn_pins (s : State) : s.drawn.pins = s.pins := by unfold State.drawn; split <;> rfl
@[simp] theorem State.drawn_lines (s : State) : s.drawn.lines = s.lines := by unfold State.drawn; split <;> rfl
@[simp] theorem State.drawn_busOwned (s : State) : s.drawn.busOwned = s.busOwned := by unfold State.drawn; split <;> rfl
@[simp] theorem State.drawn_pc (s : State) : s.drawn.pc = s.pc := by unfold State.drawn; split <;> rfl
@[simp] theorem State.drawn_planeIdx (s : State) : s.drawn.planeIdx = s.planeIdx := by unfold State.drawn; split <;> rfl
@[simp] theorem State.drawn_byteIdx (s : State) : s.drawn.byteIdx = s.byteIdx := by unfold State.drawn; split <;> rfl
@[simp] theorem State.drawn_pollCnt (s : State) : s.drawn.pollCnt = s.pollCnt := by unfold State.drawn; split <;> rfl
@[simp] theorem State.drawn_operand (s : State) : s.drawn.operand = s.operand := by unfold State.drawn; split <;> rfl
@[simp] theorem State.drawn_host (s : State) : s.drawn.host = s.host := by unfold State.drawn; split <;> rfl
@[simp] theorem State.drawn_responses (s : State) : s.drawn.responses = s.responses := by unfold State.drawn; split <;> rfl
@[simp] theorem State.drawn_trace (s : State) : s.drawn.trace = s.trace := by unfold State.drawn; split <;> rfl
@[simp] theorem State.drawn_run (s : State) : s.drawn.run = s.run := by unfold State.drawn; split <;> rfl

theorem State.drawn_inputs (s : State) : s.drawn.inputs = s.inputs.tail := by
  unfold State.drawn; split <;> simp_all

theorem State.drawn_draws (s : State) : s.drawn.draws = if s.inputs = [] then s.draws + 1 else s.draws := by
  unfold State.drawn; split <;> simp_all

/-! ### `afterAnswers` -/

@[simp] theorem State.afterAnswers_params (n : Nat) (s : State) : (s.afterAnswers n).params = s.params := rfl
@[simp] theorem State.afterAnswers_state (n : Nat) (s : State) : (s.afterAnswers n).state = s.state := rfl
@[simp] theorem State.afterAnswers_fault (n : Nat) (s : State) : (s.afterAnswers n).fault = s.fault := rfl
@[simp] theorem State.afterAnswers_pins (n : Nat) (s : State) : (s.afterAnswers n).pins = s.pins := rfl
@[simp] theorem State.afterAnswers_lines (n : Nat) (s : State) : (s.afterAnswers n).lines = s.lines := rfl
@[simp] theorem State.afterAnswers_busOwned (n : Nat) (s : State) : (s.afterAnswers n).busOwned = s.busOwned := rfl
@[simp] theorem State.afterAnswers_pc (n : Nat) (s : State) : (s.afterAnswers n).pc = s.pc := rfl
@[simp] theorem State.afterAnswers_planeIdx (n : Nat) (s : State) : (s.afterAnswers n).planeIdx = s.planeIdx := rfl
@[simp] theorem State.afterAnswers_byteIdx (n : Nat) (s : State) : (s.afterAnswers n).byteIdx = s.byteIdx := rfl
@[simp] theorem State.afterAnswers_pollCnt (n : Nat) (s : State) : (s.afterAnswers n).pollCnt = s.pollCnt := rfl
@[simp] theorem State.afterAnswers_operand (n : Nat) (s : State) : (s.afterAnswers n).operand = s.operand := rfl
@[simp] theorem State.afterAnswers_host (n : Nat) (s : State) : (s.afterAnswers n).host = s.host := rfl
@[simp] theorem State.afterAnswers_responses (n : Nat) (s : State) : (s.afterAnswers n).responses = s.responses := rfl
@[simp] theorem State.afterAnswers_trace (n : Nat) (s : State) : (s.afterAnswers n).trace = s.trace := rfl
@[simp] theorem State.afterAnswers_run (n : Nat) (s : State) : (s.afterAnswers n).run = s.run := rfl
@[simp] theorem State.afterAnswers_inputs (n : Nat) (s : State) : (s.afterAnswers n).inputs = s.inputs.drop n := rfl
@[simp] theorem State.afterAnswers_draws (n : Nat) (s : State) :
    (s.afterAnswers n).draws = s.draws + (n - s.inputs.length) := rfl

/-! ### `startWait` -/

@[simp] theorem startWait_params (s : State) : (startWait s).params = s.params := by unfold startWait; split <;> rfl
@[simp] theorem startWait_state (s : State) : (startWait s).state = s.state := by unfold startWait; split <;> rfl
@[simp] theorem startWait_fault (s : State) : (startWait s).fault = s.fault := by unfold startWait; split <;> rfl
@[simp] theorem startWait_pins (s : State) : (startWait s).pins = s.pins := by unfold startWait; split <;> rfl
@[simp] theorem startWait_lines (s : State) : (startWait s).lines = s.lines := by unfold startWait; split <;> rfl
@[simp] theorem startWait_busOwned (s : State) : (startWait s).busOwned = s.busOwned := by unfold startWait; split <;> rfl
@[simp] theorem startWait_pc (s : State) : (startWait s).pc = s.pc := by unfold startWait; split <;> rfl
@[simp] theorem startWait_planeIdx (s : State) : (startWait s).planeIdx = s.planeIdx := by unfold startWait; split <;> rfl
@[simp] theorem startWait_byteIdx (s : State) : (startWait s).byteIdx = s.byteIdx := by unfold startWait; split <;> rfl
@[simp] theorem startWait_operand (s : State) : (startWait s).operand = s.operand := by unfold startWait; split <;> rfl
@[simp] theorem startWait_host (s : State) : (startWait s).host = s.host := by unfold startWait; split <;> rfl
@[simp] theorem startWait_responses (s : State) : (startWait s).responses = s.responses := by unfold startWait; split <;> rfl
@[simp] theorem startWait_trace (s : State) : (startWait s).trace = s.trace := by unfold startWait; split <;> rfl
@[simp] theorem startWait_run (s : State) : (startWait s).run = s.run := by unfold startWait; split <;> rfl
@[simp] theorem startWait_inputs (s : State) : (startWait s).inputs = s.inputs := by unfold startWait; split <;> rfl
@[simp] theorem startWait_draws (s : State) : (startWait s).draws = s.draws := by unfold startWait; split <;> rfl
@[simp] theorem startWait_pollCnt (s : State) : (startWait s).pollCnt = if s.pc.sub = 0 then 0 else s.pollCnt := by
  unfold startWait; split <;> rfl

/-! ### `advance` -/

@[simp] theorem State.advance_params (s : State) : s.advance.params = s.params := by
  unfold State.advance; repeat' split
  all_goals rfl
@[simp] theorem State.advance_state (s : State) : s.advance.state = s.state := by
  unfold State.advance; repeat' split
  all_goals rfl
@[simp] theorem State.advance_fault (s : State) : s.advance.fault = s.fault := by
  unfold State.advance; repeat' split
  all_goals rfl
@[simp] theorem State.advance_pins (s : State) : s.advance.pins = s.pins := by
  unfold State.advance; repeat' split
  all_goals rfl
@[simp] theorem State.advance_lines (s : State) : s.advance.lines = s.lines := by
  unfold State.advance; repeat' split
  all_goals rfl
@[simp] theorem State.advance_busOwned (s : State) : s.advance.busOwned = s.busOwned := by
  unfold State.advance; repeat' split
  all_goals rfl
@[simp] theorem State.advance_pollCnt (s : State) : s.advance.pollCnt = s.pollCnt := by
  unfold State.advance; repeat' split
  all_goals rfl
@[simp] theorem State.advance_operand (s : State) : s.advance.operand = s.operand := by
  unfold State.advance; repeat' split
  all_goals rfl
@[simp] theorem State.advance_host (s : State) : s.advance.host = s.host := by
  unfold State.advance; repeat' split
  all_goals rfl
@[simp] theorem State.advance_responses (s : State) : s.advance.responses = s.responses := by
  unfold State.advance; repeat' split
  all_goals rfl
@[simp] theorem State.advance_trace (s : State) : s.advance.trace = s.trace := by
  unfold State.advance; repeat' split
  all_goals rfl
@[simp] theorem State.advance_run (s : State) : s.advance.run = s.run := by
  unfold State.advance; repeat' split
  all_goals rfl
@[simp] theorem State.advance_inputs (s : State) : s.advance.inputs = s.inputs := by
  unfold State.advance; repeat' split
  all_goals rfl
@[simp] theorem State.advance_draws (s : State) : s.advance.draws = s.draws := by
  unfold State.advance; repeat' split
  all_goals rfl

theorem State.advance_idle (s : State) (h : s.pc = .idle) : s.advance = s := by
  simp [State.advance, h]

/-- Outside the byte loop the next micro-operation is entered. -/
theorem State.advance_next (s : State) {op : HostOp} {k sub : Nat} (h : s.pc = .running op k sub)
    (hk : inByteLoop op k = false) : s.advance = State.enter op (k + 1) s := by
  simp [State.advance, h, hk]

/-- In the byte loop, before the last byte. -/
theorem State.advance_byte (s : State) {op : HostOp} {k sub : Nat} (h : s.pc = .running op k sub)
    (hk : inByteLoop op k = true) (hb : s.byteIdx + 1 < planeBytes s.params.geometry) :
    s.advance = { s with byteIdx := s.byteIdx + 1, pc := .running op k 0 } := by
  simp [State.advance, h, hk, hb]

/-- In the byte loop, after the last byte. -/
theorem State.advance_last (s : State) {op : HostOp} {k sub : Nat} (h : s.pc = .running op k sub)
    (hk : inByteLoop op k = true) (hb : planeBytes s.params.geometry ≤ s.byteIdx + 1) :
    s.advance = State.enter op (k + 1) { s with byteIdx := s.byteIdx + 1 } := by
  simp [State.advance, h, hk, Nat.not_lt.mpr hb]

/-! ### Pins -/

@[simp] theorem Pins.get_set_same (x : Pins) (p : Pin) (v : Level) : (x.set p v).get p = v := by
  cases p <;> rfl

theorem Pins.get_set_other (x : Pins) {p q : Pin} (v : Level) (h : q ≠ p) : (x.set p v).get q = x.get q := by
  cases p <;> cases q <;> first | rfl | exact absurd rfl h

@[simp] theorem Pins.set_pwr (x : Pins) (v : Level) : x.set .pwr v = ⟨v, x.rst, x.dc⟩ := rfl
@[simp] theorem Pins.set_rst (x : Pins) (v : Level) : x.set .rst v = ⟨x.pwr, v, x.dc⟩ := rfl
@[simp] theorem Pins.set_dc (x : Pins) (v : Level) : x.set .dc v = ⟨x.pwr, x.rst, v⟩ := rfl

/-! ### The sequencer position and the fault register -/

/-- The position is made of three fields. -/
theorem State.position_congr {s t : State} (hp : t.pc = s.pc) (hb : t.byteIdx = s.byteIdx) (hc : t.pollCnt = s.pollCnt) :
    t.position = s.position := by
  simp [State.position, hp, hb, hc]

@[simp] theorem State.drawn_position (s : State) : s.drawn.position = s.position :=
  State.position_congr (by simp) (by simp) (by simp)
@[simp] theorem State.setPin_position (p : Pin) (v : Level) (s : State) : (s.setPin p v).position = s.position := rfl
@[simp] theorem State.releaseBus_position (s : State) : s.releaseBus.position = s.position := rfl
@[simp] theorem State.emit_position (e : Event) (s : State) : (s.emit e).position = s.position := rfl

theorem State.position_idle (s : State) (h : s.pc = .idle) : s.position = .idle := by
  simp [State.position, h]

/-- In rows 3 and 5 of `show` (41_frame.md R92). -/
theorem State.position_byte (s : State) {op : HostOp} {k n : Nat} (h : s.pc = .running op k n)
    (hk : inByteLoop op k = true) : s.position = .running op k (.byte s.byteIdx n) := by
  simp [State.position, h, hk]

/-- In a busy-wait (10_state.md R17). -/
theorem State.position_wait (s : State) {op : HostOp} {k n : Nat} (h : s.pc = .running op k n)
    (hk : inBusyWait op k = true) : s.position = .running op k (.polls s.pollCnt) := by
  have hb : inByteLoop op k = false := by
    simp only [inBusyWait, Bool.or_eq_true, Bool.and_eq_true, beq_iff_eq] at hk
    rcases hk with ⟨rfl, -⟩ | ⟨-, rfl⟩
    · rfl
    · simp [inByteLoop]
  simp [State.position, h, hb, hk]

/-- Elsewhere (10_state.md R17). -/
theorem State.position_event (s : State) {op : HostOp} {k n : Nat} (h : s.pc = .running op k n)
    (hb : inByteLoop op k = false) (hw : inBusyWait op k = false) : s.position = .running op k (.event n) := by
  simp [State.position, h, hb, hw]


@[simp] theorem Pc.sub_idle : Pc.sub .idle = 0 := rfl
@[simp] theorem Pc.sub_running (op : HostOp) (k n : Nat) : Pc.sub (.running op k n) = n := rfl
@[simp] theorem Pc.setSub_idle (n : Nat) : Pc.setSub n .idle = .idle := rfl
@[simp] theorem Pc.setSub_running (op : HostOp) (k m n : Nat) :
    Pc.setSub n (.running op k m) = .running op k n := rfl
@[simp] theorem FaultReg.record_none (c : Status) : FaultReg.record .none c = c.sticky := rfl

theorem FaultReg.record_sticky (f : FaultReg) (c : Status) (h : f ≠ .none) : f.record c = f := by
  cases f <;> first | rfl | exact absurd rfl h

end Sys2Proof.Machine
end

