-- ==== Sys2Proof/Laws/Ops.lean ====
section
/-! SUPPORT. One spec lemma per shared operation: what each event does when it completes and when it fails, what every
piece of a running operation keeps, and what runs in which no event fails leave. -/

namespace Sys2Proof.Machine

/-! ### Flows -/

@[simp] theorem Flow.then_go (s : State) (k : State → Flow) : (Flow.go s).then k = k s := rfl
@[simp] theorem Flow.then_halt (s : State) (k : State → Flow) : (Flow.halt s).then k = .halt s := rfl
@[simp] theorem Flow.state_go (s : State) : (Flow.go s).state = s := rfl
@[simp] theorem Flow.state_halt (s : State) : (Flow.halt s).state = s := rfl

theorem Flow.then_assoc (f : Flow) (g h : State → Flow) : (f.then g).then h = f.then fun s => (g s).then h := by
  cases f <;> rfl

/-! ### Events: completed and failed -/

theorem pinWrite_completes (p : Pin) (v : Level) (s : State) (h : s.answer.completes = true) :
    pinWrite p v s = .go ((s.drawn.setPin p v).emit (.pinWrite p v true)) := by
  simp [pinWrite, h]

theorem pinWrite_fails (p : Pin) (v : Level) (s : State) (h : s.answer.completes = false) :
    pinWrite p v s
      = failEvent (.pinWrite p v false) (if s.answer.took then s.drawn.setPin p v else s.drawn) := by
  simp [pinWrite, h]

theorem busSend_completes (b : Byte) (s : State) (h : s.answer.completes = true) :
    busSend b s = .go (s.drawn.emit (.busSend b true)) := by
  simp [busSend, h]

theorem busSend_fails (b : Byte) (s : State) (h : s.answer.completes = false) :
    busSend b s = failEvent (.busSend b false) s.drawn := by
  simp [busSend, h]

theorem busRelease_completes (s : State) (h : s.answer.completes = true) :
    busRelease s = .go (s.drawn.releaseBus.emit (.busRelease true)) := by
  simp [busRelease, h]

theorem busRelease_fails (s : State) (h : s.answer.completes = false) :
    busRelease s
      = failEvent (.busRelease false) (if s.answer.took then s.drawn.releaseBus else s.drawn) := by
  simp [busRelease, h]

theorem delayHold_elapses (s : State) (h : s.answer.completes = true) :
    delayHold s = .go (s.drawn.emit (.delay s.params.tHoldNs true)) := by
  simp [delayHold, h]

theorem delayHold_interrupted (s : State) (h : s.answer.completes = false) :
    delayHold s
      = .halt ((s.drawn.emit (.delay s.params.tHoldNs false)).abort .interrupted (.position s.position)) := by
  simp [delayHold, h]

@[simp] theorem startWait_answer (s : State) : (startWait s).answer = s.answer := by
  simp [State.answer]

/-- The wait state of a poll: `poll_cnt` cleared at the start, one answer used up. -/
def pollBase (s : State) : State := (startWait s).drawn

@[simp] theorem pollBase_pc (s : State) : (pollBase s).pc = s.pc := by simp [pollBase]
@[simp] theorem pollBase_params (s : State) : (pollBase s).params = s.params := by simp [pollBase]

theorem busyPoll_low (s : State) (h : s.answer.completes = true) (hb : s.answer.busy = .low) :
    busyPoll s = .go ((pollBase s).emit (.busyRead (some .low))) := by
  simp [busyPoll, pollBase, h, hb]

theorem busyPoll_high_waits (s : State) (h : s.answer.completes = true) (hb : s.answer.busy = .high)
    (ht : timedOut s.params.busyTimeoutPolls ((pollBase s).pollCnt + 1) = false) :
    busyPoll s
      = .halt (((pollBase s).countPoll.emit (.busyRead (some .high))).setSub 1) := by
  simp [pollBase] at ht
  simp [busyPoll, pollBase, h, hb, ht]

theorem busyPoll_high_times_out (s : State) (h : s.answer.completes = true) (hb : s.answer.busy = .high)
    (ht : timedOut s.params.busyTimeoutPolls ((pollBase s).pollCnt + 1) = true) :
    busyPoll s
      = .halt (((pollBase s).countPoll.emit (.busyRead (some .high))).abort
          .busyTimeout (.position (pollBase s).countPoll.position)) := by
  simp [pollBase] at ht
  simp [busyPoll, pollBase, h, hb, ht]

theorem busyPoll_fails (s : State) (h : s.answer.completes = false) :
    busyPoll s = failEvent (.busyRead none) (pollBase s) := by
  simp [busyPoll, pollBase, h]

theorem sendFrame_resumed (dc : Level) (b : Byte) (s : State) (h : s.pc.sub ≠ 0) :
    sendFrame dc b s = busSend b s := by
  simp [sendFrame, h]

theorem sendFrame_start (dc : Level) (b : Byte) (s : State) (h : s.pc.sub = 0) :
    sendFrame dc b s = (pinWrite .dc dc s).then fun t => busSend b (t.setSub 1) := by
  simp [sendFrame, h, Flow.then_assoc]

/-! ### What every piece of a running operation keeps -/

/-- What no event, no micro-operation and no operation ever does: change the parameters, the host's actions, the buffer or
the start of the run, take back an event or a response, clear `fault`, or take back an answer. -/
structure Keeps (s t : State) : Prop where
  params : t.params = s.params
  host : t.host = s.host
  operand : t.operand = s.operand
  run : t.run = s.run
  trace : s.trace <+: t.trace
  responses : s.responses <+: t.responses
  fault : s.fault ≠ .none → t.fault = s.fault
  draws : s.draws ≤ t.draws

theorem Keeps.refl (s : State) : Keeps s s :=
  ⟨rfl, rfl, rfl, rfl, List.prefix_rfl, List.prefix_rfl, fun _ => rfl, Nat.le_refl _⟩

theorem Keeps.trans {s t u : State} (h : Keeps s t) (k : Keeps t u) : Keeps s u :=
  ⟨k.params.trans h.params, k.host.trans h.host, k.operand.trans h.operand, k.run.trans h.run,
    h.trace.trans k.trace, h.responses.trans k.responses, fun hf => by
      have h1 := h.fault hf
      rw [k.fault (h1 ▸ hf), h1], h.draws.trans k.draws⟩

theorem drawn_keeps (s : State) : Keeps s s.drawn := by
  refine ⟨by simp, by simp, by simp, by simp, by simp, by simp, fun _ => by simp, ?_⟩
  rw [State.drawn_draws]; split <;> omega

theorem emit_keeps (e : Event) (s : State) : Keeps s (s.emit e) :=
  ⟨rfl, rfl, rfl, rfl, List.prefix_append _ _, List.prefix_rfl, fun _ => rfl, Nat.le_refl _⟩

theorem setPin_keeps (p : Pin) (v : Level) (s : State) : Keeps s (s.setPin p v) :=
  ⟨rfl, rfl, rfl, rfl, List.prefix_rfl, List.prefix_rfl, fun _ => rfl, Nat.le_refl _⟩

theorem respond_keeps (r : Response) (s : State) : Keeps s (s.respond r) :=
  ⟨rfl, rfl, rfl, rfl, List.prefix_rfl, List.prefix_append _ _, fun _ => rfl, Nat.le_refl _⟩

theorem abort_keeps (c : Status) (x : ErrorInfo) (s : State) : Keeps s (s.abort c x) :=
  ⟨rfl, rfl, rfl, rfl, List.prefix_rfl, List.prefix_append _ _, fun h => FaultReg.record_sticky _ _ h, Nat.le_refl _⟩

theorem setSub_keeps (n : Nat) (s : State) : Keeps s (s.setSub n) :=
  ⟨rfl, rfl, rfl, rfl, List.prefix_rfl, List.prefix_rfl, fun _ => rfl, Nat.le_refl _⟩

theorem startWait_keeps (s : State) : Keeps s (startWait s) := by
  refine ⟨?_, ?_, ?_, ?_, ?_, ?_, ?_, ?_⟩ <;> simp

theorem advance_keeps (s : State) : Keeps s s.advance := by
  refine ⟨?_, ?_, ?_, ?_, ?_, ?_, ?_, ?_⟩ <;> simp

theorem failEvent_keeps (e : Event) (s : State) : Keeps s (failEvent e s).state :=
  (emit_keeps e s).trans (abort_keeps _ _ _)

/-- A state that differs in registers only. -/
theorem Keeps.of_eq {s t : State} (hp : t.params = s.params) (hh : t.host = s.host) (ho : t.operand = s.operand)
    (hu : t.run = s.run) (ht : t.trace = s.trace) (hr : t.responses = s.responses) (hf : t.fault = s.fault) (hd : t.draws = s.draws) :
    Keeps s t :=
  ⟨hp, hh, ho, hu, ht ▸ List.prefix_rfl, hr ▸ List.prefix_rfl, fun _ => hf, hd ▸ Nat.le_refl _⟩

theorem setState_keeps (v : SeqState) (s : State) : Keeps s (s.setState v) := Keeps.of_eq rfl rfl rfl rfl rfl rfl rfl rfl

theorem releaseBus_keeps (s : State) : Keeps s s.releaseBus := Keeps.of_eq rfl rfl rfl rfl rfl rfl rfl rfl

theorem pinWrite_keeps (p : Pin) (v : Level) (s : State) : Keeps s (pinWrite p v s).state := by
  cases h : s.answer.completes with
  | true =>
    rw [pinWrite_completes p v s h]
    exact ((drawn_keeps s).trans (setPin_keeps p v _)).trans (emit_keeps _ _)
  | false =>
    rw [pinWrite_fails p v s h]
    refine Keeps.trans ?_ (failEvent_keeps _ _)
    split
    · exact (drawn_keeps s).trans (setPin_keeps p v _)
    · exact drawn_keeps s

theorem busSend_keeps (b : Byte) (s : State) : Keeps s (busSend b s).state := by
  cases h : s.answer.completes with
  | true => rw [busSend_completes b s h]; exact (drawn_keeps s).trans (emit_keeps _ _)
  | false => rw [busSend_fails b s h]; exact (drawn_keeps s).trans (failEvent_keeps _ _)

theorem busRelease_keeps (s : State) : Keeps s (busRelease s).state := by
  cases h : s.answer.completes with
  | true =>
    rw [busRelease_completes s h]
    exact ((drawn_keeps s).trans (releaseBus_keeps _)).trans (emit_keeps _ _)
  | false =>
    rw [busRelease_fails s h]
    refine Keeps.trans ?_ (failEvent_keeps _ _)
    split
    · exact (drawn_keeps s).trans (releaseBus_keeps _)
    · exact drawn_keeps s

theorem delayHold_keeps (s : State) : Keeps s (delayHold s).state := by
  cases h : s.answer.completes with
  | true => rw [delayHold_elapses s h]; exact (drawn_keeps s).trans (emit_keeps _ _)
  | false =>
    rw [delayHold_interrupted s h]
    exact ((drawn_keeps s).trans (emit_keeps _ _)).trans (abort_keeps _ _ _)

theorem pollBase_keeps (s : State) : Keeps s (pollBase s) := (startWait_keeps s).trans (drawn_keeps _)

theorem busyPoll_keeps (s : State) : Keeps s (busyPoll s).state := by
  have hb := pollBase_keeps s
  have hc : Keeps s (pollBase s).countPoll :=
    hb.trans (Keeps.of_eq rfl rfl rfl rfl rfl rfl rfl rfl)
  cases h : s.answer.completes with
  | false => rw [busyPoll_fails s h]; exact hb.trans (failEvent_keeps _ _)
  | true =>
    cases hl : s.answer.busy with
    | low => rw [busyPoll_low s h hl]; exact hb.trans (emit_keeps _ _)
    | high =>
      cases ht : timedOut s.params.busyTimeoutPolls ((pollBase s).pollCnt + 1) with
      | false => rw [busyPoll_high_waits s h hl ht]; exact (hc.trans (emit_keeps _ _)).trans (setSub_keeps _ _)
      | true => rw [busyPoll_high_times_out s h hl ht]; exact (hc.trans (emit_keeps _ _)).trans (abort_keeps _ _ _)

/-- What a flow keeps, what follows it keeps. -/
theorem Keeps.then {s : State} {f : Flow} {k : State → Flow} (hf : Keeps s f.state)
    (hk : ∀ t, Keeps t (k t).state) : Keeps s (f.then k).state := by
  cases f with
  | go t => exact hf.trans (hk t)
  | halt t => exact hf

theorem sendFrame_keeps (dc : Level) (b : Byte) (s : State) : Keeps s (sendFrame dc b s).state := by
  by_cases h : s.pc.sub = 0
  · rw [sendFrame_start dc b s h]
    exact (pinWrite_keeps _ _ s).then fun t => (setSub_keeps 1 t).trans (busSend_keeps b _)
  · rw [sendFrame_resumed dc b s h]; exact busSend_keeps b s

theorem streamBytes_keeps (n : Nat) (s : State) : Keeps s (streamBytes n s).state := by
  induction n generalizing s with
  | zero => exact Keeps.refl s
  | succ n ih => exact (sendFrame_keeps _ _ s).then fun t => (advance_keeps t).trans (ih _)

theorem runMicro_keeps (m : MicroOp) (s : State) : Keeps s (runMicro m s).state := by
  cases m with
  | pw p v => exact (pinWrite_keeps p v s).then advance_keeps
  | dl => exact (delayHold_keeps s).then advance_keeps
  | bw => exact (busyPoll_keeps s).then advance_keeps
  | sc o => exact (sendFrame_keeps .low o s).then advance_keeps
  | sd b => exact (sendFrame_keeps .high b s).then advance_keeps
  | stream => exact streamBytes_keeps _ s
  | br => exact (busRelease_keeps s).then advance_keeps
  | st v => exact (setState_keeps v s).trans (advance_keeps _)
  | chk =>
    simp only [runMicro]
    split
    · exact advance_keeps s
    · exact respond_keeps _ s

theorem runList_keeps (l : List MicroOp) (s : State) : Keeps s (runList l s).state := by
  induction l generalizing s with
  | nil => exact Keeps.refl s
  | cons m l ih => exact (runMicro_keeps m s).then ih

theorem runToEnd_keeps (l : List MicroOp) (s : State) : Keeps s (runToEnd l s).state :=
  (runList_keeps l s).then fun t => respond_keeps _ t

/-! ### Lists of micro-operations -/

@[simp] theorem runList_nil (s : State) : runList [] s = .go s := rfl

theorem runList_cons (m : MicroOp) (l : List MicroOp) (s : State) :
    runList (m :: l) s = (runMicro m s).then (runList l) := rfl

theorem runList_append (l k : List MicroOp) (s : State) :
    runList (l ++ k) s = (runList l s).then (runList k) := by
  induction l generalizing s with
  | nil => rfl
  | cons m l ih => simp only [List.cons_append, runList_cons, Flow.then_assoc]; congr 1; funext t; exact ih t

/-! ### Runs in which no event fails -/

theorem State.answer_congr {s t : State} (hi : t.inputs = s.inputs) (hd : t.draws = s.draws) :
    t.answer = s.answer := by
  simp [State.answer, hi, hd]

/-- The next answer is the first of the answers to come. -/
theorem State.answerAt_zero (s : State) : s.answerAt 0 = s.answer := by
  cases h : s.inputs <;> simp [State.answerAt, State.answer, h]

/-- Using up one answer leaves the others. -/
theorem State.drawn_eq (s : State) : s.drawn = s.afterAnswers 1 := by
  unfold State.drawn State.afterAnswers
  split
  · next h => simp [h]
  · next h => simp [h]

theorem State.answerAt_after (n i : Nat) (s : State) : (s.afterAnswers n).answerAt i = s.answerAt (n + i) := by
  simp only [State.answerAt, State.afterAnswers, List.getElem?_drop, List.length_drop]
  by_cases h : n + i < s.inputs.length
  · simp [List.getElem?_eq_getElem h]
  · rw [List.getElem?_eq_none (by omega)]
    simp only [Option.getD_none]
    congr 1; omega

theorem State.afterAnswers_zero (s : State) : s.afterAnswers 0 = s := by
  simp [State.afterAnswers]

theorem State.afterAnswers_add (m n : Nat) (s : State) :
    (s.afterAnswers m).afterAnswers n = s.afterAnswers (m + n) := by
  simp only [State.afterAnswers, List.drop_drop, List.length_drop, State.mk.injEq, true_and]
  omega

/-- The premise depends on the environment's answers alone. -/
theorem State.smooth_congr {n : Nat} {s t : State} (hi : t.inputs = s.inputs) (hd : t.draws = s.draws) :
    t.smooth n ↔ s.smooth n := by
  simp [State.smooth, State.answerAt, hi, hd]

theorem State.smooth.mono {m n : Nat} {s : State} (h : s.smooth n) (hm : m ≤ n) : s.smooth m :=
  fun i hi => h i (Nat.lt_of_lt_of_le hi hm)

theorem State.smooth.rest {m n k : Nat} {s : State} (h : s.smooth k) (hk : m + n ≤ k) :
    (s.afterAnswers m).smooth n := fun i hi => by
  rw [State.answerAt_after]; exact h _ (by omega)

theorem State.smooth.completes {n : Nat} {s : State} (h : s.smooth n) (hn : 0 < n) : s.answer.completes = true := by
  rw [← State.answerAt_zero]; exact (h 0 hn).1

theorem State.smooth.low {n : Nat} {s : State} (h : s.smooth n) (hn : 0 < n) : s.answer.busy = .low := by
  rw [← State.answerAt_zero]; exact (h 0 hn).2

theorem State.smooth.noFail {n : Nat} {s : State} (h : s.smooth n) : s.noFail n := fun i hi => (h i hi).1

theorem State.noFail_congr {n : Nat} {s t : State} (hi : t.inputs = s.inputs) (hd : t.draws = s.draws) :
    t.noFail n ↔ s.noFail n := by
  simp [State.noFail, State.answerAt, hi, hd]

theorem State.noFail.mono {m n : Nat} {s : State} (h : s.noFail n) (hm : m ≤ n) : s.noFail m :=
  fun i hi => h i (Nat.lt_of_lt_of_le hi hm)

theorem State.noFail.rest {m n k : Nat} {s : State} (h : s.noFail k) (hk : m + n ≤ k) :
    (s.afterAnswers m).noFail n := fun i hi => by
  rw [State.answerAt_after]; exact h _ (by omega)

theorem State.noFail.completes {n : Nat} {s : State} (h : s.noFail n) (hn : 0 < n) : s.answer.completes = true := by
  rw [← State.answerAt_zero]; exact h 0 hn

/-- A frame none of whose two events fails (43_primitives.md R110, R111). -/
theorem sendFrame_noFail (dc : Level) (b : Byte) (s : State) (h : s.noFail 2) (hs : s.pc.sub = 0) :
    sendFrame dc b s
      = .go { s.afterAnswers 2 with
              pins := s.pins.set .dc dc
              lines := s.lines.set .dc dc
              pc := s.pc.setSub 1
              trace := s.trace ++ frameEvents dc b } := by
  have h1 := h.completes (by omega)
  have h2 : (((s.drawn.setPin .dc dc).emit (.pinWrite .dc dc true)).setSub 1).answer.completes = true := by
    rw [State.answer_congr (s := s.afterAnswers 1) (by simp [State.drawn_eq]) (by simp [State.drawn_eq])]
    exact (h.rest (m := 1) (n := 1) (by omega)).completes (by omega)
  rw [sendFrame_start dc b s hs, pinWrite_completes _ _ _ h1, Flow.then_go, busSend_completes _ _ h2, State.drawn_eq,
    State.drawn_eq]
  congr 1
  simp only [State.afterAnswers, State.emit, State.setPin, State.setSub, frameEvents, List.drop_drop, List.length_drop,
    List.append_assoc, List.cons_append, List.nil_append, State.mk.injEq, true_and]
  omega

theorem sendFrame_smooth (dc : Level) (b : Byte) (s : State) (h : s.smooth 2) (hs : s.pc.sub = 0) :
    sendFrame dc b s
      = .go { s.afterAnswers 2 with
              pins := s.pins.set .dc dc
              lines := s.lines.set .dc dc
              pc := s.pc.setSub 1
              trace := s.trace ++ frameEvents dc b } := sendFrame_noFail dc b s h.noFail hs

end Sys2Proof.Machine
end

