-- ==== Sys2Proof/Laws/AsShow.lean ====
section
/-! SUPPORT. Reading the name of `clearDisplay` as `show` (41_frame.md R94) commutes with every shared operation of the
sequencer, up to a whole list of micro-operations. -/

namespace Sys2Proof.Machine

/-- The host operation with the name of `clearDisplay` read as `show`. -/
def HostOp.asShow : HostOp → HostOp
  | .initOp => .initOp
  | .showOp => .showOp
  | .clearOp => .showOp
  | .sleepOp => .sleepOp
  | .powerOffOp => .powerOffOp

/-- The response with that name read so in its diagnosis. -/
def Response.asShow (r : Response) : Response := ⟨r.status, r.info.asShow⟩

/-- A flow with that name read so in the state it leaves. -/
def Flow.asShow : Flow → Flow
  | .go s => .go s.asShow
  | .halt s => .halt s.asShow

@[simp] theorem Flow.asShow_go (s : State) : (Flow.go s).asShow = .go s.asShow := rfl
@[simp] theorem Flow.asShow_halt (s : State) : (Flow.halt s).asShow = .halt s.asShow := rfl

theorem Flow.asShow_state (f : Flow) : f.asShow.state = f.state.asShow := by cases f <;> rfl

theorem Flow.asShow_then {f g : Flow} {k l : State → Flow} (hf : f.asShow = g) (h : ∀ s, (k s).asShow = l s.asShow) :
    (f.then k).asShow = g.then l := by
  subst hf
  cases f with
  | go s => exact h s
  | halt s => rfl

@[simp] theorem HostOp.asShow_streams (op : HostOp) : op.asShow.streams = op.streams := by cases op <;> rfl
@[simp] theorem inByteLoop_asShow (op : HostOp) (k : Nat) : inByteLoop op.asShow k = inByteLoop op k := by
  simp [inByteLoop]
@[simp] theorem program_asShow (p : Params) (op : HostOp) : program p op.asShow = program p op := by cases op <;> rfl

@[simp] theorem Pc.asShow_idle : Pc.asShow .idle = .idle := rfl
@[simp] theorem Pc.asShow_running (op : HostOp) (k n : Nat) :
    Pc.asShow (.running op k n) = .running op.asShow k n := by cases op <;> rfl
@[simp] theorem Pc.asShow_sub (p : Pc) : p.asShow.sub = p.sub := by cases p <;> simp
@[simp] theorem Pc.asShow_setSub (n : Nat) (p : Pc) : (p.setSub n).asShow = p.asShow.setSub n := by cases p <;> simp
@[simp] theorem Pc.asShow_asShow (p : Pc) : p.asShow.asShow = p.asShow := by
  rcases p with _ | ⟨_ | _ | _ | _ | _, _, _⟩ <;> rfl
@[simp] theorem Position.asShow_asShow (p : Position) : p.asShow.asShow = p.asShow := by
  rcases p with _ | ⟨_ | _ | _ | _ | _, _, _⟩ <;> rfl
@[simp] theorem ErrorInfo.asShow_asShow (x : ErrorInfo) : x.asShow.asShow = x.asShow := by
  cases x <;> simp [ErrorInfo.asShow]

@[simp] theorem State.asShow_params (s : State) : s.asShow.params = s.params := rfl
@[simp] theorem State.asShow_state (s : State) : s.asShow.state = s.state := rfl
@[simp] theorem State.asShow_fault (s : State) : s.asShow.fault = s.fault := rfl
@[simp] theorem State.asShow_pins (s : State) : s.asShow.pins = s.pins := rfl
@[simp] theorem State.asShow_lines (s : State) : s.asShow.lines = s.lines := rfl
@[simp] theorem State.asShow_busOwned (s : State) : s.asShow.busOwned = s.busOwned := rfl
@[simp] theorem State.asShow_pc (s : State) : s.asShow.pc = s.pc.asShow := rfl
@[simp] theorem State.asShow_planeIdx (s : State) : s.asShow.planeIdx = s.planeIdx := rfl
@[simp] theorem State.asShow_byteIdx (s : State) : s.asShow.byteIdx = s.byteIdx := rfl
@[simp] theorem State.asShow_pollCnt (s : State) : s.asShow.pollCnt = s.pollCnt := rfl
@[simp] theorem State.asShow_operand (s : State) : s.asShow.operand = s.operand := rfl
@[simp] theorem State.asShow_host (s : State) : s.asShow.host = s.host := rfl
@[simp] theorem State.asShow_responses (s : State) : s.asShow.responses = s.responses.map Response.asShow := rfl
@[simp] theorem State.asShow_trace (s : State) : s.asShow.trace = s.trace := rfl
@[simp] theorem State.asShow_run (s : State) : s.asShow.run = s.run := rfl
@[simp] theorem State.asShow_inputs (s : State) : s.asShow.inputs = s.inputs := rfl
@[simp] theorem State.asShow_draws (s : State) : s.asShow.draws = s.draws := rfl

@[simp] theorem State.asShow_asShow (s : State) : s.asShow.asShow = s.asShow := by
  simp [State.asShow, Function.comp_def]

@[simp] theorem State.asShow_answer (s : State) : s.asShow.answer = s.answer := rfl
theorem State.asShow_position (s : State) : s.asShow.position = s.position.asShow := by
  unfold State.position
  rw [State.asShow_pc]
  rcases s.pc with _ | ⟨_ | _ | _ | _ | _, k, n⟩ <;> rfl
@[simp] theorem State.asShow_resetExpected (s : State) : s.asShow.resetExpected = s.resetExpected := rfl
@[simp] theorem State.asShow_linesAfterReset (s : State) : s.asShow.linesAfterReset = s.linesAfterReset := rfl
theorem State.asShow_blockReset (s : State) : s.blockReset.asShow = s.asShow.blockReset := by
  simp [State.blockReset, State.asShow, State.reset, State.resetExpected, State.linesAfterReset]
theorem State.asShow_drawn (s : State) : s.drawn.asShow = s.asShow.drawn := by
  unfold State.drawn
  rw [State.asShow_inputs]
  split <;> rfl
theorem State.asShow_emit (e : Event) (s : State) : (s.emit e).asShow = s.asShow.emit e := rfl
theorem State.asShow_setPin (p : Pin) (v : Level) (s : State) : (s.setPin p v).asShow = s.asShow.setPin p v := rfl
theorem State.asShow_setState (v : SeqState) (s : State) : (s.setState v).asShow = s.asShow.setState v := rfl
theorem State.asShow_releaseBus (s : State) : s.releaseBus.asShow = s.asShow.releaseBus := rfl
theorem State.asShow_countPoll (s : State) : s.countPoll.asShow = s.asShow.countPoll := rfl
theorem State.asShow_setSub (n : Nat) (s : State) : (s.setSub n).asShow = s.asShow.setSub n := by
  simp [State.asShow, State.setSub]
theorem State.asShow_respond (r : Response) (s : State) : (s.respond r).asShow = s.asShow.respond r.asShow := by
  simp [State.asShow, State.respond, Response.asShow]
theorem State.asShow_abort (c : Status) (x : ErrorInfo) (s : State) :
    (s.abort c x).asShow = s.asShow.abort c x.asShow := by
  rw [State.abort, State.asShow_respond]; rfl

theorem asShow_failEvent (e : Event) (s : State) : (failEvent e s).asShow = failEvent e s.asShow := by
  rw [failEvent, failEvent, Flow.asShow_halt, State.asShow_abort, State.asShow_emit, State.asShow_position]; rfl

theorem asShow_pinWrite (p : Pin) (v : Level) (s : State) : (pinWrite p v s).asShow = pinWrite p v s.asShow := by
  cases h : s.answer.completes with
  | true =>
    rw [pinWrite_completes p v s h, pinWrite_completes p v s.asShow h, Flow.asShow_go, State.asShow_emit,
      State.asShow_setPin, State.asShow_drawn]
  | false =>
    rw [pinWrite_fails p v s h, pinWrite_fails p v s.asShow h, asShow_failEvent, apply_ite State.asShow,
      State.asShow_setPin, State.asShow_drawn, State.asShow_answer]

theorem asShow_busSend (b : Byte) (s : State) : (busSend b s).asShow = busSend b s.asShow := by
  cases h : s.answer.completes with
  | true =>
    rw [busSend_completes b s h, busSend_completes b s.asShow h, Flow.asShow_go, State.asShow_emit, State.asShow_drawn]
  | false => rw [busSend_fails b s h, busSend_fails b s.asShow h, asShow_failEvent, State.asShow_drawn]

theorem asShow_busRelease (s : State) : (busRelease s).asShow = busRelease s.asShow := by
  cases h : s.answer.completes with
  | true =>
    rw [busRelease_completes s h, busRelease_completes s.asShow h, Flow.asShow_go, State.asShow_emit,
      State.asShow_releaseBus, State.asShow_drawn]
  | false =>
    rw [busRelease_fails s h, busRelease_fails s.asShow h, asShow_failEvent, apply_ite State.asShow,
      State.asShow_releaseBus, State.asShow_drawn, State.asShow_answer]

theorem asShow_delayHold (s : State) : (delayHold s).asShow = delayHold s.asShow := by
  cases h : s.answer.completes with
  | true =>
    rw [delayHold_elapses s h, delayHold_elapses s.asShow h, Flow.asShow_go, State.asShow_emit, State.asShow_drawn]
    rfl
  | false =>
    rw [delayHold_interrupted s h, delayHold_interrupted s.asShow h, Flow.asShow_halt, State.asShow_abort,
      State.asShow_emit, State.asShow_drawn, State.asShow_position]
    rfl

theorem asShow_startWait (s : State) : (startWait s).asShow = startWait s.asShow := by
  simp only [startWait, State.asShow_pc, Pc.asShow_sub]
  split <;> rfl

theorem asShow_busyPoll (s : State) : (busyPoll s).asShow = busyPoll s.asShow := by
  cases h : s.answer.completes with
  | false =>
    rw [busyPoll_fails s h, busyPoll_fails s.asShow h, asShow_failEvent, pollBase, State.asShow_drawn, asShow_startWait]
    rfl
  | true =>
    have hb : pollBase s.asShow = (pollBase s).asShow := by
      rw [pollBase, pollBase, State.asShow_drawn, asShow_startWait]
    cases hl : s.answer.busy with
    | low => rw [busyPoll_low s h hl, busyPoll_low s.asShow h hl, hb]; rfl
    | high =>
      cases ht : timedOut s.params.busyTimeoutPolls ((pollBase s).pollCnt + 1) with
      | false =>
        rw [busyPoll_high_waits s h hl ht, busyPoll_high_waits s.asShow h hl (by rw [hb]; exact ht), hb,
          Flow.asShow_halt, State.asShow_setSub]
        rfl
      | true =>
        rw [busyPoll_high_times_out s h hl ht, busyPoll_high_times_out s.asShow h hl (by rw [hb]; exact ht), hb,
          Flow.asShow_halt, State.asShow_abort, ← State.asShow_countPoll, State.asShow_position]
        rfl

theorem asShow_sendFrame (dc : Level) (b : Byte) (s : State) : (sendFrame dc b s).asShow = sendFrame dc b s.asShow := by
  by_cases h : s.pc.sub = 0
  · rw [sendFrame_start dc b s h, sendFrame_start dc b s.asShow (by simpa using h)]
    exact Flow.asShow_then (asShow_pinWrite _ _ s) fun t => by rw [asShow_busSend, State.asShow_setSub]
  · rw [sendFrame_resumed dc b s h, sendFrame_resumed dc b s.asShow (by simpa using h), asShow_busSend]

theorem asShow_enter (op : HostOp) (k : Nat) (s : State) : (State.enter op k s).asShow = State.enter op.asShow k s.asShow := by
  simp [State.enter, State.asShow]

theorem asShow_advance (s : State) : s.advance.asShow = s.asShow.advance := by
  cases hp : s.pc with
  | idle => rw [State.advance_idle s hp, State.advance_idle s.asShow (by simp [hp])]
  | running op k sub =>
    have hq : s.asShow.pc = .running op.asShow k sub := by simp [hp]
    cases hk : inByteLoop op k with
    | false => rw [State.advance_next s hp hk, State.advance_next s.asShow hq (by simpa using hk), asShow_enter]
    | true =>
      by_cases hb : s.byteIdx + 1 < planeBytes s.params.geometry
      · rw [State.advance_byte s hp hk hb, State.advance_byte s.asShow hq (by simpa using hk) hb]
        simp [State.asShow]
      · rw [State.advance_last s hp hk (by omega), State.advance_last s.asShow hq (by simpa using hk) (by simp; omega),
          asShow_enter]
        rfl

theorem asShow_streamBytes (n : Nat) (s : State) : (streamBytes n s).asShow = streamBytes n s.asShow := by
  induction n generalizing s with
  | zero => rfl
  | succ n ih =>
    exact Flow.asShow_then (asShow_sendFrame _ _ s) fun t => by rw [ih, asShow_advance]

/-- The responses of the checks name a plane, not a position. -/
theorem checkBuffer_asShow {g : Geometry} {b : Buffer} {r : Response} (h : checkBuffer g b = some r) : r.asShow = r := by
  simp only [checkBuffer, checkPlanes, planeOrder] at h
  repeat' split at h
  all_goals first | (cases h; rfl) | cases h

theorem asShow_runMicro (m : MicroOp) (s : State) : (runMicro m s).asShow = runMicro m s.asShow := by
  have adv : ∀ t : State, (Flow.go t.advance).asShow = .go t.asShow.advance := fun t => by
    rw [Flow.asShow_go, asShow_advance]
  cases m with
  | pw p v => exact Flow.asShow_then (asShow_pinWrite p v s) adv
  | dl => exact Flow.asShow_then (asShow_delayHold s) adv
  | bw => exact Flow.asShow_then (asShow_busyPoll s) adv
  | sc o => exact Flow.asShow_then (asShow_sendFrame .low o s) adv
  | sd b => exact Flow.asShow_then (asShow_sendFrame .high b s) adv
  | stream => exact asShow_streamBytes _ s
  | br => exact Flow.asShow_then (asShow_busRelease s) adv
  | st v => exact adv (s.setState v)
  | chk =>
    simp only [runMicro, State.asShow_params, State.asShow_operand]
    split
    · exact adv s
    · next r hr => rw [Flow.asShow_halt, State.asShow_respond, checkBuffer_asShow hr]

theorem asShow_runList (l : List MicroOp) (s : State) : (runList l s).asShow = runList l s.asShow := by
  induction l generalizing s with
  | nil => rfl
  | cons m l ih => exact Flow.asShow_then (asShow_runMicro m s) ih

theorem asShow_runToEnd (l : List MicroOp) (s : State) : (runToEnd l s).asShow = runToEnd l s.asShow :=
  Flow.asShow_then (asShow_runList l s) fun t => by rw [Flow.asShow_halt, State.asShow_respond]; rfl

end Sys2Proof.Machine
end

