-- ==== Sys2Proof/Laws/Decode.lean ====
section
/-! SUPPORT. Lemmas about frames and the command table: the fields of a frame, and the command an opcode byte names. -/

namespace Sys2Proof

@[simp] theorem Frame.dc_mkFrame (d : Level) (b : Byte) : Frame.dc (mkFrame d b) = d := by
  cases d <;> revert b <;> decide

@[simp] theorem Frame.byte_mkFrame (d : Level) (b : Byte) : Frame.byte (mkFrame d b) = b := by
  cases d <;> revert b <;> decide

/-- A frame is its two fields (30_encoding.md R54). -/
theorem Frame.eta (f : Frame) : mkFrame (Frame.dc f) (Frame.byte f) = f := by
  revert f; decide

theorem ChipCommand.mem_all (c : ChipCommand) : c ∈ ChipCommand.all := by
  cases c <;> decide

theorem CommandTable.opcode_mem (t : CommandTable) (c : ChipCommand) : t.opcode c ∈ t.codes :=
  List.mem_map_of_mem (ChipCommand.mem_all c)

/-- Distinct codes name distinct commands (30_encoding.md R57). -/
theorem CommandTable.opcode_injective {t : CommandTable} (h : t.distinct = true) {c d : ChipCommand}
    (e : t.opcode c = t.opcode d) : c = d :=
  List.inj_on_of_nodup_map (of_decide_eq_true h) (ChipCommand.mem_all c) (ChipCommand.mem_all d) e

/-- What `command?` finds has that opcode. -/
theorem CommandTable.command?_some {t : CommandTable} {b : Byte} {c : ChipCommand} (h : t.command? b = some c) :
    t.opcode c = b := by
  simpa using List.find?_some h

/-- `command?` finds nothing exactly for the bytes that are no opcode. -/
theorem CommandTable.command?_none {t : CommandTable} {b : Byte} : t.command? b = none ↔ b ∉ t.codes := by
  simp [CommandTable.command?, CommandTable.codes]

/-- The opcode of a command names it, when the codes are distinct. -/
theorem CommandTable.command?_opcode {t : CommandTable} (h : t.distinct = true) (c : ChipCommand) :
    t.command? (t.opcode c) = some c := by
  cases hc : t.command? (t.opcode c) with
  | none => exact absurd (t.opcode_mem c) (CommandTable.command?_none.mp hc)
  | some d => rw [CommandTable.opcode_injective h (CommandTable.command?_some hc)]

/-- The frame of a chip command decodes to it. -/
theorem decodeFrame_command {t : CommandTable} (h : t.distinct = true) (c : ChipCommand) :
    decodeFrame t (mkFrame .low (t.opcode c)) = .ok c.instr := by
  simp [decodeFrame, CommandTable.command?_opcode h c]

theorem decodeFrame_data (t : CommandTable) (b : Byte) : decodeFrame t (mkFrame .high b) = .ok (.data b) := by
  simp [decodeFrame]

end Sys2Proof
end

