-- ==== Sys2Proof/Laws/Memory.lean ====
section
/-! SUPPORT. The buffer: every operation that builds one gives the canonical form, what a snapshot holds, what a read gives,
and what the checks of `show` say. -/

namespace Sys2Proof.Machine

/-- A snapshot, by what the buffer has for the two planes. -/
theorem Memory.snapshot_eq (b : Buffer) :
    Memory.snapshot b = ((bufFind .primary b).map fun l => (PlaneId.primary, l)).toList
      ++ ((bufFind .accent b).map fun l => (PlaneId.accent, l)).toList := by
  cases h : bufFind .primary b <;> cases k : bufFind .accent b <;>
    simp [Memory.snapshot, planeOrder, List.filterMap, h, k]

/-- Taking the snapshot of an operand gives memory in canonical form. -/
theorem Memory.snapshot_wf (b : Buffer) : Memory.wf (Memory.snapshot b) = true := by
  rw [Memory.snapshot_eq]
  cases bufFind .primary b <;> cases bufFind .accent b <;>
    simp [Memory.wf, Buffer.canonical, PlaneId.rank, planeOrder]

/-- So does the constant buffer BLANK, and so does no buffer at all. -/
theorem Memory.blank_wf (g : Geometry) : Memory.wf (blank g) = true := by
  simp [blank, planeOrder, Memory.wf, Buffer.canonical, PlaneId.rank]

theorem Memory.empty_wf : Memory.wf [] = true := rfl

/-- A snapshot has what the buffer has for the planes of `PLANES`. -/
theorem bufFind_snapshot (p : PlaneId) (b : Buffer) (h : p ∈ planeOrder) :
    bufFind p (Memory.snapshot b) = bufFind p b := by
  rw [Memory.snapshot_eq]
  simp only [planeOrder, List.mem_cons, List.not_mem_nil, or_false] at h
  rcases h with rfl | rfl <;>
    cases hp : bufFind .primary b <;> cases ha : bufFind .accent b <;> simp [bufFind]

/-- Reads of a snapshot give the buffer's bytes (20_memory.md R46). -/
theorem memRead_snapshot (p : PlaneId) (i : Nat) (b : Buffer) (h : p ∈ planeOrder) :
    memRead p i (Memory.snapshot b) = memRead p i b := by
  simp [memRead, bufFind_snapshot p b h]

@[simp] theorem bufFind_blank_primary (g : Geometry) :
    bufFind .primary (blank g) = some (List.replicate (planeBytes g) 0xFF#8) := rfl

@[simp] theorem bufFind_blank_accent (g : Geometry) :
    bufFind .accent (blank g) = some (List.replicate (planeBytes g) 0x00#8) := rfl

/-- BLANK is its own snapshot. -/
@[simp] theorem Memory.snapshot_blank (g : Geometry) : Memory.snapshot (blank g) = blank g := by
  simp [Memory.snapshot_eq, blank, planeOrder, blankByte, bufFind]

/-- A read inside a plane that is there gives its byte; the address space ends with the plane (20_memory.md R31). -/
theorem memRead_of_find {p : PlaneId} {b : Buffer} {l : List Byte} (h : bufFind p b = some l) (i : Nat) :
    memRead p i b = l[i]? := by
  simp [memRead, h]

/-- The checks of `show` pass exactly when both planes are there at the right length (41_frame.md R91). -/
theorem checkBuffer_none (g : Geometry) (b : Buffer) :
    checkBuffer g b = none ↔ ∃ l m, bufFind .primary b = some l ∧ l.length = planeBytes g
      ∧ bufFind .accent b = some m ∧ m.length = planeBytes g := by
  cases h : bufFind .primary b with
  | none => simp [checkBuffer, checkPlanes, planeOrder, bufHas, h]
  | some l =>
    by_cases hl : l.length = planeBytes g
    · cases k : bufFind .accent b with
      | none => simp [checkBuffer, checkPlanes, planeOrder, bufHas, bufLen, h, k, hl]
      | some m => by_cases hm : m.length = planeBytes g <;>
          simp [checkBuffer, checkPlanes, planeOrder, bufHas, bufLen, h, k, hl, hm]
    · simp [checkBuffer, checkPlanes, planeOrder, bufHas, bufLen, h, hl]

/-- The checks look at the planes of `PLANES` only, so a snapshot passes when the buffer does. -/
theorem checkBuffer_snapshot (g : Geometry) (b : Buffer) : checkBuffer g (Memory.snapshot b) = checkBuffer g b := by
  have hp := bufFind_snapshot .primary b (by decide)
  have ha := bufFind_snapshot .accent b (by decide)
  simp only [checkBuffer, checkPlanes, planeOrder, bufHas, bufLen, hp, ha]
  rfl

end Sys2Proof.Machine
end

