-- ==== Sys2Proof/Laws/PerInstr.lean ====
section
/-! SUPPORT. The per-instruction family `RoundTrip`: decoding the encoding of an instruction gives it back, under every
command table with distinct codes; one lemma per constructor of Instr (30_encoding.md R51, R54, R56). -/

namespace Sys2Proof.Laws.RoundTrip

/-- Decode of encode is the instruction. -/
def Statement (i : Instr) : Prop := ∀ t : CommandTable, t.distinct = true → decode t (encode t i) = .ok i

theorem opInitialize : Statement .opInitialize := fun _ _ => rfl
theorem opHardReset : Statement .opHardReset := fun _ _ => rfl
theorem opSoftReset : Statement .opSoftReset := fun _ _ => rfl
theorem opBusyWait : Statement .opBusyWait := fun _ _ => rfl
theorem opShow (b : Buffer) : Statement (.opShow b) := fun _ _ => rfl
theorem opClearDisplay : Statement .opClearDisplay := fun _ _ => rfl
theorem opSleep : Statement .opSleep := fun _ _ => rfl
theorem opPowerOff : Statement .opPowerOff := fun _ _ => rfl
theorem opSendCommand (o : Byte) : Statement (.opSendCommand o) := fun _ _ => rfl
theorem opSendData (b : Byte) : Statement (.opSendData b) := fun _ _ => rfl
theorem reserved10 : Statement .reserved10 := fun _ _ => rfl
theorem reserved11 : Statement .reserved11 := fun _ _ => rfl
theorem reserved12 : Statement .reserved12 := fun _ _ => rfl
theorem reserved13 : Statement .reserved13 := fun _ _ => rfl
theorem reserved14 : Statement .reserved14 := fun _ _ => rfl
theorem reserved15 : Statement .reserved15 := fun _ _ => rfl
theorem cmdSoftReset : Statement .cmdSoftReset := fun _ h => decodeFrame_command h .softReset
theorem cmdDataEntryMode : Statement .cmdDataEntryMode := fun _ h => decodeFrame_command h .dataEntryMode
theorem cmdSetXWindow : Statement .cmdSetXWindow := fun _ h => decodeFrame_command h .setXWindow
theorem cmdSetYWindow : Statement .cmdSetYWindow := fun _ h => decodeFrame_command h .setYWindow
theorem cmdUpdateControl : Statement .cmdUpdateControl := fun _ h => decodeFrame_command h .updateControl
theorem cmdSetXCounter : Statement .cmdSetXCounter := fun _ h => decodeFrame_command h .setXCounter
theorem cmdSetYCounter : Statement .cmdSetYCounter := fun _ h => decodeFrame_command h .setYCounter
theorem cmdSelectPrimary : Statement .cmdSelectPrimary := fun _ h => decodeFrame_command h .selectPrimary
theorem cmdSelectAccent : Statement .cmdSelectAccent := fun _ h => decodeFrame_command h .selectAccent
theorem cmdRefresh : Statement .cmdRefresh := fun _ h => decodeFrame_command h .refresh
theorem cmdSleep : Statement .cmdSleep := fun _ h => decodeFrame_command h .deepSleep
theorem data (b : Byte) : Statement (.data b) := fun t _ => decodeFrame_data t b

end Sys2Proof.Laws.RoundTrip
end

