-- ==== Sys2Proof/Laws/RunEnd.lean ====
section
/-! SUPPORT. When a run is over, what a block reset leaves of the lines, and what running operations keep of a run. -/

namespace Sys2Proof.Machine

theorem State.requestLeft_iff (s : State) : s.requestLeft = true ↔ ∃ c o rest, s.host = .request c o :: rest := by
  unfold State.requestLeft
  split <;> simp [*]

theorem State.runOver_iff (s : State) : s.runOver = true ↔ s.pc = .idle ∧ s.requestLeft = false := by
  simp [State.runOver]

/-- While an operation runs the run is not over. -/
theorem State.runOver_running {s : State} {op : HostOp} {k n : Nat} (h : s.pc = .running op k n) : s.runOver = false := by
  simp [State.runOver, h]

theorem State.clean_iff (s : State) : s.clean = true ↔ s.runOver = true ∧ ∀ r ∈ s.runResponses, r.status = .ok := by
  simp [State.clean]

/-- A block reset where it is meant to come leaves the lines and draws nothing (70_reset_and_hazards.md R172). -/
theorem State.linesAfterReset_expected {s : State} (h : s.resetExpected = true) : s.linesAfterReset = s.lines := by
  simp [State.linesAfterReset, h]

/-- In mid-session it leaves any levels. -/
theorem State.linesAfterReset_midsession {s : State} (h : s.resetExpected = false) :
    s.linesAfterReset
      = ⟨(Config.freeLevels s.draws).1, (Config.freeLevels s.draws).2.1, (Config.freeLevels s.draws).2.2⟩ := by
  simp [State.linesAfterReset, h]

/-- What a running operation adds to the logs it adds to the run, whose start lies inside them. -/
theorem Keeps.runTrace {s t : State} (h : Keeps s t) (hs : s.run.events ≤ s.trace.length) : s.runTrace <+: t.runTrace := by
  obtain ⟨E, hE⟩ := h.trace
  exact ⟨E, by rw [State.runTrace, State.runTrace, h.run, ← hE, List.drop_append_of_le_length hs]⟩

theorem Keeps.runResponses {s t : State} (h : Keeps s t) (hs : s.run.responses ≤ s.responses.length) :
    s.runResponses <+: t.runResponses := by
  obtain ⟨E, hE⟩ := h.responses
  exact ⟨E, by rw [State.runResponses, State.runResponses, h.run, ← hE, List.drop_append_of_le_length hs]⟩

end Sys2Proof.Machine
end

