-- ==== Sys2Proof/Laws/Runs.lean ====
section
/-! SUPPORT. What each micro-operation leaves when its events complete, and what a list of frames leaves: the lemmas a
proof about a whole operation composes. -/

namespace Sys2Proof.Machine

/-- What has been done on the way from `s`: `n` answers used, events `tr` on the trace, and the registers named. -/
def State.moved (s : State) (n : Nat) (tr : List Event) (v : SeqState) (x z : Pins) (polls : Nat)
    (pc : Pc) : State :=
  { s.afterAnswers n with state := v, pins := x, lines := z, pollCnt := polls, pc := pc, trace := s.trace ++ tr }

theorem State.moved_moved (s : State) (m n : Nat) (tr ur : List Event) (v w : SeqState) (x z y y' : Pins)
    (p q : Nat) (c d : Pc) :
    (s.moved m tr v x z p c).moved n ur w y y' q d = s.moved (m + n) (tr ++ ur) w y y' q d := by
  simp only [State.moved, State.afterAnswers, List.drop_drop, List.length_drop, List.append_assoc, State.mk.injEq,
    true_and]
  omega

theorem State.noFail.moved {s : State} {m n k : Nat} {tr : List Event} {v : SeqState} {x z : Pins} {p : Nat} {c : Pc}
    (h : s.noFail k) (hk : m + n ≤ k) : (s.moved m tr v x z p c).noFail n :=
  (State.noFail_congr rfl rfl).mpr (h.rest hk)

/-- The answers to come after `m` have been used. -/
theorem State.answerAt_moved (s : State) (m i : Nat) (tr : List Event) (v : SeqState) (x z : Pins) (p : Nat) (c : Pc) :
    (s.moved m tr v x z p c).answerAt i = s.answerAt (m + i) := s.answerAt_after m i

theorem State.answer_moved (s : State) (m : Nat) (tr : List Event) (v : SeqState) (x z : Pins) (p : Nat) (c : Pc) :
    (s.moved m tr v x z p c).answer = s.answerAt m := by
  rw [← State.answerAt_zero]; exact s.answerAt_moved m 0 tr v x z p c

@[simp] theorem State.moved_params (s : State) (n : Nat) (tr : List Event) (v : SeqState) (x z : Pins) (p : Nat) (c : Pc) :
    (s.moved n tr v x z p c).params = s.params := by simp [State.moved]
@[simp] theorem State.moved_state (s : State) (n : Nat) (tr : List Event) (v : SeqState) (x z : Pins) (p : Nat) (c : Pc) :
    (s.moved n tr v x z p c).state = v := rfl
@[simp] theorem State.moved_pins (s : State) (n : Nat) (tr : List Event) (v : SeqState) (x z : Pins) (p : Nat) (c : Pc) :
    (s.moved n tr v x z p c).pins = x := rfl
@[simp] theorem State.moved_lines (s : State) (n : Nat) (tr : List Event) (v : SeqState) (x z : Pins) (p : Nat) (c : Pc) :
    (s.moved n tr v x z p c).lines = z := rfl
@[simp] theorem State.moved_pollCnt (s : State) (n : Nat) (tr : List Event) (v : SeqState) (x z : Pins) (p : Nat)
    (c : Pc) : (s.moved n tr v x z p c).pollCnt = p := rfl
@[simp] theorem State.moved_pc (s : State) (n : Nat) (tr : List Event) (v : SeqState) (x z : Pins) (p : Nat) (c : Pc) :
    (s.moved n tr v x z p c).pc = c := rfl

/-- An operation that streams nothing enters a micro-operation by its position alone. -/
theorem State.enter_plain (op : HostOp) (k : Nat) (s : State) (h : op.streams = false) :
    State.enter op k s = { s with pc := .running op k 0 } := by
  simp [State.enter, inByteLoop, h]

theorem inByteLoop_plain (op : HostOp) (k : Nat) (h : op.streams = false) : inByteLoop op k = false := by
  simp [inByteLoop, h]

theorem State.advance_plain (s : State) {op : HostOp} {k sub : Nat} (h : s.pc = .running op k sub)
    (ho : op.streams = false) : s.advance = { s with pc := .running op (k + 1) 0 } := by
  rw [State.advance_next s h (inByteLoop_plain op k ho), State.enter_plain op _ s ho]

section plain
variable {s : State} {op : HostOp} {k sub : Nat}

theorem runMicro_pw_noFail (p : Pin) (v : Level) (h : s.noFail 1) (hp : s.pc = .running op k sub)
    (ho : op.streams = false) :
    runMicro (.pw p v) s
      = .go (s.moved 1 [.pinWrite p v true] s.state (s.pins.set p v) (s.lines.set p v) s.pollCnt (.running op (k + 1) 0)) := by
  simp only [runMicro, pinWrite_completes p v s (h.completes Nat.one_pos), Flow.then_go]
  rw [State.advance_plain (op := op) (k := k) (sub := sub) _ (by simpa using hp) ho]
  simp [State.moved, State.drawn_eq, State.afterAnswers, State.emit, State.setPin]

theorem runMicro_dl_noFail (h : s.noFail 1) (hp : s.pc = .running op k sub) (ho : op.streams = false) :
    runMicro .dl s
      = .go (s.moved 1 [.delay s.params.tHoldNs true] s.state s.pins s.lines s.pollCnt (.running op (k + 1) 0)) := by
  simp only [runMicro, delayHold_elapses s (h.completes Nat.one_pos), Flow.then_go]
  rw [State.advance_plain (op := op) (k := k) (sub := sub) _ (by simpa using hp) ho]
  simp [State.moved, State.drawn_eq, State.afterAnswers, State.emit]

theorem runMicro_br_noFail (h : s.noFail 1) (hp : s.pc = .running op k sub) (ho : op.streams = false) :
    runMicro .br s
      = .go { s.moved 1 [.busRelease true] s.state s.pins s.lines s.pollCnt (.running op (k + 1) 0) with busOwned := false } := by
  simp only [runMicro, busRelease_completes s (h.completes Nat.one_pos), Flow.then_go]
  rw [State.advance_plain (op := op) (k := k) (sub := sub) _ (by simpa using hp) ho]
  simp [State.moved, State.drawn_eq, State.afterAnswers, State.emit, State.releaseBus]

/-- A poll that reads LOW ends the wait (40_init_reset_sync.md R80). -/
theorem runMicro_bw_low (h : s.noFail 1) (hb : s.answer.busy = .low) (hp : s.pc = .running op k sub)
    (ho : op.streams = false) :
    runMicro .bw s
      = .go (s.moved 1 [.busyRead (some .low)] s.state s.pins s.lines (if sub = 0 then 0 else s.pollCnt)
          (.running op (k + 1) 0)) := by
  simp only [runMicro, busyPoll_low s (h.completes Nat.one_pos) hb, Flow.then_go]
  rw [State.advance_plain (op := op) (k := k) (sub := sub) _ (by simpa [pollBase] using hp) ho]
  by_cases hs : sub = 0 <;>
    simp [State.moved, State.drawn_eq, State.afterAnswers, State.emit, pollBase, startWait, hp, hs, Pc.sub]

theorem runMicro_st_plain (v : SeqState) (hp : s.pc = .running op k sub) (ho : op.streams = false) :
    runMicro (.st v) s = .go (s.moved 0 [] v s.pins s.lines s.pollCnt (.running op (k + 1) 0)) := by
  simp only [runMicro]
  rw [State.advance_plain (op := op) (k := k) (sub := sub) _ (by simpa using hp) ho]
  simp [State.moved, State.afterAnswers, State.setState]

theorem runList_cons_go {m : MicroOp} {t : State} (h : runMicro m s = .go t) (l : List MicroOp) :
    runList (m :: l) s = runList l t := by
  rw [runList_cons, h, Flow.then_go]

theorem runList_append_go {l : List MicroOp} {t : State} (h : runList l s = .go t) (k : List MicroOp) :
    runList (l ++ k) s = runList k t := by
  rw [runList_append, h, Flow.then_go]

/-- The micro-operation of a frame. -/
def frameOp (f : Level × Byte) : MicroOp := if f.1 = .low then .sc f.2 else .sd f.2

/-- The level of `DC` after a list of frames. -/
def dcAfter (dc : Level) (l : List (Level × Byte)) : Level := l.foldl (fun _ f => f.1) dc

theorem runMicro_frame_noFail (f : Level × Byte) (h : s.noFail 2) (hp : s.pc = .running op k 0)
    (ho : op.streams = false) :
    runMicro (frameOp f) s
      = .go (s.moved 2 (frameEvents f.1 f.2) s.state (s.pins.set .dc f.1) (s.lines.set .dc f.1) s.pollCnt (.running op (k + 1) 0)) := by
  obtain ⟨dc, b⟩ := f
  have hf := sendFrame_noFail dc b s h (by simp [hp])
  cases dc <;>
    simp only [frameOp, runMicro, sendCommand, sendData, hf, Flow.then_go, reduceCtorEq, if_true, if_false] <;>
    rw [State.advance_plain (op := op) (k := k) (sub := 1) _ (by simp [hp]) ho] <;>
    simp [State.moved, State.afterAnswers]

/-- A list of frames none of whose events fails, in an operation that streams nothing. -/
theorem runList_frames_noFail (l : List (Level × Byte)) {s : State} {k : Nat} (h : s.noFail (2 * l.length))
    (hp : s.pc = .running op k 0) (ho : op.streams = false) :
    runList (l.map frameOp) s
      = .go (s.moved (2 * l.length) (l.flatMap fun f => frameEvents f.1 f.2) s.state
          (s.pins.set .dc (dcAfter s.pins.dc l)) (s.lines.set .dc (dcAfter s.lines.dc l)) s.pollCnt (.running op (k + l.length) 0)) := by
  induction l generalizing s k with
  | nil => simp [State.moved, State.afterAnswers, dcAfter, ← hp]
  | cons f l ih =>
    have hl : 2 + 2 * l.length ≤ 2 * (f :: l).length := by simp only [List.length_cons]; omega
    rw [List.map_cons, runList_cons, runMicro_frame_noFail f (h.mono (by omega)) hp ho, Flow.then_go,
      ih (h.moved hl) rfl, State.moved_moved]
    have hd : ∀ d, dcAfter d (f :: l) = dcAfter f.1 l := fun _ => rfl
    simp only [State.moved_state, State.moved_pins, State.moved_lines, State.moved_pollCnt, Pins.set_dc, List.flatMap_cons, hd]
    congr 2
    · simp only [List.length_cons]; omega
    · simp only [List.length_cons]; congr 1; omega

/-! The same from a state that has come part of the way: these compose. -/

variable {N n : Nat} {tr : List Event} {w : SeqState} {x z : Pins} {polls : Nat}

theorem moved_pw (p : Pin) (v : Level) (h : s.noFail N) (hn : n + 1 ≤ N) (ho : op.streams = false) :
    runMicro (.pw p v) (s.moved n tr w x z polls (.running op k sub))
      = .go (s.moved (n + 1) (tr ++ [.pinWrite p v true]) w (x.set p v) (z.set p v) polls (.running op (k + 1) 0)) := by
  rw [runMicro_pw_noFail p v (h.moved hn) rfl ho, State.moved_moved]; rfl

theorem moved_dl (h : s.noFail N) (hn : n + 1 ≤ N) (ho : op.streams = false) :
    runMicro .dl (s.moved n tr w x z polls (.running op k sub))
      = .go (s.moved (n + 1) (tr ++ [.delay s.params.tHoldNs true]) w x z polls (.running op (k + 1) 0)) := by
  rw [runMicro_dl_noFail (h.moved hn) rfl ho, State.moved_moved]; rfl

theorem moved_bw (h : s.noFail N) (hn : n + 1 ≤ N) (hb : (s.answerAt n).busy = .low) (ho : op.streams = false) :
    runMicro .bw (s.moved n tr w x z polls (.running op k sub))
      = .go (s.moved (n + 1) (tr ++ [.busyRead (some .low)]) w x z (if sub = 0 then 0 else polls)
          (.running op (k + 1) 0)) := by
  rw [runMicro_bw_low (h.moved hn) (by rw [State.answer_moved, hb]) rfl ho, State.moved_moved]; rfl

theorem moved_st (v : SeqState) (ho : op.streams = false) :
    runMicro (.st v) (s.moved n tr w x z polls (.running op k sub))
      = .go (s.moved n tr v x z polls (.running op (k + 1) 0)) := by
  rw [runMicro_st_plain v rfl ho, State.moved_moved, List.append_nil]; rfl

theorem moved_frames (l : List (Level × Byte)) (h : s.noFail N) (hn : n + 2 * l.length ≤ N)
    (ho : op.streams = false) :
    runList (l.map frameOp) (s.moved n tr w x z polls (.running op k 0))
      = .go (s.moved (n + 2 * l.length) (tr ++ l.flatMap fun f => frameEvents f.1 f.2) w
          (x.set .dc (dcAfter x.dc l)) (z.set .dc (dcAfter z.dc l)) polls (.running op (k + l.length) 0)) := by
  rw [runList_frames_noFail l (h.moved hn) rfl ho, State.moved_moved]; rfl

theorem moved_sc (o : Byte) (h : s.noFail N) (hn : n + 2 ≤ N) (ho : op.streams = false) :
    runMicro (.sc o) (s.moved n tr w x z polls (.running op k 0))
      = .go (s.moved (n + 2) (tr ++ frameEvents .low o) w (x.set .dc .low)
          (z.set .dc .low) polls (.running op (k + 1) 0)) := by
  have hf := runMicro_frame_noFail (s := s.moved n tr w x z polls (.running op k 0)) (.low, o) (h.moved hn) rfl ho
  rw [State.moved_moved] at hf
  exact hf

theorem moved_zero (hx : s.pc = .running op k sub) :
    s = s.moved 0 [] s.state s.pins s.lines s.pollCnt (.running op k sub) := by
  simp [State.moved, State.afterAnswers, ← hx]

end plain

/-- The micro-operations of a command are the frames of its bytes (44_chip_commands.md R119). -/
theorem commandOps_frames (p : Params) (c : ChipCommand) :
    commandOps p c
      = ((Level.low, p.opcodes.opcode c) :: (argumentBytes p.geometry c).map fun b => (Level.high, b)).map frameOp := by
  simp [commandOps, frameOp]

/-- The list of `initialize`: the start, two busy-waits, the frames of the configuration, and the end
(40_init_reset_sync.md R73). -/
theorem initOps_frames (p : Params) : initOps p
    = [.pw .pwr .high, .st .powered, .pw .rst .low, .dl, .pw .rst .high, .dl, .bw, .sc (p.opcodes.opcode .softReset), .bw,
        .st .reset]
      ++ ([(.low, p.opcodes.dataEntryMode), (.high, 0x03#8), (.low, p.opcodes.setXWindow), (.high, 0x00#8),
          (.high, xEnd p.geometry), (.low, p.opcodes.setYWindow), (.high, 0x00#8), (.high, yEndLow p.geometry),
          (.high, yEndHigh p.geometry), (.low, p.opcodes.updateControl), (.high, 0x00#8), (.high, 0x80#8),
          (.low, p.opcodes.setXCounter), (.high, 0x00#8), (.low, p.opcodes.setYCounter), (.high, 0x00#8),
          (.high, 0x00#8)] : List (Level × Byte)).map frameOp
      ++ [.bw, .st .configured, .st .idle] := by
  simp [initOps, hardResetOps, softResetOps, commandOps_frames, configurationOps, argumentBytes, CommandTable.opcode,
    frameOp]

end Sys2Proof.Machine
end

