-- ==== Sys2Proof/Laws/Stream.lean ====
section
/-! SUPPORT. The byte loop of `show` and the frames of a whole `show`, when no event fails: the lemmas a proof about
`show` or `clearDisplay` composes. -/

namespace Sys2Proof.Machine

/-- What has been done on the way from `s` in an operation that streams: as `State.moved`, with the loop registers. -/
def State.streamed (s : State) (n : Nat) (tr : List Event) (v : SeqState) (x z : Pins) (polls : Nat) (i : Fin 2)
    (j : Nat) (pc : Pc) : State :=
  { s.moved n tr v x z polls pc with planeIdx := i, byteIdx := j }

@[simp] theorem State.streamed_params (s : State) (n : Nat) (tr : List Event) (v : SeqState) (x z : Pins) (p : Nat)
    (i : Fin 2) (j : Nat) (c : Pc) : (s.streamed n tr v x z p i j c).params = s.params := by simp [State.streamed]
@[simp] theorem State.streamed_operand (s : State) (n : Nat) (tr : List Event) (v : SeqState) (x z : Pins) (p : Nat)
    (i : Fin 2) (j : Nat) (c : Pc) : (s.streamed n tr v x z p i j c).operand = s.operand := rfl
@[simp] theorem State.streamed_pc (s : State) (n : Nat) (tr : List Event) (v : SeqState) (x z : Pins) (p : Nat)
    (i : Fin 2) (j : Nat) (c : Pc) : (s.streamed n tr v x z p i j c).pc = c := rfl

theorem State.streamed_streamed (s : State) (m n : Nat) (tr ur : List Event) (v w : SeqState) (x z y y' : Pins) (p q : Nat)
    (i k : Fin 2) (j l : Nat) (c d : Pc) :
    (s.streamed m tr v x z p i j c).streamed n ur w y y' q k l d = s.streamed (m + n) (tr ++ ur) w y y' q k l d := by
  simp only [State.streamed, State.moved, State.afterAnswers, List.drop_drop, List.length_drop, List.append_assoc,
    State.mk.injEq, true_and]
  omega

theorem State.noFail.streamed {s : State} {m n k : Nat} {tr : List Event} {v : SeqState} {x z : Pins} {p : Nat}
    {i : Fin 2} {j : Nat} {c : Pc} (h : s.noFail k) (hk : m + n ≤ k) : (s.streamed m tr v x z p i j c).noFail n :=
  (State.noFail_congr rfl rfl).mpr (h.rest hk)

theorem streamed_zero {s : State} {c : Pc} (h : s.pc = c) :
    s = s.streamed 0 [] s.state s.pins s.lines s.pollCnt s.planeIdx s.byteIdx c := by
  simp [State.streamed, State.moved, State.afterAnswers, ← h]

section stream
variable {s : State} {op : HostOp} {N n polls : Nat} {tr : List Event} {w : SeqState} {x z : Pins} {i : Fin 2} {j : Nat}

theorem streamed_sendFrame (dc : Level) (b : Byte) (k : Nat) (h : s.noFail N) (hn : n + 2 ≤ N) :
    sendFrame dc b (s.streamed n tr w x z polls i j (.running op k 0))
      = .go (s.streamed (n + 2) (tr ++ frameEvents dc b) w (x.set .dc dc) (z.set .dc dc) polls i j (.running op k 1)) := by
  rw [sendFrame_noFail dc b _ (h.streamed hn) rfl, ← State.streamed_streamed s n 2 tr (frameEvents dc b) w w x z
    (x.set .dc dc) (z.set .dc dc) polls polls i i j j (.running op k 0) (.running op k 1)]
  rfl

/-- A command frame of a streaming operation. -/
theorem streamed_sc (o : Byte) (k : Nat) (h : s.noFail N) (hn : n + 2 ≤ N) (ho : inByteLoop op k = false) :
    runMicro (.sc o) (s.streamed n tr w x z polls i j (.running op k 0))
      = .go (State.enter op (k + 1)
          (s.streamed (n + 2) (tr ++ frameEvents .low o) w (x.set .dc .low)
            (z.set .dc .low) polls i j (.running op k 1))) := by
  simp only [runMicro, sendCommand, streamed_sendFrame .low o k h hn, Flow.then_go]
  rw [State.advance_next (op := op) (k := k) (sub := 1) _ rfl ho]

/-- The byte loop from byte `j` of a plane to its end (41_frame.md R92). -/
theorem streamBytes_noFail (k : Nat) (l : List Byte) (hk : inByteLoop op k = true)
    (hl : l.length = planeBytes s.params.geometry) (hf : bufFind (planeAt i) s.operand = some l) (h : s.noFail N)
    (m : Nat) (hj : j + (m + 1) = planeBytes s.params.geometry) (hn : n + 2 * (m + 1) ≤ N) :
    streamBytes (m + 1) (s.streamed n tr w x z polls i j (.running op k 0))
      = .go (State.enter op (k + 1)
          (s.streamed (n + 2 * (m + 1)) (tr ++ (l.drop j).flatMap (frameEvents .high)) w (x.set .dc .high)
            (z.set .dc .high) polls i
            (planeBytes s.params.geometry) (.running op k 1))) := by
  have hb : ∀ (n j : Nat) (tr : List Event) (x z : Pins) (hlt : j < l.length),
      (s.streamed n tr w x z polls i j (.running op k 0)).nextByte = l[j] := fun n j tr x z hlt => by
    show (memRead (planeAt i) j s.operand).getD 0#8 = _
    rw [memRead_of_find hf, List.getElem?_eq_getElem hlt]; rfl
  have hlt : j < l.length := by omega
  induction m generalizing n tr x z j with
  | zero =>
    have hd : l.drop j = [l[j]] := by
      rw [List.drop_eq_getElem_cons hlt, List.drop_eq_nil_of_le (by omega)]
    simp only [streamBytes, hb _ _ _ _ _ hlt, sendData, streamed_sendFrame .high l[j] k h (by omega : n + 2 ≤ N), Flow.then_go]
    rw [State.advance_last (op := op) (k := k) (sub := 1) _ rfl hk
      (by show planeBytes s.params.geometry ≤ j + 1; omega), hd]
    have hj' : j + 1 = planeBytes s.params.geometry := by omega
    rw [← hj']
    simp [State.streamed]
  | succ m ih =>
    rw [streamBytes, hb _ _ _ _ _ hlt, sendData, streamed_sendFrame .high l[j] k h (by omega), Flow.then_go,
      State.advance_byte (op := op) (k := k) (sub := 1) _ rfl hk
        (by show j + 1 < planeBytes s.params.geometry; omega)]
    have e : ({ s.streamed (n + 2) (tr ++ frameEvents .high l[j]) w (x.set .dc .high)
            (z.set .dc .high) polls i j (.running op k 1) with
        byteIdx := j + 1, pc := .running op k 0 } : State)
        = s.streamed (n + 2) (tr ++ frameEvents .high l[j]) w (x.set .dc .high)
            (z.set .dc .high) polls i (j + 1) (.running op k 0) := rfl
    have hx : ∀ q : Pins, (q.set .dc .high).set .dc .high = q.set .dc .high := fun _ => rfl
    have hd : l.drop j = l[j] :: l.drop (j + 1) := List.drop_eq_getElem_cons hlt
    have hc : n + 2 + 2 * (m + 1) = n + 2 * (m + 1 + 1) := by omega
    show streamBytes (m + 1) { s.streamed (n + 2) (tr ++ frameEvents .high l[j]) w (x.set .dc .high)
            (z.set .dc .high) polls i j
      (.running op k 1) with byteIdx := j + 1, pc := .running op k 0 } = _
    rw [e, ih (by omega) (by omega) (by omega), hd, hx, hx, hc, List.flatMap_cons, List.append_assoc]

end stream

/-- The frames of a whole `show`, rows 0 to 6, when the checks pass and no event fails (41_frame.md R92, R93). -/
theorem runList_show_frames {s : State} {op : HostOp} {primary accent : List Byte} (ho : op.streams = true)
    (hc : s.pc = .running op 0 0) (hpos : 0 < planeBytes s.params.geometry)
    (hp : bufFind .primary s.operand = some primary) (hpl : primary.length = planeBytes s.params.geometry)
    (ha : bufFind .accent s.operand = some accent) (hal : accent.length = planeBytes s.params.geometry)
    (h : s.noFail (4 * planeBytes s.params.geometry + 6)) (rest : List MicroOp) :
    runList ([.chk, .st .busy, .sc (s.params.opcodes.opcode .selectPrimary), .stream,
        .sc (s.params.opcodes.opcode .selectAccent), .stream, .sc (s.params.opcodes.opcode .refresh)] ++ rest) s
      = runList rest (s.streamed (4 * planeBytes s.params.geometry + 6)
          (commandEvents s.params.opcodes.selectPrimary primary ++ commandEvents s.params.opcodes.selectAccent accent
            ++ commandEvents s.params.opcodes.refresh [])
          .busy (s.pins.set .dc .low) (s.lines.set .dc .low) s.pollCnt 1 (planeBytes s.params.geometry) (.running op 7 0)) := by
  have hck : checkBuffer s.params.geometry s.operand = none :=
    (checkBuffer_none _ _).mpr ⟨primary, accent, hp, hpl, ha, hal⟩
  obtain ⟨m, hm⟩ : ∃ m, planeBytes s.params.geometry = m + 1 := ⟨_, (Nat.succ_pred_eq_of_pos hpos).symm⟩
  have hl : ∀ k, inByteLoop op k = (k == 3 || k == 5) := fun k => by simp [inByteLoop, ho]
  have e1 : runMicro .chk s = .go (s.streamed 0 [] s.state s.pins s.lines s.pollCnt s.planeIdx s.byteIdx (.running op 1 0)) := by
    simp only [runMicro, hck]
    rw [State.advance_next s hc (by rw [hl]; rfl)]
    congr 1
    conv_lhs => rw [streamed_zero hc]
    simp [State.enter, hl, State.streamed, State.moved]
  have e2 : runMicro (.st .busy) (s.streamed 0 [] s.state s.pins s.lines s.pollCnt s.planeIdx s.byteIdx (.running op 1 0))
      = .go (s.streamed 0 [] .busy s.pins s.lines s.pollCnt 0 s.byteIdx (.running op 2 0)) := by
    simp only [runMicro]
    rw [State.advance_next (op := op) (k := 1) (sub := 0) _ rfl (by rw [hl]; rfl)]
    simp [State.enter, hl, ho, State.streamed, State.setState, State.moved]
  have e3 := streamed_sc (s := s) (op := op) (n := 0) (tr := []) (w := .busy) (x := s.pins) (z := s.lines) (polls := s.pollCnt) (i := 0)
    (j := s.byteIdx) (s.params.opcodes.opcode .selectPrimary) 2 h (by omega) (by rw [hl]; rfl)
  have e3' : ∀ n tr y y', State.enter op 3 (s.streamed n tr .busy y y' s.pollCnt 0 s.byteIdx (.running op 2 1))
      = s.streamed n tr .busy y y' s.pollCnt 0 0 (.running op 3 0) := fun n tr y y' => by
    simp [State.enter, hl, State.streamed, State.moved]
  have e4' : ∀ n tr y y' j, State.enter op 4 (s.streamed n tr .busy y y' s.pollCnt 0 j (.running op 3 1))
      = s.streamed n tr .busy y y' s.pollCnt 1 j (.running op 4 0) := fun n tr y y' j => by
    simp [State.enter, hl, ho, State.streamed, State.moved]
  have e5' : ∀ n tr y y' j, State.enter op 5 (s.streamed n tr .busy y y' s.pollCnt 1 j (.running op 4 1))
      = s.streamed n tr .busy y y' s.pollCnt 1 0 (.running op 5 0) := fun n tr y y' j => by
    simp [State.enter, hl, State.streamed, State.moved]
  have e6' : ∀ n tr y y' j, State.enter op 6 (s.streamed n tr .busy y y' s.pollCnt 1 j (.running op 5 1))
      = s.streamed n tr .busy y y' s.pollCnt 1 j (.running op 6 0) := fun n tr y y' j => by
    simp [State.enter, hl, State.streamed, State.moved]
  have e7' : ∀ n tr y y' j, State.enter op 7 (s.streamed n tr .busy y y' s.pollCnt 1 j (.running op 6 1))
      = s.streamed n tr .busy y y' s.pollCnt 1 j (.running op 7 0) := fun n tr y y' j => by
    simp [State.enter, hl, State.streamed, State.moved]
  have hst : ∀ n tr y y' i k, runMicro .stream (s.streamed n tr .busy y y' s.pollCnt i 0 (.running op k 0))
      = streamBytes (m + 1) (s.streamed n tr .busy y y' s.pollCnt i 0 (.running op k 0)) := fun n tr y y' i k => by
    simp [runMicro, State.streamed, State.moved, State.afterAnswers, hm]
  simp only [List.cons_append, List.nil_append]
  rw [runList_cons_go e1, runList_cons_go e2, runList_cons_go e3, e3',
    runList_cons_go ((hst _ _ _ _ _ _).trans (streamBytes_noFail (i := 0) 3 primary (by rw [hl]; rfl) hpl hp h m (by omega)
      (by omega))), e4',
    runList_cons_go (streamed_sc _ 4 h (by omega) (by rw [hl]; rfl)), e5',
    runList_cons_go ((hst _ _ _ _ _ _).trans (streamBytes_noFail (i := 1) 5 accent (by rw [hl]; rfl) hal ha h m (by omega)
      (by omega))), e6',
    runList_cons_go (streamed_sc _ 6 h (by omega) (by rw [hl]; rfl)), e7']
  congr 1
  have hx : ∀ q : Pins, ((((q.set .dc .low).set .dc .high).set .dc .low).set .dc .high).set .dc .low = q.set .dc .low :=
    fun _ => rfl
  have hn : 0 + 2 + 2 * (m + 1) + 2 + 2 * (m + 1) + 2 = 4 * planeBytes s.params.geometry + 6 := by omega
  rw [hx, hx, hn]
  simp [commandEvents, CommandTable.opcode]

end Sys2Proof.Machine
end

