-- ==== Sys2Proof/Laws/Step.lean ====
section
/-! SUPPORT. What a step fetches, where the busy-waits stand, and runs of several steps. -/

namespace Sys2Proof.Machine

/-- While an operation runs and no block reset is at the head, the position is executed; a request waits. -/
theorem fetch_running (s : State) (op : HostOp) (k sub : Nat) (h : s.pc = .running op k sub)
    (hn : ∀ rest, s.host ≠ .blockReset :: rest) : fetch s = fetchRunning op k s := by
  unfold fetch
  rw [h]
  rcases hh : s.host with _ | ⟨_ | _, rest⟩
  · rfl
  · rfl
  · exact absurd hh (hn rest)

/-- A busy-wait stands at index 6, 8 or 27 of `initialize` or at index 7 of `show` (40_init_reset_sync.md R73,
41_frame.md R92). -/
theorem bw_position (p : Params) (op : HostOp) (k : Nat) (h : (program p op)[k]? = some .bw) :
    (op = .initOp ∧ (k = 6 ∨ k = 8 ∨ k = 27)) ∨ (op.streams = true ∧ k = 7) := by
  have hk : k < (program p op).length := (List.getElem?_eq_some_iff.mp h).1
  cases op with
  | initOp =>
    simp [program, initOps, hardResetOps, softResetOps, configurationOps, commandOps, argumentBytes] at h hk
    interval_cases k <;> simp at h ⊢
  | showOp => simp [program, showOps, HostOp.streams] at h hk ⊢; interval_cases k <;> simp at h ⊢
  | clearOp => simp [program, showOps, HostOp.streams] at h hk ⊢; interval_cases k <;> simp at h ⊢
  | sleepOp => simp [program, sleepOps, commandOps, argumentBytes] at h hk; interval_cases k <;> simp at h
  | powerOffOp => simp [program, powerOffOps] at h hk; interval_cases k <;> simp at h

/-- So the position has the poll count there (10_state.md R17). -/
theorem inBusyWait_of_bw {p : Params} {op : HostOp} {k : Nat} (h : (program p op)[k]? = some .bw) :
    inBusyWait op k = true := by
  rcases bw_position p op k h with ⟨rfl, rfl | rfl | rfl⟩ | ⟨ho, rfl⟩
  · rfl
  · rfl
  · rfl
  · simp [inBusyWait, ho]

/-- A completed busy-wait moves to the next index, and no loop register is written there. -/
theorem bw_advance (s : State) (op : HostOp) (k sub : Nat) (hp : s.pc = .running op k sub)
    (h : (program s.params op)[k]? = some .bw) : s.advance = { s with pc := .running op (k + 1) 0 } := by
  rcases bw_position s.params op k h with ⟨rfl, -⟩ | ⟨ho, rfl⟩
  · exact State.advance_plain s hp rfl
  · rw [State.advance_next s hp (by simp [inByteLoop])]
    simp [State.enter, inByteLoop]

/-- A run whose first step is known. -/
theorem run_succ {s t : State} (h : step s = .next t) (n : Nat) : Host.Core.run core (n + 1) s = Host.Core.run core n t := by
  have hs : core.step s = .next t := h
  simp only [Host.Core.run, hs]

/-- A run whose first step stops. -/
theorem run_succ_fault {s : State} {r : Fault} (h : step s = .fault r) (n : Nat) :
    Host.Core.run core (n + 1) s = .fault r := by
  have hs : core.step s = .fault r := h
  simp only [Host.Core.run, hs]

theorem run_succ_refused {s : State} {r : Refusal} (h : step s = .refused r) (n : Nat) :
    Host.Core.run core (n + 1) s = .refused r := by
  have hs : core.step s = .refused r := h
  simp only [Host.Core.run, hs]

/-- A run in two parts. -/
theorem run_add {s t : State} {m : Nat} (h : Host.Core.run core m s = .next t) (n : Nat) :
    Host.Core.run core (m + n) s = Host.Core.run core n t := by
  induction m generalizing s with
  | zero => cases h; rw [Nat.zero_add]
  | succ m ih =>
    rw [Nat.succ_add]
    cases hs : step s with
    | next u => rw [run_succ hs] at h ⊢; exact ih h
    | fault r => rw [run_succ_fault hs] at h; cases h
    | refused r => rw [run_succ_refused hs] at h; cases h

/-- INDUCTION ALONG AN OPERATION: if `P k` holds before micro-operation `k`, each one that completes leads from `P k` to
`P (k + 1)`, and each one that stops the sequencer leaves `Q`, then what is left after running from `k` has `Q`. -/
theorem runToEnd_induction {l : List MicroOp} {P : Nat → State → Prop} {Q : State → Prop}
    (hgo : ∀ k m s t, l[k]? = some m → P k s → runMicro m s = .go t → P (k + 1) t)
    (hhalt : ∀ k m s t, l[k]? = some m → P k s → runMicro m s = .halt t → Q t)
    (hend : ∀ s, P l.length s → Q (s.respond ⟨.ok, .none⟩)) {k : Nat} {s : State} (hk : k ≤ l.length) (h : P k s) :
    Q (runToEnd (l.drop k) s).state := by
  induction hn : l.length - k generalizing k s with
  | zero =>
    have : k = l.length := by omega
    subst this
    rw [List.drop_length]
    exact hend s h
  | succ n ih =>
    have hlt : k < l.length := by omega
    have hm : l[k]? = some l[k] := List.getElem?_eq_getElem hlt
    rw [List.drop_eq_getElem_cons hlt, runToEnd, runList_cons]
    cases hr : runMicro l[k] s with
    | halt t => exact hhalt k _ s t hm h hr
    | go t => exact ih (by omega) (hgo k _ s t hm h hr) (by omega)

/-! ### What an instruction and a step can do, said once -/

/-- A flow followed by nothing. -/
theorem runList_single (m : MicroOp) (s : State) : runList [m] s = runMicro m s := by
  rw [runList_cons]; cases runMicro m s <;> rfl

/-- Every next state of a host operation: a request, or the rest of its list. -/
theorem hostOperation_cases {op : HostOp} {b : Buffer} {s t : State} (h : hostOperation op b s = .next t) :
    (s.pc = .idle ∧ paramsValid s.params = true ∧ t = requestOp op b s)
      ∨ ∃ k sub, s.pc = .running op k sub ∧ k < (program s.params op).length ∧ operandReady op k s = true
          ∧ t = (runToEnd ((program s.params op).drop k) s).state := by
  unfold hostOperation at h
  split at h
  · next hp =>
    split at h
    · next hv => cases h; exact .inl ⟨hp, hv, rfl⟩
    · cases h
  · next op' k sub hp =>
    split at h
    · next ho =>
      subst ho
      split at h
      · next hk =>
        split at h
        · next hr => cases h; exact .inr ⟨k, sub, hp, hk, hr, rfl⟩
        · cases h
      · cases h
    · cases h

/-- Every next state of a procedure. -/
theorem procedure_cases {c : OpCode} {l : List MicroOp} {s t : State} (h : procedure c l s = .next t) :
    (s.pc = .idle ∧ t = illegalOperation c s) ∨ (s.pc ≠ .idle ∧ t = (runList l s).state) := by
  unfold procedure at h
  split at h
  · next hp => cases h; exact .inl ⟨hp, rfl⟩
  · next hp => cases h; exact .inr ⟨by rw [hp]; simp, rfl⟩

/-- Every next state of a reserved code. -/
theorem reservedCode_cases {c : OpCode} {s t : State} (h : reservedCode c s = .next t) :
    s.pc = .idle ∧ t = illegalOperation c s := by
  unfold reservedCode at h
  split at h
  · next hp => cases h; exact ⟨hp, rfl⟩
  · cases h

/-- The host operation of an instruction, with the buffer its request hands over. -/
def hostOpOf (s : State) : Instr → Option (HostOp × Buffer)
  | .opInitialize => some (.initOp, [])
  | .opShow b => some (.showOp, b)
  | .opClearDisplay => some (.clearOp, blank s.params.geometry)
  | .opSleep => some (.sleepOp, [])
  | .opPowerOff => some (.powerOffOp, [])
  | .opHardReset | .opSoftReset | .opBusyWait | .opSendCommand _ | .opSendData _ => none
  | .reserved10 | .reserved11 | .reserved12 | .reserved13 | .reserved14 | .reserved15 => none
  | .cmdSoftReset | .cmdDataEntryMode | .cmdSetXWindow | .cmdSetYWindow | .cmdUpdateControl | .cmdSetXCounter
  | .cmdSetYCounter | .cmdSelectPrimary | .cmdSelectAccent | .cmdRefresh | .cmdSleep => none
  | .data _ => none

/-- The micro-operations of a procedure or of a frame. -/
def pieceOf (s : State) : Instr → List MicroOp
  | .opHardReset => hardResetOps
  | .opSoftReset => softResetOps s.params
  | .opBusyWait => [.bw]
  | .opSendCommand o => [.sc o]
  | .opSendData b => [.sd b]
  | .cmdSoftReset => [.sc s.params.opcodes.softReset]
  | .cmdDataEntryMode => [.sc s.params.opcodes.dataEntryMode]
  | .cmdSetXWindow => [.sc s.params.opcodes.setXWindow]
  | .cmdSetYWindow => [.sc s.params.opcodes.setYWindow]
  | .cmdUpdateControl => [.sc s.params.opcodes.updateControl]
  | .cmdSetXCounter => [.sc s.params.opcodes.setXCounter]
  | .cmdSetYCounter => [.sc s.params.opcodes.setYCounter]
  | .cmdSelectPrimary => [.sc s.params.opcodes.selectPrimary]
  | .cmdSelectAccent => [.sc s.params.opcodes.selectAccent]
  | .cmdRefresh => [.sc s.params.opcodes.refresh]
  | .cmdSleep => [.sc s.params.opcodes.deepSleep]
  | .data b => [.sd b]
  | .opInitialize | .opShow _ | .opClearDisplay | .opSleep | .opPowerOff => []
  | .reserved10 | .reserved11 | .reserved12 | .reserved13 | .reserved14 | .reserved15 => []

/-- What an instruction can have done: given an IllegalOperation response; taken a request of a host operation or gone on
with one; or performed the micro-operations of a procedure or of one frame in place. -/
def ExecResult (i : Instr) (s t : State) : Prop :=
  (∃ c, s.pc = .idle ∧ t = illegalOperation c s)
    ∨ (∃ op b, hostOpOf s i = some (op, b) ∧ s.pc = .idle ∧ paramsValid s.params = true ∧ t = requestOp op b s)
    ∨ (∃ op b k sub, hostOpOf s i = some (op, b) ∧ s.pc = .running op k sub ∧ k < (program s.params op).length
        ∧ operandReady op k s = true ∧ t = (runToEnd ((program s.params op).drop k) s).state)
    ∨ t = (runList (pieceOf s i) s).state

/-- EVERYTHING AN INSTRUCTION CAN DO when it answers a next state. -/
theorem exec_cases {i : Instr} {s t : State} (h : exec i s = .next t) : ExecResult i s t := by
  have host : ∀ {op b}, hostOpOf s i = some (op, b) → hostOperation op b s = .next t → ExecResult i s t :=
    fun {op b} hi ho => (hostOperation_cases ho).elim (fun ⟨h1, h2, h3⟩ => .inr (.inl ⟨op, b, hi, h1, h2, h3⟩))
      (fun ⟨k, sub, h1, h2, h3, h4⟩ => .inr (.inr (.inl ⟨op, b, k, sub, hi, h1, h2, h3, h4⟩)))
  have proc : ∀ {c l}, pieceOf s i = l → procedure c l s = .next t → ExecResult i s t :=
    fun {c l} hl hp => (procedure_cases hp).elim (fun ⟨h1, h2⟩ => .inl ⟨c, h1, h2⟩)
      (fun ⟨_, h2⟩ => .inr (.inr (.inr (hl ▸ h2))))
  have resv : ∀ {c}, reservedCode c s = .next t → ExecResult i s t := fun {c} hr => .inl ⟨c, reservedCode_cases hr⟩
  have frame : ∀ {m}, pieceOf s i = [m] → emitFrame m s = .next t → ExecResult i s t := fun {m} hm he =>
    .inr (.inr (.inr (by rw [hm, runList_single]; cases he; rfl)))
  cases i with
  | opInitialize => exact host rfl h
  | opShow b => exact host rfl h
  | opClearDisplay => exact host rfl h
  | opSleep => exact host rfl h
  | opPowerOff => exact host rfl h
  | opHardReset => exact proc rfl h
  | opSoftReset => exact proc rfl h
  | opBusyWait => exact proc rfl h
  | opSendCommand o => exact proc rfl h
  | opSendData b => exact proc rfl h
  | reserved10 => exact resv h
  | reserved11 => exact resv h
  | reserved12 => exact resv h
  | reserved13 => exact resv h
  | reserved14 => exact resv h
  | reserved15 => exact resv h
  | cmdSoftReset => exact frame rfl h
  | cmdDataEntryMode => exact frame rfl h
  | cmdSetXWindow => exact frame rfl h
  | cmdSetYWindow => exact frame rfl h
  | cmdUpdateControl => exact frame rfl h
  | cmdSetXCounter => exact frame rfl h
  | cmdSetYCounter => exact frame rfl h
  | cmdSelectPrimary => exact frame rfl h
  | cmdSelectAccent => exact frame rfl h
  | cmdRefresh => exact frame rfl h
  | cmdSleep => exact frame rfl h
  | data b => exact frame rfl h

/-- What a step does when it answers a next state: it waits, resets the block, or executes an instruction. -/
theorem step_cases {s t : State} (h : step s = .next t) :
    (fetch s = .wait ∧ t = s) ∨ (∃ rest, fetch s = .blockReset rest ∧ t = State.blockReset { s with host := rest })
      ∨ ∃ i u, fetch s = .instr i u ∧ exec i u = .next t := by
  unfold step at h
  split at h
  · next hf => cases h; exact .inl ⟨hf, rfl⟩
  · next rest hf => cases h; exact .inr (.inl ⟨rest, hf, rfl⟩)
  · next i u hf => exact .inr (.inr ⟨i, u, hf, h⟩)
  · cases h
  · cases h

end Sys2Proof.Machine
end

