-- ==== Sys2Proof/Laws/Waits.lean ====
section
/-! SUPPORT. What one step does at each kind of position, and runs through a busy-wait whose chip is busy for some polls:
the lemmas a proof about a whole operation with HIGH polls composes. -/

namespace Sys2Proof.Machine

/-- The position is executed when no block reset is at the head. -/
theorem fetch_of_noReset {s : State} {op : HostOp} {k sub : Nat} (h : s.pc = .running op k sub) (hn : s.noReset = true) :
    fetch s = fetchRunning op k s :=
  fetch_running s op k sub h fun rest hr => by simp [State.noReset, hr] at hn

section position
variable {s : State} {op : HostOp} {k sub : Nat}

/-- At a busy-wait a step is one poll. -/
theorem step_bw (h : s.pc = .running op k sub) (hm : (program s.params op)[k]? = some .bw) (hn : s.noReset = true)
    {f : Flow} (hf : runMicro .bw s = f) : step s = .next f.state := by
  subst hf
  rw [step, fetch_of_noReset h hn, fetchRunning, hm]
  simp only [exec, execBusyWait, procedure, h, runList_single]

/-- At a command frame a step sends that frame. -/
theorem step_sc (h : s.pc = .running op k sub) {c : ChipCommand}
    (hm : (program s.params op)[k]? = some (.sc (s.params.opcodes.opcode c))) (hd : s.params.opcodes.distinct = true)
    (hn : s.noReset = true) : step s = .next (runMicro (.sc (s.params.opcodes.opcode c)) s).state := by
  rw [step, fetch_of_noReset h hn, fetchRunning, hm]
  simp only [Fetched.ofEncoded, decode, decodeFrame_command hd]
  cases c <;> rfl

/-- At a `state <- v` a step runs the rest of the operation. -/
theorem step_st (h : s.pc = .running op k sub) {v : SeqState} (hm : (program s.params op)[k]? = some (.st v))
    (hn : s.noReset = true) (hr : operandReady op k s = true) :
    step s = .next (runToEnd ((program s.params op).drop k) s).state := by
  have hk := (List.getElem?_eq_some_iff.mp hm).1
  rw [step, fetch_of_noReset h hn, fetchRunning, hm]
  cases op <;>
    simp only [HostOp.instr, exec, execInitialize, execShow, execClearDisplay, execSleep, execPowerOff, hostOperation, h, hk,
      hr, if_true]

end position

/-! ### A busy-wait -/

/-- What a busy-wait leaves that read HIGH `a` times and then LOW, with `polls` counted before. -/
def State.waited (s : State) (a polls : Nat) (pc : Pc) : State :=
  { s.afterAnswers (a + 1) with pollCnt := polls + a, pc := pc, trace := s.trace ++ waitEvents a }

/-- What one HIGH read below the timeout leaves. -/
def State.polled (s : State) (polls : Nat) (pc : Pc) : State :=
  { s.afterAnswers 1 with pollCnt := polls + 1, pc := pc, trace := s.trace ++ [.busyRead (some .high)] }

theorem State.polled_waited (s : State) (a polls : Nat) (c d : Pc) :
    (s.polled polls c).waited a (polls + 1) d = s.waited (a + 1) polls d := by
  simp only [State.waited, State.polled, State.afterAnswers, List.drop_drop, List.length_drop, waitEvents,
    List.replicate_succ, List.append_assoc, List.cons_append, List.nil_append]
  congr 1 <;> first | omega | (congr 1; omega)

/-- A busy-wait on the way of an operation that streams nothing. -/
theorem State.moved_waited (s : State) (n a polls : Nat) (tr : List Event) (v : SeqState) (x z : Pins) (p : Nat)
    (c d : Pc) :
    (s.moved n tr v x z p c).waited a polls d = s.moved (n + (a + 1)) (tr ++ waitEvents a) v x z (polls + a) d := by
  rw [← State.moved_moved s n (a + 1) tr (waitEvents a) v v x z x z p (polls + a) c d]; rfl

/-- The premise on a busy-wait, for a state on the way. -/
theorem State.waits_moved (s : State) (n a : Nat) (tr : List Event) (v : SeqState) (x z : Pins) (p : Nat) (c : Pc) :
    (s.moved n tr v x z p c).waits 0 a ↔ s.waits n a := by
  simp only [State.waits, State.answerAt_moved, Nat.zero_add]

section wait
variable {s : State} {op : HostOp} {k sub polls : Nat}

theorem runMicro_bw_waited (h : s.pc = .running op k sub) (hm : (program s.params op)[k]? = some .bw)
    (hq : polls = if sub = 0 then 0 else s.pollCnt) (hc : s.answer.completes = true) (hb : s.answer.busy = .low) :
    runMicro .bw s = .go (s.waited 0 polls (.running op (k + 1) 0)) := by
  simp only [runMicro, busyPoll_low s hc hb, Flow.then_go]
  rw [bw_advance _ op k sub (by simpa using h) (by simpa using hm)]
  by_cases hs : sub = 0 <;>
    simp [State.waited, State.drawn_eq, State.afterAnswers, State.emit, pollBase, startWait, h, hs, hq, Pc.sub, waitEvents]

theorem runMicro_bw_stays (h : s.pc = .running op k sub) (hq : polls = if sub = 0 then 0 else s.pollCnt)
    (hc : s.answer.completes = true) (hb : s.answer.busy = .high)
    (ht : ∀ n, s.params.busyTimeoutPolls = some n → polls + 1 < n) :
    runMicro .bw s
      = .halt (s.polled polls (.running op k 1)) := by
  have hw : (pollBase s).pollCnt = polls := by
    by_cases hs : sub = 0 <;> simp [pollBase, startWait, h, hs, hq, Pc.sub]
  have ht' : timedOut s.params.busyTimeoutPolls ((pollBase s).pollCnt + 1) = false := by
    rw [hw]
    unfold timedOut
    split
    · rfl
    · next n hn => simpa using ht n hn
  simp only [runMicro, busyPoll_high_waits s hc hb ht', Flow.then_halt]
  by_cases hs : sub = 0 <;>
    simp [State.polled, State.drawn_eq, State.afterAnswers, State.emit, State.countPoll, State.setSub, Pc.setSub, pollBase,
      startWait, h, hs, hq, Pc.sub]

/-- `a` HIGH polls and a LOW one are `a + 1` steps. -/
theorem run_wait (a : Nat) (h : s.pc = .running op k sub) (hm : (program s.params op)[k]? = some .bw)
    (hn : s.noReset = true) (hq : polls = if sub = 0 then 0 else s.pollCnt) (hf : s.noFail (a + 1)) (hw : s.waits 0 a)
    (ht : ∀ n, s.params.busyTimeoutPolls = some n → polls + a < n) :
    Host.Core.run core (a + 1) s = .next (s.waited a polls (.running op (k + 1) 0)) := by
  have hc := hf.completes (Nat.succ_pos a)
  induction a generalizing s sub polls with
  | zero =>
    have hb : s.answer.busy = .low := by rw [← State.answerAt_zero]; exact hw.2
    rw [run_succ (step_bw h hm hn (runMicro_bw_waited h hm hq hc hb))]
    rfl
  | succ a ih =>
    have hb : s.answer.busy = .high := by rw [← State.answerAt_zero]; exact hw.1 0 (Nat.succ_pos a)
    have hs := runMicro_bw_stays h hq hc hb fun n hn => Nat.lt_of_le_of_lt (by omega) (ht n hn)
    rw [run_succ (step_bw h hm hn hs)]
    generalize hu : Flow.state _ = u
    replace hu : u = s.polled polls (.running op k 1) := hu.symm
    have hr : ∀ i, u.answerAt i = s.answerAt (1 + i) := fun i => by rw [← s.answerAt_after, hu]; rfl
    have hf' : u.noFail (a + 1) := fun i hi => by rw [hr]; exact hf _ (by omega)
    have hw' : u.waits 0 a := by
      refine ⟨fun j hj => ?_, ?_⟩
      · rw [hr, show 1 + (0 + j) = 0 + (j + 1) by omega]; exact hw.1 _ (by omega)
      · rw [hr, show 1 + (0 + a) = 0 + (a + 1) by omega]; exact hw.2
    rw [ih (s := u) (sub := 1) (polls := polls + 1) (by rw [hu]; rfl) (by rw [hu]; exact hm)
      (by rw [hu]; exact hn)
      (by rw [hu]; rfl) hf' hw' (fun n h => by rw [hu] at h; have := ht n h; omega) (hf'.completes (Nat.succ_pos a)), hu,
      State.polled_waited]

end wait

/-! ### Reaching a state in a bounded number of steps -/

/-- Some number of steps, at most `n`, lead from `s` to `t`. -/
def Reaches (n : Nat) (s t : State) : Prop := ∃ m, m ≤ n ∧ Host.Core.run core m s = .next t

theorem Reaches.refl (s : State) : Reaches 0 s s := ⟨0, Nat.le_refl 0, rfl⟩

theorem Reaches.mono {m n : Nat} {s t : State} (h : Reaches m s t) (hm : m ≤ n) : Reaches n s t :=
  let ⟨i, hi, hr⟩ := h; ⟨i, Nat.le_trans hi hm, hr⟩

theorem Reaches.after {m n : Nat} {s t u : State} (hr : Host.Core.run core m s = .next t) (h : Reaches n t u) :
    Reaches (m + n) s u :=
  let ⟨i, hi, hu⟩ := h; ⟨m + i, by omega, (run_add hr i).trans hu⟩

theorem Reaches.step {n : Nat} {s t u : State} (hs : step s = .next t) (h : Reaches n t u) : Reaches (n + 1) s u :=
  (Reaches.after (m := 1) (run_succ hs 0) h).mono (by omega)

/-- `t` is reached from position `k` both ways: in `n` steps after the step that goes on from there, and in `n + 1` steps
when the position is the next one to execute. -/
def ReachesFrom (n : Nat) (l : List MicroOp) (s t : State) : Prop :=
  Reaches n (runToEnd l s).state t ∧ Reaches (n + 1) s t

section reach
variable {s t u : State} {op : HostOp} {k sub n polls : Nat} {l : List MicroOp}

/-- An operation that streams nothing can always go on. -/
theorem operandReady_plain (ho : op.streams = false) : operandReady op k s = true := by simp [operandReady, ho]

theorem runToEnd_cons_go {m : MicroOp} (h : runMicro m s = .go u) : runToEnd (m :: l) s = runToEnd l u := by
  rw [runToEnd, runList_cons_go h, runToEnd]

/-- A position at which a step runs the rest of the operation. -/
theorem ReachesFrom.of_rest (hs : step s = .next (runToEnd l s).state) (h : Reaches n (runToEnd l s).state t) :
    ReachesFrom n l s t := ⟨h, h.step hs⟩

/-- A frame, which is a step of its own when it is the next one to execute. -/
theorem ReachesFrom.frame {m : MicroOp} (hs : step s = .next (runMicro m s).state) (hm : runMicro m s = .go u)
    (h : ReachesFrom n l u t) : ReachesFrom (n + 1) (m :: l) s t :=
  ⟨by rw [runToEnd_cons_go hm]; exact h.1.mono (by omega), h.2.step (by rw [hs, hm]; rfl)⟩

/-- A busy-wait with `a` HIGH polls. -/
theorem ReachesFrom.wait (a : Nat) (h : s.pc = .running op k sub) (hm : (program s.params op)[k]? = some .bw)
    (hn : s.noReset = true) (hq : polls = if sub = 0 then 0 else s.pollCnt) (hf : s.noFail (a + 1)) (hw : s.waits 0 a)
    (ht : ∀ n, s.params.busyTimeoutPolls = some n → polls + a < n)
    (hl : ReachesFrom n l (s.waited a polls (.running op (k + 1) 0)) t) : ReachesFrom (n + 1 + a) (.bw :: l) s t := by
  have hr := run_wait a h hm hn hq hf hw ht
  refine ⟨?_, (Reaches.after hr hl.2).mono (by omega)⟩
  have hc := hf.completes (Nat.succ_pos a)
  cases a with
  | zero =>
    have hb : s.answer.busy = .low := by rw [← State.answerAt_zero]; exact hw.2
    rw [runToEnd_cons_go (runMicro_bw_waited h hm hq hc hb)]
    exact hl.1.mono (by omega)
  | succ a =>
    have hb : s.answer.busy = .high := by rw [← State.answerAt_zero]; exact hw.1 0 (Nat.succ_pos a)
    have hs := runMicro_bw_stays h hq hc hb fun n hn => Nat.lt_of_le_of_lt (by omega) (ht n hn)
    have he : (runToEnd (.bw :: l) s).state = (runMicro .bw s).state := by
      rw [runToEnd, runList_cons, hs]; rfl
    rw [he]
    rw [run_succ (step_bw h hm hn rfl)] at hr
    exact (Reaches.after hr hl.2).mono (by omega)

end reach

end Sys2Proof.Machine
end

