-- ==== Sys2Proof/Laws/Wire.lean ====
section
/-! SUPPORT. The wire view of a trace in two parts, which events it depends on, and the view of the events of a command and
of events that send nothing. -/

namespace Sys2Proof.Machine

theorem framesOf_append (l m : List WireItem) : framesOf (l ++ m) = framesOf l ++ framesOf m := by
  induction l with
  | nil => rfl
  | cons a l ih => cases a <;> simp [framesOf, ih]

/-- The levels after a trace in two parts. -/
theorem Pins.afterAll_append (x : Pins) {k : List Bool} (l : List Bool) {E : List Event} (F : List Event)
    (h : k.length = E.length) : x.afterAll (k ++ l) (E ++ F) = (x.afterAll k E).afterAll l F := by
  induction E generalizing x k with
  | nil => rw [List.length_eq_zero_iff.mp h]; rfl
  | cons e E ih =>
    obtain ⟨a, k, rfl⟩ := List.exists_cons_of_length_eq_add_one h
    exact ih (x.after a e) (Nat.succ.inj h)

/-- The wire view of a trace in two parts. -/
theorem wireView_append (x : Pins) {k : List Bool} (l : List Bool) {E : List Event} (F : List Event)
    (h : k.length = E.length) :
    wireView x (k ++ l) (E ++ F) = wireView x k E ++ wireView (x.afterAll k E) l F := by
  induction E generalizing x k with
  | nil => rw [List.length_eq_zero_iff.mp h]; rfl
  | cons e E ih =>
    obtain ⟨a, k, rfl⟩ := List.exists_cons_of_length_eq_add_one h
    have := ih (x.after a e) (Nat.succ.inj h)
    simp only [List.cons_append, wireView, List.headD_cons, List.tail_cons, this, List.append_assoc]
    rfl

/-- The same where no failed write took effect, so that no length has to match. -/
theorem wireView_append_nil (x : Pins) (E F : List Event) :
    wireView x [] (E ++ F) = wireView x [] E ++ wireView (x.afterAll [] E) [] F := by
  induction E generalizing x with
  | nil => rfl
  | cons e E ih =>
    simp only [List.cons_append, wireView, List.headD_nil, List.tail_nil, ih, List.append_assoc]; rfl

/-- What a pin write leaves: completed, failed but with effect, failed without. -/
theorem Pins.after_completed (x : Pins) (took : Bool) (p : Pin) (v : Level) :
    x.after took (.pinWrite p v true) = x.set p v := rfl
theorem Pins.after_took (x : Pins) (p : Pin) (v : Level) (c : Bool) : x.after true (.pinWrite p v c) = x.set p v := by
  cases c <;> rfl
theorem Pins.after_failed (x : Pins) (p : Pin) (v : Level) : x.after false (.pinWrite p v false) = x := rfl

/-- A redundant write changes no level. -/
theorem Pins.set_get (x : Pins) (p : Pin) : x.set p (x.get p) = x := by cases p <;> rfl

@[simp] theorem levelChanges_self (x : Pins) : levelChanges x x = [] := by simp [levelChanges]

/-- Only completed sends make frames. -/
theorem framesOf_levelChanges (x y : Pins) : framesOf (levelChanges x y) = [] := by
  unfold levelChanges; split <;> split <;> rfl

/-- Events among which no send completes make no frame. -/
theorem framesOf_wireView_noSend {E : List Event} (h : ∀ b, Event.busSend b true ∉ E) (x : Pins) (k : List Bool) :
    framesOf (wireView x k E) = [] := by
  induction E generalizing x k with
  | nil => rfl
  | cons e E ih =>
    have hi : frameItem x e = [] := by
      rcases e with _ | _ | ⟨b, _ | _⟩ | _ | _ <;> first | rfl | exact absurd (List.mem_cons_self ..) (h b)
    simp only [wireView, framesOf_append, framesOf_levelChanges, hi, List.append_nil, List.nil_append]
    exact ih (fun b hb => h b (List.mem_cons_of_mem _ hb)) _ _

/-- The frames of a trace do not depend on the levels of `PWR` and `RST`. -/
theorem framesOf_wireView_congr {x y : Pins} (h : x.dc = y.dc) (k : List Bool) (E : List Event) :
    framesOf (wireView x k E) = framesOf (wireView y k E) := by
  induction E generalizing x y k with
  | nil => rfl
  | cons e E ih =>
    have hd : (x.after (k.headD false) e).dc = (y.after (k.headD false) e).dc := by
      generalize k.headD false = a
      rcases e with ⟨_ | _ | _, _, _ | _⟩ | _ | _ | _ | _ <;> cases a <;> first | exact h | rfl
    have hi : frameItem x e = frameItem y e := by
      rcases e with _ | _ | ⟨_, _ | _⟩ | _ | _ <;> simp only [frameItem, h]
    simp only [wireView, framesOf_append, framesOf_levelChanges, hi, ih hd]

/-- The events that are no failed pin write: their view has no choice (60_exceptions.md R151). -/
def Event.certain : Event → Bool
  | .pinWrite _ _ completed => completed
  | .busyRead _ | .busSend _ _ | .busRelease _ | .delay _ _ => true

/-- A trace whose pin writes all complete has one view. -/
theorem wireView_certain {E : List Event} (h : ∀ e ∈ E, e.certain = true) (x : Pins) (k l : List Bool) :
    wireView x k E = wireView x l E := by
  induction E generalizing x k l with
  | nil => rfl
  | cons e E ih =>
    have ha : ∀ a b, x.after a e = x.after b e := by
      have he := h e (List.mem_cons_self ..)
      rcases e with ⟨_, _, _ | _⟩ | _ | _ | _ | _ <;> first | exact fun _ _ => rfl | cases he
    simp only [wireView, ha (k.headD false) (l.headD false),
      ih (fun e he => h e (List.mem_cons_of_mem _ he)) _ k.tail l.tail]

/-- A completed frame, whatever the levels were before (43_primitives.md R112). -/
theorem framesOf_frameEvents (d : Level) (x : Pins) (b : Byte) (E : List Event) :
    framesOf (wireView x [] (frameEvents d b ++ E)) = mkFrame d b :: framesOf (wireView (x.set .dc d) [] E) := by
  simp [frameEvents, wireView, frameItem, Pins.after, Pins.set, levelChanges, framesOf]

/-- Data frames in a row. -/
theorem framesOf_dataEvents (l : List Byte) (x : Pins) (E : List Event) :
    framesOf (wireView x [] (l.flatMap (frameEvents .high) ++ E))
      = l.map (mkFrame .high) ++ framesOf (wireView (x.set .dc (if l = [] then x.dc else .high)) [] E) := by
  induction l generalizing x with
  | nil => rfl
  | cons a l ih =>
    rw [List.flatMap_cons, List.append_assoc, framesOf_frameEvents, ih, if_neg (List.cons_ne_nil a l)]
    split <;> rfl

/-- A command with its arguments (30_encoding.md R55, 44_chip_commands.md R119). -/
theorem framesOf_commandEvents (o : Byte) (l : List Byte) (x : Pins) (E : List Event) :
    framesOf (wireView x [] (commandEvents o l ++ E))
      = commandFrames o l ++ framesOf (wireView (x.set .dc (if l = [] then .low else .high)) [] E) := by
  rw [commandEvents, List.append_assoc, framesOf_frameEvents, framesOf_dataEvents]
  rfl

/-- A busy-wait sends nothing. -/
theorem framesOf_waitEvents (n : Nat) (x : Pins) (E : List Event) :
    framesOf (wireView x [] (waitEvents n ++ E)) = framesOf (wireView x [] E) := by
  unfold waitEvents
  induction n with
  | zero => simp [wireView, frameItem, Pins.after]
  | succ n ih => simpa [List.replicate_succ, wireView, frameItem, Pins.after] using ih

end Sys2Proof.Machine
end

