-- ==== Sys2Proof/Tests/Slice0.lean ====
section
/-! SUPPORT. The model's own tests.  Expected values come from the tables of 30_encoding.md, 40_init_reset_sync.md and the
vectors of 95_test_vectors.md, whose ids stand in the comments; none is the model's own answer. -/

namespace Sys2Proof.Tests

open Sys2Proof.Machine

/-! ### Helpers -/

/-- The shorthand of 00_scope.md section 7. -/
def pUp : List Event := [.pinWrite .pwr .high true]
def pDown : List Event := [.pinWrite .pwr .low true]
def rUp : List Event := [.pinWrite .rst .high true]
def rDown : List Event := [.pinWrite .rst .low true]
def dDown : List Event := [.pinWrite .dc .low true]
def dUp : List Event := [.pinWrite .dc .high true]
def hold : List Event := [.delay 200 true]
def busyHigh : List Event := [.busyRead (some .high)]
def busyLow : List Event := [.busyRead (some .low)]
def cmd (b : Byte) : List Event := [.pinWrite .dc .low true, .busSend b true]
def dat (b : Byte) : List Event := [.pinWrite .dc .high true, .busSend b true]

/-- Answers: an event that completes (a busy read: LOW), a HIGH read, an event that fails without and with effect. -/
def yes : Answer := ⟨true, .low, false⟩
def high : Answer := ⟨true, .high, false⟩
def lost : Answer := ⟨false, .low, false⟩
def late : Answer := ⟨false, .low, true⟩
def yeses (n : Nat) : List Answer := List.replicate n yes

/-- Parameters with a small geometry and a timeout. -/
def par (width height : Nat) (timeout : Option Nat) : Params :=
  { referenceParams with geometry := ⟨"", width, height, planeOrder⟩, busyTimeoutPolls := timeout }

/-- The latches and the lines at given levels. -/
def pinned (x : Pins) (s : State) : State := { s with pins := x, lines := x }

/-- A state at a position with answers to come; pins HIGH, HIGH, LOW. -/
def at' (p : Params) (v : SeqState) (pc : Pc) (a : List Answer) : State :=
  pinned ⟨.high, .high, .low⟩ { State.reset with params := p, state := v, pc := pc, inputs := a }

/-- What a vector shows: the trace, the statuses, and `(state, fault, PWR, RST, DC, bus_owned)`. -/
structure Seen where
  trace : List Event
  status : List Status
  state : SeqState
  fault : FaultReg
  pins : Pins
  owned : Bool
deriving DecidableEq, Repr

def see : Host.Outcome State Fault Refusal → Option Seen
  | .next s => some ⟨s.trace, s.responses.map Response.status, s.state, s.fault, s.pins, s.busOwned⟩
  | .fault _ => none
  | .refused _ => none

/-- The register of interest after an instruction. -/
def field {α : Type} (f : State → α) : Host.Outcome State Fault Refusal → Option α
  | .next s => some (f s)
  | .fault _ => none
  | .refused _ => none

def refusal : Host.Outcome State Fault Refusal → Option Refusal
  | .next _ => none
  | .fault _ => none
  | .refused r => some r

/-- `B1` of part 2 F. -/
def bufferB1 : Buffer := [(.primary, [0xFF#8, 0x00#8, 0x0F#8, 0xF0#8]), (.accent, [0x00#8, 0x00#8, 0x80#8, 0x01#8])]

/-- Start state of part 2 F, with a 16 x 2 geometry. -/
def frameStart (a : List Answer) : State :=
  pinned ⟨.high, .high, .high⟩ (at' (par 16 2 none) .idle .idle a)

def f1Frames : List Event :=
  cmd 0x24#8 ++ dat 0xFF#8 ++ dat 0x00#8 ++ dat 0x0F#8 ++ dat 0xF0#8 ++ cmd 0x26#8 ++ dat 0x00#8 ++ dat 0x00#8
    ++ dat 0x80#8 ++ dat 0x01#8 ++ cmd 0x20#8

/-! ### Well-formedness: each check refuses an ill-formed term -/

theorem test_wf_refuses_unordered_buffer :
    Instr.wf CommandTable.default (.opShow [(.accent, []), (.primary, [])]) = false := by decide

theorem test_wf_refuses_repeated_plane :
    Instr.wf CommandTable.default (.opShow [(.primary, [1#8]), (.primary, [2#8])]) = false := by decide

theorem test_wf_refuses_unknown_opcode :
    Instr.wf CommandTable.default (.opSendCommand 0xFF#8) = false := by decide

theorem test_wf_accepts :
    Instr.wf CommandTable.default (.opShow bufferB1) = true
      ∧ Instr.wf CommandTable.default (.opSendCommand 0x20#8) = true := by decide

/-- A11 to A14 and both zero dimensions are not valid; A2 and A3, the smallest and the largest, are. -/
theorem test_geometry_bounds :
    [(400, 300), (152, 600), (150, 296), (264, 10), (0, 10), (8, 0), (8, 513)].map
        (fun q => geometryValid ⟨"", q.1, q.2, planeOrder⟩) = List.replicate 7 false
      ∧ geometryValid ⟨"", 8, 1, planeOrder⟩ = true ∧ geometryValid ⟨"", 256, 512, planeOrder⟩ = true
      ∧ geometryValid ⟨"", 152, 296, [.accent, .primary]⟩ = false := by decide

theorem test_params_refused :
    paramsValid { referenceParams with tHoldNs := 199 } = false
      ∧ paramsValid { referenceParams with busyTimeoutPolls := some 0 } = false
      ∧ paramsValid { referenceParams with opcodes := { CommandTable.default with refresh := 0x10#8 } } = false
      ∧ paramsValid referenceParams = true := by decide

/-! ### Decoding: every constructor's word, written out from 30_encoding.md R51, R54, R56 -/

theorem test_decode_host_codes :
    [0b0000, 0b0001, 0b0010, 0b0011, 0b0101, 0b0110, 0b0111].map (decodeTableWord 8)
      = [some .opInitialize, some .opHardReset, some .opSoftReset, some .opBusyWait, some .opClearDisplay,
         some .opSleep, some .opPowerOff] := by decide

theorem test_decode_reserved_codes :
    [0b1010, 0b1011, 0b1100, 0b1101, 0b1110, 0b1111].map (decodeTableWord 8)
      = [some .reserved10, some .reserved11, some .reserved12, some .reserved13, some .reserved14, some .reserved15] := by
  decide

theorem test_decode_operands :
    decodeRequest 4#4 (.buffer bufferB1) = .opShow bufferB1 ∧ decodeRequest 8#4 (.byte 0x20#8) = .opSendCommand 0x20#8
      ∧ decodeRequest 9#4 (.byte 0x03#8) = .opSendData 0x03#8 := by decide

/-- Frames `0 bbbbbbbb` with the default opcode values of 30_encoding.md R57 (W1, W2, W4, W5). -/
theorem test_decode_commands :
    [0b000010010, 0b000010001, 0b001000100, 0b001000101, 0b000100001, 0b001001110, 0b001001111, 0b000100100, 0b000100110,
     0b000100000, 0b000010000].map (decodeTableWord 16)
      = [some .cmdSoftReset, some .cmdDataEntryMode, some .cmdSetXWindow, some .cmdSetYWindow, some .cmdUpdateControl,
         some .cmdSetXCounter, some .cmdSetYCounter, some .cmdSelectPrimary, some .cmdSelectAccent, some .cmdRefresh,
         some .cmdSleep] := by decide

/-- W3: the byte `20` with `dc = 1` is data.  W6: `0 1111 1111` is no instruction. -/
theorem test_decode_data :
    decodeTableWord 16 0b100100000 = some (.data 0x20#8) ∧ decodeTableWord 16 0b011111111 = none
      ∧ decodeTableWord 16 0b1000000000 = none ∧ decodeTableWord 8 0b10000 = none := by decide

theorem test_encode_words :
    encode CommandTable.default .opPowerOff = .request 7#4 .absent
      ∧ encode CommandTable.default .cmdSetYWindow = .frame 0x045#9
      ∧ encode CommandTable.default (.data 0x27#8) = .frame 0x127#9 := by decide

/-! ### Operand arithmetic -/

/-- A1, A2, A3, A9, A10: `(PLANE_BYTES, XE, YL, YH)`. -/
theorem test_geometry_arithmetic :
    [(152, 296), (8, 1), (256, 512), (8, 256), (8, 257)].map
        (fun q => let g : Geometry := ⟨"", q.1, q.2, planeOrder⟩; (planeBytes g, xEnd g, yEndLow g, yEndHigh g))
      = [(5624, 0x12#8, 0x27#8, 0x01#8), (1, 0x00#8, 0x00#8, 0x00#8), (16384, 0x1F#8, 0xFF#8, 0x01#8),
         (256, 0x00#8, 0xFF#8, 0x00#8), (257, 0x00#8, 0x00#8, 0x01#8)] := by decide

/-- A11, A12, A14: the masks truncate. -/
theorem test_masks_truncate :
    xEnd ⟨"", 400, 300, planeOrder⟩ = 0x11#8 ∧ yEndHigh ⟨"", 152, 600, planeOrder⟩ = 0x00#8
      ∧ xEnd ⟨"", 264, 10, planeOrder⟩ = 0x00#8 := by decide

/-- The bit layout check of F1: pixel (4, 1) is bit 3 of byte 2, and is 1; (0, 1) and (12, 1) are 0; (0, 0) is white. -/
theorem test_pixel_layout :
    let g : Geometry := ⟨"", 16, 2, planeOrder⟩
    pixelByteIndex g 4 1 = 2 ∧ pixelBitIndex 4 = 3 ∧ pixelAt g .primary 4 1 bufferB1 = some true
      ∧ pixelAt g .primary 0 1 bufferB1 = some false ∧ pixelAt g .primary 12 1 bufferB1 = some false
      ∧ (pixelAt g .primary 0 0 bufferB1).map (shade .primary) = some .white := by decide

/-- The micro-operation table of 40_init_reset_sync.md R73, row by row. -/
theorem test_initialize_rows :
    initOps referenceParams
      = [.pw .pwr .high, .st .powered, .pw .rst .low, .dl, .pw .rst .high, .dl, .bw, .sc 0x12#8, .bw, .st .reset,
         .sc 0x11#8, .sd 0x03#8, .sc 0x44#8, .sd 0x00#8, .sd 0x12#8, .sc 0x45#8, .sd 0x00#8, .sd 0x27#8, .sd 0x01#8,
         .sc 0x21#8, .sd 0x00#8, .sd 0x80#8, .sc 0x4E#8, .sd 0x00#8, .sc 0x4F#8, .sd 0x00#8, .sd 0x00#8, .bw,
         .st .configured, .st .idle] := by decide

/-! ### Host operations -/

/-- I2: 8 x 1, every wait reads LOW, 44 events. -/
theorem test_initialize_completes :
    see (exec .opInitialize { State.reset with params := par 8 1 none, inputs := yeses 44 })
      = some ⟨pUp ++ rDown ++ hold ++ rUp ++ hold ++ busyLow ++ cmd 0x12#8 ++ busyLow ++ cmd 0x11#8 ++ dat 0x03#8
          ++ cmd 0x44#8 ++ dat 0x00#8 ++ dat 0x00#8 ++ cmd 0x45#8 ++ dat 0x00#8 ++ dat 0x00#8 ++ dat 0x00#8 ++ cmd 0x21#8
          ++ dat 0x00#8 ++ dat 0x80#8 ++ cmd 0x4E#8 ++ dat 0x00#8 ++ cmd 0x4F#8 ++ dat 0x00#8 ++ dat 0x00#8 ++ busyLow,
        [.ok], .idle, .none, ⟨.high, .high, .high⟩, true⟩ := by decide

/-- I8: the first pin write fails, with and without effect; `state` is not POWERED. -/
theorem test_initialize_first_write_fails :
    see (exec .opInitialize { State.reset with inputs := [late] })
        = some ⟨[.pinWrite .pwr .high false], [.transportFailure], .unpowered, .transportFailure, ⟨.high, .low, .low⟩, true⟩
      ∧ see (exec .opInitialize { State.reset with inputs := [lost] })
        = some ⟨[.pinWrite .pwr .high false], [.transportFailure], .unpowered, .transportFailure, ⟨.low, .low, .low⟩,
            true⟩ := by decide

/-- F1 with a LOW closing read. -/
theorem test_show_completes :
    see (exec (.opShow bufferB1) (frameStart (yeses 23)))
      = some ⟨f1Frames ++ busyLow, [.ok], .idle, .none, ⟨.high, .high, .low⟩, true⟩ := by decide

/-- F7: the send of the third primary byte fails. -/
theorem test_show_send_fails :
    see (exec (.opShow bufferB1) (frameStart (yeses 7 ++ [lost])))
      = some ⟨cmd 0x24#8 ++ dat 0xFF#8 ++ dat 0x00#8 ++ dUp ++ [.busSend 0x0F#8 false], [.transportFailure], .busy,
          .transportFailure, ⟨.high, .high, .high⟩, true⟩ := by decide

/-- F7 again, and its pin write: the position of the diagnosis has `byte_idx`, 2, as its `sub` part (41_frame.md R92). -/
theorem test_show_failure_position :
    [yeses 7 ++ [lost], yeses 6 ++ [lost]].map (fun a => field (fun t => t.responses.map Response.info)
        (exec (.opShow bufferB1) (frameStart a)))
      = [some [.event (.busSend 0x0F#8 false) (.running .showOp 3 (.byte 2 1))],
         some [.event (.pinWrite .dc .high false) (.running .showOp 3 (.byte 2 0))]] := by decide

/-- F3, F4, F4b, F4c: no event, `state` and the pins unchanged. -/
theorem test_show_bad_buffers :
    [[(PlaneId.primary, [0xFF#8, 0x00#8, 0x0F#8, 0xF0#8])],
     [(.primary, [0xFF#8, 0x00#8, 0x0F#8, 0xF0#8]), (.accent, [0x00#8, 0x00#8, 0x80#8])],
     [(.primary, [0xFF#8, 0x00#8, 0x0F#8])], [(.accent, [0x00#8, 0x00#8, 0x80#8, 0x01#8])]].map
        (fun b => see (exec (.opShow b) (frameStart [])))
      = [.missingPlane, .badPlaneLength, .badPlaneLength, .missingPlane].map
          (fun r => some ⟨[], [r], .idle, .none, ⟨.high, .high, .high⟩, true⟩) := by decide

/-- F5. -/
theorem test_clearDisplay_completes :
    see (exec .opClearDisplay (frameStart (yeses 23)))
      = some ⟨cmd 0x24#8 ++ dat 0xFF#8 ++ dat 0xFF#8 ++ dat 0xFF#8 ++ dat 0xFF#8 ++ cmd 0x26#8 ++ dat 0x00#8 ++ dat 0x00#8
          ++ dat 0x00#8 ++ dat 0x00#8 ++ cmd 0x20#8 ++ busyLow,
        [.ok], .idle, .none, ⟨.high, .high, .low⟩, true⟩ := by decide

/-- F12. -/
theorem test_clearDisplay_sleeping :
    see (exec .opClearDisplay { frameStart [] with state := .sleeping })
      = some ⟨[], [.illegalState], .sleeping, .none, ⟨.high, .high, .high⟩, true⟩ := by decide

/-- P1. -/
theorem test_sleep_completes :
    see (exec .opSleep (at' referenceParams .idle .idle (yeses 4)))
      = some ⟨cmd 0x10#8 ++ dat 0x01#8, [.ok], .sleeping, .none, ⟨.high, .high, .high⟩, true⟩ := by decide

/-- P8. -/
theorem test_sleep_argument_fails :
    see (exec .opSleep (at' referenceParams .idle .idle (yeses 3 ++ [lost])))
      = some ⟨cmd 0x10#8 ++ dUp ++ [.busSend 0x01#8 false], [.transportFailure], .idle, .transportFailure,
          ⟨.high, .high, .high⟩, true⟩ := by decide

/-- P6. -/
theorem test_powerOff_after_fault :
    see (exec .opPowerOff
        (pinned ⟨.high, .high, .high⟩ { at' referenceParams .busy .idle (yeses 4) with fault := .transportFailure }))
      = some ⟨pDown ++ dDown ++ rDown ++ [.busRelease true], [.ok], .poweredOff, .transportFailure, ⟨.low, .low, .low⟩,
          false⟩ := by decide

/-- P7, with `bus_owned` kept. -/
theorem test_powerOff_release_fails :
    see (exec .opPowerOff (at' referenceParams .idle .idle (yeses 3 ++ [lost])))
      = some ⟨pDown ++ dDown ++ rDown ++ [.busRelease false], [.transportFailure], .idle, .transportFailure,
          ⟨.low, .low, .low⟩, true⟩ := by decide

/-! ### Procedures and reserved codes -/

/-- H2: the shortest trace. -/
theorem test_hardReset_completes :
    see (exec .opHardReset (at' referenceParams .powered (.running .initOp 2 0) (yeses 5)))
      = some ⟨rDown ++ hold ++ rUp ++ hold ++ busyLow, [], .powered, .none, ⟨.high, .high, .low⟩, true⟩ := by decide

/-- H3: interrupted in the first hold, RST stays LOW. -/
theorem test_hardReset_interrupted :
    see (exec .opHardReset (at' referenceParams .powered (.running .initOp 2 0) [yes, lost]))
      = some ⟨rDown ++ [.delay 200 false], [.interrupted], .powered, .interrupted, ⟨.high, .low, .low⟩, true⟩ := by decide

/-- A pin write fails, with and without effect: the first of RST (60_exceptions.md R151), then the second (H5). -/
theorem test_hardReset_writes_fail :
    [[late], [lost], yeses 2 ++ [late], yeses 2 ++ [lost]].map (fun a =>
        field (fun t => (t.pins.rst, t.fault, t.trace.length))
          (exec .opHardReset (at' referenceParams .powered (.running .initOp 2 0) a)))
      = [some (.low, .transportFailure, 1), some (.high, .transportFailure, 1), some (.high, .transportFailure, 3),
         some (.low, .transportFailure, 3)] := by decide

/-- H7: the send fails, no busy read is made. -/
theorem test_softReset_send_fails :
    see (exec .opSoftReset (at' referenceParams .powered (.running .initOp 7 0) [yes, lost]))
      = some ⟨dDown ++ [.busSend 0x12#8 false], [.transportFailure], .powered, .transportFailure, ⟨.high, .high, .low⟩,
          true⟩ := by decide

/-- 40_init_reset_sync.md R78: with a LOW read the trace is `D- S:12 B?L`. -/
theorem test_softReset_completes :
    see (exec .opSoftReset (at' referenceParams .powered (.running .initOp 7 0) (yeses 3)))
      = some ⟨cmd 0x12#8 ++ busyLow, [], .powered, .none, ⟨.high, .high, .low⟩, true⟩ := by decide

/-- B5: with `some 2`, the second HIGH read times out, counted 2. -/
theorem test_busyWait_times_out :
    let s := { at' (par 8 1 (some 2)) .busy (.running .showOp 7 1) [high] with pollCnt := 1 }
    see (exec .opBusyWait s)
        = some ⟨busyHigh, [.busyTimeout], .busy, .busyTimeout, ⟨.high, .high, .low⟩, true⟩
      ∧ field State.pollCnt (exec .opBusyWait s) = some 2
      ∧ field (fun t => t.responses.map Response.info) (exec .opBusyWait s)
        = some [.position (.running .showOp 7 (.polls 2))] := by decide

/-- B7 and B9: a LOW read ends the wait even when it is the N-th; a failed read is not counted. -/
theorem test_busyWait_low_and_failed :
    (field State.pollCnt (exec .opBusyWait (at' (par 8 1 (some 1)) .busy (.running .showOp 7 0) [yes])) = some 0
      ∧ field State.pc (exec .opBusyWait (at' (par 8 1 (some 1)) .busy (.running .showOp 7 0) [yes]))
        = some (.running .showOp 8 0))
      ∧ let s := { at' (par 8 1 none) .busy (.running .showOp 7 1) [lost] with pollCnt := 1 }
        field State.pollCnt (exec .opBusyWait s) = some 1
          ∧ field State.fault (exec .opBusyWait s) = some .transportFailure := by decide

/-- P11 and P12. -/
theorem test_primitives :
    see (exec (.opSendCommand 0x20#8) (at' referenceParams .busy (.running .showOp 6 0) (yeses 2)))
        = some ⟨cmd 0x20#8, [], .busy, .none, ⟨.high, .high, .low⟩, true⟩
      ∧ see (exec (.opSendData 0x03#8)
          (pinned ⟨.high, .high, .high⟩ (at' referenceParams .reset (.running .initOp 11 0) (yeses 2))))
        = some ⟨dat 0x03#8, [], .reset, .none, ⟨.high, .high, .high⟩, true⟩ := by decide

/-- P9 and P10. -/
theorem test_illegal_operations :
    [1#4, 2#4, 3#4, 8#4, 9#4, 10#4, 11#4, 12#4, 13#4, 14#4, 15#4].map
        (fun c => see (exec (decodeRequest c .absent) State.reset))
      = List.replicate 11 (some ⟨[], [.illegalOperation], .unpowered, .none, ⟨.low, .low, .low⟩, true⟩) := by decide

/-! ### Chip commands and the data frame -/

/-- Every command word runs as the next step of a state it is placed in, and sends its opcode with `DC` LOW. -/
theorem test_commands_run :
    [0x12, 0x11, 0x44, 0x45, 0x21, 0x4E, 0x4F, 0x24, 0x26, 0x20, 0x10].map (fun o =>
        field State.trace (step ((at' referenceParams .busy .idle (yeses 2)).withFetchWord 16 o)))
      = [0x12#8, 0x11#8, 0x44#8, 0x45#8, 0x21#8, 0x4E#8, 0x4F#8, 0x24#8, 0x26#8, 0x20#8, 0x10#8].map
          fun o => some (cmd o) := by decide

/-- A data word runs as the first byte of the primary plane. -/
theorem test_data_runs :
    field State.trace (step ((at' referenceParams .busy .idle (yeses 2)).withFetchWord 16 0x127)) = some (dat 0x27#8)
      ∧ field State.byteIdx (step ((at' referenceParams .busy .idle (yeses 2)).withFetchWord 16 0x127)) = some 1 := by
  decide

/-- Host words run as the next request, also after reset. -/
theorem test_host_word_runs :
    see (step (State.reset.withFetchWord 8 4))
        = some ⟨[], [.illegalState], .unpowered, .none, ⟨.low, .low, .low⟩, true⟩
      ∧ see (step (State.reset.withFetchWord 8 15))
        = some ⟨[], [.illegalOperation], .unpowered, .none, ⟨.low, .low, .low⟩, true⟩ := by decide

/-- G2: the wire view of `initialize` on a 16 x 2 panel begins `P+ R- R+ C:12` from a RST line that is not LOW (10_state.md
R26 allows that after block reset), and `lastSent` reads the Y window. -/
theorem test_wire_view :
    let p := par 16 2 none
    (wireView ⟨.low, .high, .low⟩ [] (initializeEvents p 1 0 2)).take 4
        = [.power .high, .reset .low, .reset .high, .frame 0x012#9]
      ∧ lastSent p.opcodes .setYWindow (initializeEvents p 1 0 2) = some [0x00#8, 0x01#8, 0x00#8]
      ∧ lastSent p.opcodes .refresh (initializeEvents p 1 0 2) = none := by decide

/-- 43_primitives.md R112 with 40_init_reset_sync.md R77 (c): from the latches of reset the first write of RST changes no
level and is left out of the view, and `powerOff` from `initialize` shows `P- R-` (G2). -/
theorem test_wire_view_redundant :
    (wireView State.reset.lines [] (initializeEvents (par 16 2 none) 0 0 0)).take 3
        = [.power .high, .reset .high, .frame 0x012#9]
      ∧ wireView ⟨.high, .high, .high⟩ [] (pDown ++ dDown ++ rDown ++ [.busRelease true])
        = [.power .low, .reset .low] := by decide

/-- The old or the new level after a failed write (60_exceptions.md R151), and no other: `R-` fails on a line that is LOW, and
`powerOff` drives it LOW again; `P+` fails on a LOW line, and `P-` follows; `D+` fails, and a byte follows. -/
theorem test_wire_view_failed_writes :
    [false, true].map (fun a => wireView ⟨.low, .low, .low⟩ [a] ([.pinWrite .rst .low false] ++ rDown)) = [[], []]
      ∧ [false, true].map (fun a => wireView ⟨.low, .low, .low⟩ [a] ([.pinWrite .pwr .high false] ++ pDown))
        = [[], [.power .high, .power .low]]
      ∧ [false, true].map (fun a => wireView ⟨.low, .low, .low⟩ [a] ([.pinWrite .dc .high false, .busSend 0x20#8 true]))
        = [[.frame 0x020#9], [.frame 0x120#9]] := by decide

/-! ### Runs (70_reset_and_hazards.md R172, R187) -/

/-- What a run shows: its statuses once it is over, and whether it is clean. -/
structure SeenRun where
  result : Option (List Status)
  clean : Bool
deriving DecidableEq, Repr

def seeRun (s : State) : SeenRun := ⟨s.runResult.map fun r => r.responses.map Response.status, s.clean⟩

/-- Two `powerOff` to come, in POWERED_OFF. -/
def twice : State :=
  { State.reset with state := .poweredOff, busOwned := false, host := [.request 7#4 .absent, .request 7#4 .absent] }

/-- Lines that the latches do not match, and a block reset to come. -/
def resetDue : State :=
  { at' (par 8 1 none) .idle .idle [] with
    lines := ⟨.low, .high, .low⟩, host := [.blockReset], responses := [⟨.illegalState, .none⟩] }

/-- G2 step 5 from POWERED_OFF, twice; P9: the run of a program ends with its last response, and is clean when all are OK.
Before that it has no result. -/
theorem test_run_ends :
    [0, 1, 2, 3].map (fun n => field seeRun (Host.Core.run core n twice))
        = [some ⟨none, false⟩, some ⟨none, false⟩, some ⟨some [.ok, .ok], true⟩, some ⟨some [.ok, .ok], true⟩]
      ∧ [0, 1].map (fun n => field seeRun (Host.Core.run core n (State.load [(1#4, .absent)] twice)))
        = [some ⟨none, false⟩, some ⟨some [.illegalOperation], false⟩] := by decide

/-- A run whose busy-wait reads HIGH for ever is never over: not after its first poll, nor after its second. -/
theorem test_hung_run :
    let s := at' (par 8 1 none) .busy (.running .showOp 7 0) [high, high, high]
    [0, 1, 2, 3].map (fun n => field seeRun (Host.Core.run core n s)) = List.replicate 4 (some ⟨none, false⟩) := by decide

/-- A block reset begins a run: what came before does not count.  From POWERED_OFF it leaves the lines as they are, whatever they
are, and draws nothing; so does one before any event of the run. -/
theorem test_blockReset_expected :
    [{ resetDue with state := .poweredOff, trace := busyLow }, resetDue].map
        (fun s => (field State.lines (step s), field State.draws (step s), field seeRun (step s)))
      = List.replicate 2 (some ⟨.low, .high, .low⟩, some 0, some ⟨some [], true⟩) := by decide

/-- In mid-session it leaves any levels, and the latches LOW. -/
theorem test_blockReset_midsession :
    let s : State := { at' (par 8 1 none) .busy (.running .showOp 7 1) [] with host := [.blockReset], trace := busyHigh }
    field (fun t => (t.lines, t.draws)) (step s)
        = some (⟨(Config.freeLevels 0).1, (Config.freeLevels 0).2.1, (Config.freeLevels 0).2.2⟩, 1)
      ∧ field (fun t => (t.pins, t.state)) (step s) = some (⟨.low, .low, .low⟩, .unpowered) := ⟨rfl, by decide⟩

theorem test_invalid_geometry_refused :
    refusal (exec .opPowerOff { State.reset with params := par 150 296 none }) = some .invalidParameters := by decide

/-! ### Witnesses: for every statement that has hypotheses, a state and operands that meet them together -/

/-- 8 x 1: one byte a plane.  The buffer has an entry for a plane that is not in `PLANES`. -/
def tiny : Params := par 8 1 none
def tinyBuffer : Buffer := [(.primary, [0xA5#8]), (.accent, [0x5A#8]), (.other 7, [])]
def tinyIdle (a : List Answer) : State := at' tiny .idle .idle a
def tinyUnpowered (a : List Answer) : State := { State.reset with params := tiny, inputs := a }

theorem smooth_of_all {n : Nat} {s : State}
    (h : ((List.range n).all fun i => (s.answerAt i).completes && (s.answerAt i).busy == .low) = true) : s.smooth n := by
  intro i hi
  have := List.all_eq_true.mp h i (List.mem_range.mpr hi)
  simpa using this

theorem noFail_of_all {n : Nat} {s : State} (h : ((List.range n).all fun i => (s.answerAt i).completes) = true) :
    s.noFail n := fun i hi => List.all_eq_true.mp h i (List.mem_range.mpr hi)

theorem witness_DecodeOfEncode : ∃ t : CommandTable, t.distinct = true := ⟨CommandTable.default, by decide⟩

theorem witness_FramesDecodeUniquely :
    (∃ (f : Frame) (i : Instr), decodeFrame CommandTable.default f = .ok i)
      ∧ (∃ (f : Frame) (e : DecodeError), decodeFrame CommandTable.default f = .error e) :=
  ⟨⟨0x1FF#9, .data 0xFF#8, rfl⟩, 0x0FF#9, .unknownOpcode 0xFF#8, rfl⟩

theorem witness_geometries : geometryValid tiny.geometry = true ∧ geometryValid (par 256 512 none).geometry = true
    ∧ bufFind .primary tinyBuffer = some [0xA5#8] ∧ [0xA5#8].length = planeBytes tiny.geometry
    ∧ 7 < tiny.geometry.width ∧ 0 < tiny.geometry.height ∧ 16383 < planeBytes (par 256 512 none).geometry := by decide

theorem witness_BlockResetRegisters : ∃ (s : State) (rest : List HostAction), s.host = .blockReset :: rest :=
  ⟨{ tinyIdle [] with host := [.blockReset] }, [], rfl⟩

theorem witness_IdleBlockWaits : State.reset.pc = .idle ∧ State.reset.host = [] := by decide

theorem witness_StepRunsRequest : ∃ (s : State) (c : OpCode) (o : Operand) (i : Instr),
    s.pc = .idle ∧ s.host = .request c o :: [] ∧ decode s.params.opcodes (.request c o) = .ok i :=
  ⟨{ tinyIdle [] with host := [.request 4#4 (.buffer tinyBuffer)] }, 4#4, .buffer tinyBuffer, .opShow tinyBuffer,
    rfl, rfl, rfl⟩

/-- One position of each kind: PW (at and away from `hardReset`), DL, BW, SC, SD, ST, the byte loop, CHK, BR. -/
theorem witness_StepRunsPosition :
    [(HostOp.initOp, 2), (.initOp, 0), (.initOp, 3), (.initOp, 6), (.initOp, 10), (.initOp, 11), (.initOp, 29),
      (.showOp, 3), (.showOp, 0), (.powerOffOp, 3)].map (fun q => (program tiny q.1)[q.2]?)
      = [some (.pw .rst .low), some (.pw .pwr .high), some .dl, some .bw, some (.sc 0x11#8), some (.sd 0x03#8),
         some (.st .idle), some .stream, some .chk, some .br]
      ∧ (tinyIdle []).noReset = true ∧ memRead (planeAt 0) 0 tinyBuffer = some 0xA5#8
      ∧ 0 < planeBytes tiny.geometry
      ∧ decode tiny.opcodes (.frame (mkFrame .low 0x11#8)) = .ok .cmdDataEntryMode := by
  refine ⟨by decide, by decide, by decide, by decide, rfl⟩

theorem witness_ProcedureAndReservedCodes : State.reset.pc = .idle
    ∧ ∀ c ∈ [1#4, 3#4, 8#4, 15#4], c.toNat ≠ 0 ∧ c.toNat ≠ 4 ∧ c.toNat ≠ 5 ∧ c.toNat ≠ 6 ∧ c.toNat ≠ 7 := by decide

theorem witness_RejectedRequests : (tinyIdle []).pc = .idle ∧ paramsValid (tinyIdle []).params = true
    ∧ (tinyIdle []).state ≠ .unpowered ∧ (tinyUnpowered []).state ≠ .idle ∧ (tinyUnpowered []).state ≠ .configured
    ∧ { tinyIdle [] with fault := .interrupted }.fault ≠ .none := by decide

/-- Each bound broken alone. -/
theorem witness_InvalidGeometryRefused :
    ∀ q ∈ [(150, 296), (0, 1), (264, 1), (8, 0), (8, 513)],
      ¬ (q.1 % 8 = 0 ∧ 8 ≤ q.1 ∧ q.1 ≤ 256 ∧ 1 ≤ q.2 ∧ q.2 ≤ 512) := by decide

/-- The four clauses: no primary entry; a primary entry one byte too long; no accent entry; an empty accent entry. -/
theorem witness_BadBuffersRejected : (tinyIdle []).state = .idle ∧ (tinyIdle []).fault = .none
    ∧ bufFind .primary [(PlaneId.accent, [0#8])] = none
    ∧ bufFind .primary [(PlaneId.primary, [0#8, 0#8])] = some [0#8, 0#8]
    ∧ [0#8, 0#8].length ≠ planeBytes tiny.geometry ∧ [0#8].length = planeBytes tiny.geometry
    ∧ bufFind .accent [(PlaneId.primary, [0#8])] = none
    ∧ bufFind .accent [(PlaneId.primary, [0#8]), (PlaneId.accent, [])] = some []
    ∧ ([] : List Byte).length ≠ planeBytes tiny.geometry := by decide

/-- `initialize` completes. -/
theorem witness_Initialize : ∃ s : State, s.pc = .idle ∧ paramsValid s.params = true ∧ s.state = .unpowered
    ∧ s.fault = .none ∧ s.smooth 44 :=
  ⟨tinyUnpowered (yeses 44), rfl, by decide, rfl, rfl, smooth_of_all (by decide)⟩

/-- A requested `initialize` with HIGH polls in its first and last wait, without and with a timeout: its run, its wire view
and its commands. -/
theorem witness_InitializeRun : ∀ t ∈ [none, some 3], ∃ (s : State) (o : Operand) (rest : List HostAction),
    s.pc = .idle ∧ s.host = .request 0#4 o :: rest ∧ rest.head? ≠ some .blockReset ∧ paramsValid s.params = true
      ∧ s.state = .unpowered ∧ s.fault = .none ∧ s.trace = [] ∧ s.params.busyTimeoutPolls = t ∧ s.initializes 1 0 2 := by
  intro t ht
  let s (t : Option Nat) : State := { tinyUnpowered (yeses 5 ++ [high] ++ yeses 38 ++ [high, high, yes]) with
    params := par 8 1 t, host := [.request 0#4 .absent, .request 6#4 .absent] }
  rcases List.mem_pair.mp ht with rfl | rfl
  · exact ⟨s none, .absent, [.request 6#4 .absent], rfl, rfl, by decide, by decide, rfl, rfl, rfl, rfl, noFail_of_all rfl,
      ⟨by decide, rfl⟩, ⟨by decide, rfl⟩, ⟨by decide, rfl⟩, fun n hn => by cases hn⟩
  · exact ⟨s (some 3), .absent, [.request 6#4 .absent], rfl, rfl, by decide, by decide, rfl, rfl, rfl, rfl,
      noFail_of_all rfl, ⟨by decide, rfl⟩, ⟨by decide, rfl⟩, ⟨by decide, rfl⟩, fun n hn => by cases hn; decide⟩

/-- The pin writes of `initialize` fail, each clause, with and without effect. -/
theorem witness_InitializePinWriteFails : ∀ a ∈ [lost, late],
    (tinyUnpowered [a]).state = .unpowered ∧ (tinyUnpowered [a]).fault = .none ∧ (tinyUnpowered [a]).pc = .idle
      ∧ paramsValid tiny = true ∧ ((tinyUnpowered [a]).answerAt 0).completes = false
      ∧ (tinyUnpowered (yeses 1 ++ [a])).noFail 1 ∧ ((tinyUnpowered (yeses 1 ++ [a])).answerAt 1).completes = false
      ∧ (tinyUnpowered (yeses 3 ++ [a])).noFail 3 ∧ ((tinyUnpowered (yeses 3 ++ [a])).answerAt 3).completes = false := by
  intro a ha
  rcases List.mem_pair.mp ha with rfl | rfl <;>
    exact ⟨rfl, rfl, rfl, by decide, rfl, noFail_of_all rfl, rfl, noFail_of_all rfl, rfl⟩

/-- `show` and `clearDisplay` complete. -/
theorem witness_Show : ∃ (s : State) (b : Buffer) (primary accent : List Byte),
    s.pc = .idle ∧ paramsValid s.params = true ∧ (s.state = .idle ∨ s.state = .configured) ∧ s.fault = .none
      ∧ bufFind .primary b = some primary ∧ primary.length = planeBytes s.params.geometry
      ∧ bufFind .accent b = some accent ∧ accent.length = planeBytes s.params.geometry
      ∧ s.smooth (4 * planeBytes s.params.geometry + 7) :=
  ⟨tinyIdle (yeses 11), tinyBuffer, [0xA5#8], [0x5A#8], rfl, by decide, .inl rfl, rfl, rfl, rfl, rfl, rfl,
    smooth_of_all (by decide)⟩

/-- A requested `show` with two HIGH polls, below a timeout: its wire view. -/
theorem witness_ShowFrames : ∃ (s : State) (b : Buffer) (rest : List HostAction) (primary accent : List Byte),
    s.pc = .idle ∧ s.host = .request 4#4 (.buffer b) :: rest ∧ rest.head? ≠ some .blockReset
      ∧ paramsValid s.params = true ∧ (s.state = .idle ∨ s.state = .configured) ∧ s.fault = .none
      ∧ bufFind .primary b = some primary ∧ primary.length = planeBytes s.params.geometry
      ∧ bufFind .accent b = some accent ∧ accent.length = planeBytes s.params.geometry ∧ s.shows 2 :=
  ⟨{ tinyIdle (yeses 10 ++ [high, high, yes]) with
      params := par 8 1 (some 3), host := [.request 4#4 (.buffer tinyBuffer), .request 7#4 .absent] },
    tinyBuffer, [.request 7#4 .absent], [0xA5#8], [0x5A#8], rfl, rfl, by decide, by decide, .inl rfl, rfl, rfl, rfl, rfl, rfl,
    noFail_of_all rfl, ⟨by decide, rfl⟩, fun n hn => by cases hn; decide⟩

/-- Two states that differ in the name of `clearDisplay` only, in a position and in a diagnosis. -/
theorem witness_StepRespectsShowName : ∃ s t : State, s ≠ t ∧ s.asShow = t.asShow :=
  ⟨{ at' tiny .busy (.running .showOp 7 1) [high] with responses := [⟨.busyTimeout, .position (.running .showOp 7 (.polls 1))⟩] },
    { at' tiny .busy (.running .clearOp 7 1) [high] with responses := [⟨.busyTimeout, .position (.running .clearOp 7 (.polls 1))⟩] },
    by decide, by decide⟩

/-- The other state in which frames are accepted, and a request of `clearDisplay`. -/
theorem witness_framesAllowed : { tinyIdle [] with state := .configured }.state = .configured
    ∧ { tinyIdle [] with state := .configured }.pc = .idle ∧ paramsValid tiny = true := by decide

/-- `sleep` and `powerOff` complete. -/
theorem witness_SleepAndPowerOff : ∃ s : State, s.pc = .idle ∧ paramsValid s.params = true
    ∧ (s.state = .idle ∨ s.state = .configured) ∧ s.fault = .none ∧ s.state ≠ .poweredOff ∧ s.smooth 4 :=
  ⟨tinyIdle (yeses 4), rfl, by decide, .inl rfl, rfl, by decide, smooth_of_all (by decide)⟩

theorem witness_PowerOffIdempotent : ∃ s : State, s.pc = .idle ∧ paramsValid s.params = true ∧ s.state = .poweredOff :=
  ⟨{ tinyIdle [] with state := .poweredOff }, rfl, by decide, rfl⟩

theorem witness_PowerOffReleaseFails : ∃ s : State, s.pc = .idle ∧ paramsValid s.params = true
    ∧ s.state ≠ .poweredOff ∧ s.smooth 3 ∧ (s.answerAt 3).completes = false :=
  ⟨tinyIdle (yeses 3 ++ [late]), rfl, by decide, by decide, smooth_of_all (by decide), rfl⟩

/-- The pin writes of `powerOff` fail, each clause, with and without effect, also after a sticky error. -/
theorem witness_PowerOffPinWriteFails : ∀ a ∈ [lost, late],
    (tinyIdle [a]).pc = .idle ∧ paramsValid tiny = true ∧ (tinyIdle [a]).state ≠ .poweredOff
      ∧ ((tinyIdle [a]).answerAt 0).completes = false
      ∧ (tinyIdle (yeses 1 ++ [a])).noFail 1 ∧ ((tinyIdle (yeses 1 ++ [a])).answerAt 1).completes = false
      ∧ (tinyIdle (yeses 2 ++ [a])).noFail 2 ∧ ((tinyIdle (yeses 2 ++ [a])).answerAt 2).completes = false := by
  intro a ha
  rcases List.mem_pair.mp ha with rfl | rfl <;>
    exact ⟨rfl, by decide, by decide, rfl, noFail_of_all rfl, rfl, noFail_of_all rfl, rfl⟩

/-- The pin writes of `hardReset` fail, each clause, with and without effect. -/
theorem witness_HardResetPinWriteFails : ∀ a ∈ [lost, late],
    (∃ s : State, s.pc = .running .initOp 2 0 ∧ (s.answerAt 0).completes = false ∧ s.answerAt 0 = a)
      ∧ ∃ s : State, s.pc = .running .initOp 2 0 ∧ s.noFail 2 ∧ (s.answerAt 2).completes = false ∧ s.answerAt 2 = a := by
  intro a ha
  rcases List.mem_pair.mp ha with rfl | rfl <;>
    exact ⟨⟨at' tiny .powered (.running .initOp 2 0) [_], rfl, rfl, rfl⟩,
      at' tiny .powered (.running .initOp 2 0) (yeses 2 ++ [_]), rfl, noFail_of_all rfl, rfl, rfl⟩

theorem witness_HardReset : ∃ s : State, s.pc = .running .initOp 2 0 ∧ s.smooth 5 :=
  ⟨at' tiny .powered (.running .initOp 2 0) (yeses 5), rfl, smooth_of_all (by decide)⟩

theorem witness_HardResetInterrupted :
    (∃ s : State, s.pc = .running .initOp 2 0 ∧ s.smooth 1 ∧ (s.answerAt 1).completes = false)
      ∧ ∃ s : State, s.pc = .running .initOp 2 0 ∧ s.smooth 3 ∧ (s.answerAt 3).completes = false :=
  ⟨⟨at' tiny .powered (.running .initOp 2 0) (yeses 1 ++ [lost]), rfl, smooth_of_all (by decide), rfl⟩,
    at' tiny .powered (.running .initOp 2 0) (yeses 3 ++ [lost]), rfl, smooth_of_all (by decide), rfl⟩

theorem witness_SoftReset : ∃ s : State, s.pc = .running .initOp 7 0 ∧ s.smooth 3 :=
  ⟨at' tiny .powered (.running .initOp 7 0) (yeses 3), rfl, smooth_of_all (by decide)⟩

/-- The four clauses of a poll: LOW, HIGH below the timeout, HIGH at the timeout, a failed read. -/
theorem witness_BusyWaitPolls : (program tiny .showOp)[7]? = some .bw
    ∧ ((tinyIdle [yes]).answerAt 0).completes = true ∧ ((tinyIdle [yes]).answerAt 0).busy = .low
    ∧ ((tinyIdle [high]).answerAt 0).completes = true ∧ ((tinyIdle [high]).answerAt 0).busy = .high
    ∧ tiny.busyTimeoutPolls = none ∧ (par 8 1 (some 1)).busyTimeoutPolls = some 1 ∧ 1 ≤ 0 + 1
    ∧ ((tinyIdle [lost]).answerAt 0).completes = false := by decide

/-- A timeout of 3 is not reached by the second HIGH read. -/
theorem witness_BusyWaitPolls_below : ∀ n, (par 8 1 (some 3)).busyTimeoutPolls = some n → 1 + 1 < n := by
  rintro n h; cases h; decide

theorem witness_HighBusyLineHangs : ∃ s : State, s.pc = .running .showOp 7 1
    ∧ (program s.params .showOp)[7]? = some .bw ∧ s.params.busyTimeoutPolls = none ∧ s.noReset = true
    ∧ ∀ i, i < 2 → (s.answerAt i).completes = true ∧ (s.answerAt i).busy = .high :=
  ⟨at' tiny .busy (.running .showOp 7 1) [high, high], rfl, by decide, rfl, rfl, by decide⟩

/-- Two HIGH polls and a LOW one: `n = 1`. -/
theorem witness_ShowEndsWhenBusyFalls : ∃ (s : State) (b : Buffer) (rest : List HostAction) (primary accent : List Byte),
    s.pc = .idle ∧ s.host = .request 4#4 (.buffer b) :: rest ∧ rest.head? ≠ some .blockReset
      ∧ paramsValid s.params = true ∧ s.params.busyTimeoutPolls = none ∧ (s.state = .idle ∨ s.state = .configured)
      ∧ s.fault = .none ∧ bufFind .primary b = some primary ∧ primary.length = planeBytes s.params.geometry
      ∧ bufFind .accent b = some accent ∧ accent.length = planeBytes s.params.geometry
      ∧ (∀ i, i < 4 * planeBytes s.params.geometry + 1 + 8 → (s.answerAt i).completes = true)
      ∧ (∀ i, i < 1 + 1 → (s.answerAt (4 * planeBytes s.params.geometry + 6 + i)).busy = .high)
      ∧ (s.answerAt (4 * planeBytes s.params.geometry + 7 + 1)).busy = .low :=
  ⟨{ tinyIdle (yeses 10 ++ [high, high, yes]) with
      host := [.request 4#4 (.buffer tinyBuffer), .request 7#4 .absent] },
    tinyBuffer, [.request 7#4 .absent], [0xA5#8], [0x5A#8],
    rfl, rfl, by decide, by decide, rfl, .inl rfl, rfl, rfl, rfl, rfl, rfl, by decide, by decide, rfl⟩

/-- A position at which a frame is due: for the primitives, the data frame and the chip commands. -/
theorem witness_Frame : ∃ (s : State) (op : HostOp) (k : Nat), s.pc = .running op k 0 ∧ s.smooth 2 :=
  ⟨at' tiny .reset (.running .initOp 11 0) (yeses 2), .initOp, 11, rfl, smooth_of_all (by decide)⟩

theorem witness_CommandsCarryTheirArguments : ∃ s : State,
    s.pc = .running (commandPosition .setYWindow).1 (commandPosition .setYWindow).2 0 ∧ s.noReset = true
      ∧ paramsValid s.params = true ∧ s.smooth (2 * (3 + 1)) :=
  ⟨at' tiny .reset (.running .initOp 15 0) (yeses 8), rfl, rfl, by decide, smooth_of_all (by decide)⟩

/-- The last byte of a one-byte plane, and the first of a four-byte plane, in rows 3 and 5. -/
theorem witness_ByteLoopAdvances : ∀ k ∈ [3, 5],
    (∃ s : State, s.pc = .running .showOp k 0 ∧ s.smooth 2 ∧ s.byteIdx + 1 = planeBytes s.params.geometry)
      ∧ ∃ s : State, s.pc = .running .clearOp k 0 ∧ s.smooth 2 ∧ s.byteIdx + 1 < planeBytes s.params.geometry := by
  intro k hk
  rcases List.mem_pair.mp hk with rfl | rfl <;>
    exact ⟨⟨at' tiny .busy (.running .showOp _ 0) (yeses 2), rfl, smooth_of_all (by decide), by decide⟩,
      at' (par 16 2 none) .busy (.running .clearOp _ 0) (yeses 2), rfl, smooth_of_all (by decide), by decide⟩

/-- The premises on the level before a write: the same and another, after a completed write and after a failed one that did not
take effect and one that did. -/
theorem witness_WireViewShowsLevelChanges :
    let x : Pins := State.reset.lines
    [false].length = pUp.length ∧ (x.afterAll [false] pUp).get .pwr = .high ∧ (x.afterAll [false] pUp).pwr ≠ .low
      ∧ (x.afterAll [false] rUp).get .rst = .high ∧ (x.afterAll [false] rUp).rst ≠ .low
      ∧ (x.afterAll [false] dUp).get .dc = .high
      ∧ (x.afterAll [false] [.pinWrite .rst .high false]).rst ≠ .high
      ∧ (x.afterAll [true] [.pinWrite .pwr .high false]).pwr ≠ .low := by decide

theorem witness_FailedFramesAbort :
    ((at' tiny .busy (.running .showOp 6 0) [late]).answerAt 0).completes = false
      ∧ ((at' tiny .busy (.running .showOp 6 0) [yes, lost]).answerAt 0).completes = true
      ∧ ((at' tiny .busy (.running .showOp 6 0) [yes, lost]).answerAt 1).completes = false
      ∧ ChipCommand.instr .refresh = .cmdRefresh
      ∧ (at' tiny .busy (.running .showOp 3 0) [late]).pc = .running .showOp 3 0
      ∧ (at' tiny .busy (.running .clearOp 5 0) [late]).pc = .running .clearOp 5 0 := by decide

/-- An instruction that gives a next state, with each premise of the frame's clauses. -/
theorem witness_InstructionFrames : ∃ (s t : State), exec .reserved10 s = .next t ∧ isHostOp .reserved10 = false
    ∧ ∀ k sub, s.pc ≠ .running .showOp k sub ∧ s.pc ≠ .running .clearOp k sub :=
  ⟨State.reset, _, rfl, rfl, fun _ _ => ⟨by simp [State.reset], by simp [State.reset]⟩⟩

/-- The invariant holds at `IDLE_PC` after `initialize`, in a poll loop, in the byte loop, and after a sticky error. -/
theorem witness_Inv : BlockInv (tinyIdle []) = true
    ∧ BlockInv { at' tiny .busy (.running .showOp 7 1) [] with
        planeIdx := 1, byteIdx := 1, operand := Memory.snapshot tinyBuffer } = true
    ∧ BlockInv { at' tiny .busy (.running .clearOp 3 0) [] with operand := blank tiny.geometry } = true
    ∧ BlockInv { at' tiny .busy .idle [] with fault := .busyTimeout } = true := by decide

/-- A step that gives a next state, from a state that meets the invariant and has no block reset to do. -/
theorem witness_step : ∃ s t : State, BlockInv s = true ∧ s.noReset = true ∧ step s = .next t :=
  ⟨tinyIdle [], tinyIdle [], by decide, rfl, rfl⟩

/-- A step that answers with a sticky error where there was none: Interrupted, in the first hold. -/
theorem witness_sticky : ∃ s t : State, ∃ r : Response, BlockInv s = true ∧ s.noReset = true ∧ s.fault = .none
    ∧ step s = .next t ∧ t.responses = s.responses ++ [r] ∧ r.status.sticky ≠ .none ∧ r.status = .interrupted
    ∧ t.fault ≠ .none ∧ r.info = .position (.running .initOp 3 (.event 0)) :=
  ⟨pinned ⟨.high, .low, .low⟩ (at' tiny .powered (.running .initOp 2 0) [yes, lost]), _,
    ⟨.interrupted, .position (.running .initOp 3 (.event 0))⟩, by decide, rfl, rfl, rfl, rfl, by decide, rfl, by decide, rfl⟩

/-- A step in which a sticky error stands already, and a host operation other than `powerOff` is requested. -/
theorem witness_faulty : ∃ s t : State, BlockInv s = true ∧ s.noReset = true ∧ s.pc = .idle ∧ paramsValid s.params = true
    ∧ s.fault ≠ .none ∧ step s = .next t ∧ isHostOp .opSleep = true ∧ Instr.opSleep ≠ .opPowerOff :=
  ⟨{ at' tiny .busy .idle [] with fault := .transportFailure, host := [.request 6#4 .absent] }, _, by decide, rfl, rfl,
    by decide, by decide, rfl, rfl, by decide⟩

/-- Steps that write `bus_owned` and the operand. -/
theorem witness_writes :
    (∃ s t : State, step s = .next t ∧ t.busOwned ≠ s.busOwned)
      ∧ ∃ s t : State, s.noReset = true ∧ step s = .next t ∧ t.operand ≠ s.operand :=
  ⟨⟨{ tinyIdle (yeses 4) with host := [.request 7#4 .absent] }, _, rfl, by decide⟩,
    { tinyIdle (yeses 11) with host := [.request 4#4 (.buffer tinyBuffer)] }, _, rfl, rfl, by decide⟩

/-- Steps from SLEEPING and from POWERED_OFF that meet the invariant. -/
theorem witness_StateFollowsSummary :
    BlockInv (pinned ⟨.high, .high, .high⟩ { tinyIdle [] with state := .sleeping }) = true
      ∧ BlockInv (pinned ⟨.low, .low, .low⟩ { tinyIdle [] with state := .poweredOff, busOwned := false }) = true := by decide

/-- Each host operation aborted at its first event, from a state that meets the invariant: the position of the response. -/
theorem witness_AbortLeavesState :
    [({ tinyUnpowered [lost] with host := [.request 0#4 .absent] } : State),
     { tinyIdle [lost] with host := [.request 4#4 (.buffer tinyBuffer)] }, { tinyIdle [lost] with host := [.request 5#4 .absent] },
     { tinyIdle [lost] with host := [.request 6#4 .absent] }, { tinyIdle [lost] with host := [.request 7#4 .absent] }].map
        (fun s => (BlockInv s, s.noReset, field State.responses (step s)))
      = [(Event.pinWrite .pwr .high false, HostOp.initOp, 0), (.pinWrite .dc .low false, .showOp, 2),
         (.pinWrite .dc .low false, .clearOp, 2), (.pinWrite .dc .low false, .sleepOp, 0),
         (.pinWrite .pwr .low false, .powerOffOp, 0)].map fun q =>
          (true, true, some [⟨.transportFailure, .event q.1 (.running q.2.1 q.2.2 (.event 0))⟩]) := by decide

/-- A block reset from POWERED_OFF, before any event of the run, and in mid-session. -/
theorem witness_blockReset : ∃ s t u : State, (∀ x ∈ [s, t, u], x.host = [.blockReset]) ∧ s.state = .poweredOff
    ∧ t.trace.length = t.run.events ∧ u.state ≠ .poweredOff ∧ u.trace.length ≠ u.run.events :=
  ⟨{ tinyIdle [] with host := [.blockReset], state := .poweredOff }, { tinyIdle [] with host := [.blockReset] },
    { tinyIdle [] with host := [.blockReset], trace := busyLow }, by decide, rfl, rfl, by decide, by decide⟩

/-- Steps from a run that is not over: one that answers the last request, and one that leaves the run not over. -/
theorem witness_BlockResetBeginsRun :
    (∃ s t : State, BlockInv s = true ∧ s.noReset = true ∧ step s = .next t ∧ s.runOver = false ∧ t.runOver = true)
      ∧ ∃ s t : State, BlockInv s = true ∧ s.noReset = true ∧ step s = .next t ∧ s.runOver = false ∧ t.runOver = false :=
  ⟨⟨{ tinyIdle (yeses 4) with host := [.request 7#4 .absent] }, _, by decide, rfl, rfl, rfl, by decide⟩,
    { tinyIdle (yeses 4) with host := [.request 7#4 .absent, .request 7#4 .absent] }, _, by decide, rfl, rfl, rfl,
    by decide⟩

end Sys2Proof.Tests
end

section
/-! The validity of a geometry and the refusal of host operations under invalid parameters (00_scope.md R6). -/

namespace Sys2Proof.Machine

/-- Validity is the bounds of 00_scope.md R6 together with the plane list of R7. -/
theorem geometryValid_iff (g : Geometry) :
    geometryValid g = true ↔
      (g.width % 8 = 0 ∧ 8 ≤ g.width ∧ g.width ≤ 256 ∧ 1 ≤ g.height ∧ g.height ≤ 512) ∧ g.planes = planeOrder := by
  simp only [geometryValid, Bool.and_eq_true, beq_iff_eq, decide_eq_true_eq, and_assoc]

/-- Valid parameters have a valid geometry. -/
theorem geometryValid_of_paramsValid {p : Params} (h : paramsValid p = true) : geometryValid p.geometry = true := by
  simp only [paramsValid, Bool.and_eq_true] at h
  obtain ⟨⟨⟨hg, -⟩, -⟩, -⟩ := h
  exact hg

/-- At `IDLE_PC` a host operation with invalid parameters is refused. -/
theorem hostOperation_invalid (op : HostOp) (b : Buffer) {s : State} (hp : s.pc = .idle)
    (hv : ¬ paramsValid s.params = true) : hostOperation op b s = .refused .invalidParameters := by
  simp only [hostOperation, hp]
  exact if_neg hv

/-- An instruction that names a host operation executes it, with the buffer it hands over. -/
theorem exec_eq_hostOperation {i : Instr} {s : State} {op : HostOp} {b : Buffer} (h : hostOpOf s i = some (op, b)) :
    exec i s = hostOperation op b s := by
  cases i with
  | opInitialize => cases h; rfl
  | opShow b => cases h; rfl
  | opClearDisplay => cases h; rfl
  | opSleep => cases h; rfl
  | opPowerOff => cases h; rfl
  | _ => cases h

/-- Settles O14: the bounds of R6 decide validity once the planes are those of R7, and a geometry outside them makes the
parameters invalid, so every host operation is refused. -/
theorem invalidGeometryRefused : Obligations.InvalidGeometryRefused := by
  refine ⟨fun g hplanes => ?_, fun s b hp hbad => ?_⟩
  · rw [geometryValid_iff, and_iff_left hplanes]
  · have hv : ¬ paramsValid s.params = true := fun hv =>
      hbad ((geometryValid_iff _).mp (geometryValid_of_paramsValid hv)).1
    have refused : ∀ {i op c}, hostOpOf s i = some (op, c) → exec i s = .refused .invalidParameters := fun hi =>
      (exec_eq_hostOperation hi).trans (hostOperation_invalid _ _ hp hv)
    exact ⟨refused rfl, refused rfl, refused rfl, refused rfl, refused rfl⟩

end Sys2Proof.Machine
end

section
/-! What a piece of a running operation does, said once: the elementary updates it is made of, what it leaves when it
completes, and how it stops. -/

namespace Sys2Proof.Machine

/-! ### The elementary updates -/

/-- The elementary updates of the state that the operations of the sequencer are made of. -/
inductive Update where
  | draw
  | emit (e : Event)
  | setPin (p : Pin) (v : Level)
  | setState (v : SeqState)
  | releaseBus
  | startWait
  | countPoll
  | setSub (n : Nat)
  | advance
  | respond (r : Response)
  | abort (c : Status) (x : ErrorInfo)
  | start (op : HostOp) (b : Buffer)

/-- The update of the model that each of them names. -/
def Update.apply : Update → State → State
  | .draw, s => s.drawn
  | .emit e, s => s.emit e
  | .setPin p v, s => s.setPin p v
  | .setState v, s => s.setState v
  | .releaseBus, s => s.releaseBus
  | .startWait, s => Sys2Proof.Machine.startWait s
  | .countPoll, s => s.countPoll
  | .setSub n, s => s.setSub n
  | .advance, s => s.advance
  | .respond r, s => s.respond r
  | .abort c x, s => s.abort c x
  | .start op b, s => startOp op b s

/-- The output pins a micro-operation drives. -/
def MicroOp.drives : MicroOp → Pin → Bool
  | .pw p _, q => p == q
  | .sc _, q | .sd _, q | .stream, q => q == .dc
  | .dl, _ | .bw, _ | .br, _ | .st _, _ | .chk, _ => false

/-- The updates a micro-operation may be made of. -/
def MicroOp.may (m : MicroOp) : Update → Prop
  | .setPin p _ => m.drives p = true
  | .setState v => m = .st v
  | .releaseBus => m = .br
  | .startWait | .countPoll => m = .bw
  | .start _ _ => False
  | .draw | .emit _ | .setSub _ | .advance | .respond _ | .abort _ _ => True

/-- `t` comes from `s` by updates that `A` allows. -/
inductive Path (A : Update → Prop) (s : State) : State → Prop
  | refl : Path A s s
  | snoc {t : State} (h : Path A s t) (u : Update) (hu : A u) : Path A s (u.apply t)

section path
variable {A B : Update → Prop} {s t u : State}

theorem Path.single (u : Update) (hu : A u) : Path A s (u.apply s) := Path.refl.snoc u hu

theorem Path.trans (h : Path A s t) (k : Path A t u) : Path A s u := by
  induction k with
  | refl => exact h
  | snoc _ u hu ih => exact ih.snoc u hu

theorem Path.mono (h : Path A s t) (hAB : ∀ u, A u → B u) : Path B s t := by
  induction h with
  | refl => exact .refl
  | snoc _ u hu ih => exact ih.snoc u (hAB u hu)

/-- What every allowed update keeps, the path keeps. -/
theorem Path.keeps {P : State → Prop} (h : Path A s t) (hP : ∀ u x, A u → P x → P (u.apply x)) (hs : P s) : P t := by
  induction h with
  | refl => exact hs
  | snoc _ u hu ih => exact hP u _ hu ih

/-- A register that no allowed update writes is left as it is. -/
theorem Path.unwritten {α : Type} (g : State → α) (h : Path A s t) (hg : ∀ u x, A u → g (u.apply x) = g x) :
    g t = g s :=
  h.keeps (P := fun x => g x = g s) (fun u x hu hx => (hg u x hu).trans hx) rfl

theorem Path.then {f : Flow} {k : State → Flow} (hf : Path A s f.state) (hk : ∀ t, Path A t (k t).state) :
    Path A s (f.then k).state := by
  cases f with
  | go t => exact hf.trans (hk t)
  | halt t => exact hf

end path

section pieces
variable {m : MicroOp} {s : State}

theorem Path.draw : Path m.may s s.drawn := Path.single .draw trivial

theorem Path.emit {t : State} (h : Path m.may s t) (e : Event) : Path m.may s (t.emit e) := h.snoc (.emit e) trivial

theorem Path.abort {t : State} (h : Path m.may s t) (c : Status) (x : ErrorInfo) : Path m.may s (t.abort c x) :=
  h.snoc (.abort c x) trivial

theorem Path.advance {t : State} (h : Path m.may s t) : Path m.may s t.advance := h.snoc .advance trivial

theorem Path.fail {t : State} (h : Path m.may s t) (e : Event) : Path m.may s (failEvent e t).state :=
  (h.emit e).abort _ _

theorem pinWrite_path {p : Pin} (hp : m.drives p = true) (v : Level) (s : State) :
    Path m.may s (pinWrite p v s).state := by
  have hset : Path m.may s (s.drawn.setPin p v) := Path.draw.snoc (.setPin p v) hp
  cases h : s.answer.completes with
  | true => rw [pinWrite_completes p v s h]; exact hset.emit _
  | false =>
    rw [pinWrite_fails p v s h]
    split
    · exact hset.fail _
    · exact Path.draw.fail _

theorem busSend_path (b : Byte) (s : State) : Path m.may s (busSend b s).state := by
  cases h : s.answer.completes with
  | true => rw [busSend_completes b s h]; exact Path.draw.emit _
  | false => rw [busSend_fails b s h]; exact Path.draw.fail _

theorem sendFrame_path (hp : m.drives .dc = true) (dc : Level) (b : Byte) (s : State) :
    Path m.may s (sendFrame dc b s).state := by
  by_cases h : s.pc.sub = 0
  · rw [sendFrame_start dc b s h]
    exact (pinWrite_path hp dc s).then fun t => (Path.single (.setSub 1) trivial).trans (busSend_path b _)
  · rw [sendFrame_resumed dc b s h]; exact busSend_path b s

theorem delayHold_path (s : State) : Path m.may s (delayHold s).state := by
  cases h : s.answer.completes with
  | true => rw [delayHold_elapses s h]; exact Path.draw.emit _
  | false => rw [delayHold_interrupted s h]; exact (Path.draw.emit _).abort _ _

theorem busRelease_path (s : State) : Path (MicroOp.may .br) s (busRelease s).state := by
  have hrel : Path (MicroOp.may .br) s s.drawn.releaseBus := Path.draw.snoc .releaseBus rfl
  cases h : s.answer.completes with
  | true => rw [busRelease_completes s h]; exact hrel.emit _
  | false =>
    rw [busRelease_fails s h]
    split
    · exact hrel.fail _
    · exact Path.draw.fail _

theorem busyPoll_path (s : State) : Path (MicroOp.may .bw) s (busyPoll s).state := by
  have hbase : Path (MicroOp.may .bw) s (pollBase s) :=
    (Path.single (A := MicroOp.may .bw) .startWait rfl).snoc .draw trivial
  have hcount : Path (MicroOp.may .bw) s (pollBase s).countPoll := hbase.snoc .countPoll rfl
  cases h : s.answer.completes with
  | false => rw [busyPoll_fails s h]; exact hbase.fail _
  | true =>
    cases hl : s.answer.busy with
    | low => rw [busyPoll_low s h hl]; exact hbase.emit _
    | high =>
      cases ht : timedOut s.params.busyTimeoutPolls ((pollBase s).pollCnt + 1) with
      | false => rw [busyPoll_high_waits s h hl ht]; exact (hcount.emit _).snoc (.setSub 1) trivial
      | true => rw [busyPoll_high_times_out s h hl ht]; exact (hcount.emit _).abort _ _

theorem streamBytes_path (n : Nat) (s : State) : Path (MicroOp.may .stream) s (streamBytes n s).state := by
  induction n generalizing s with
  | zero => exact .refl
  | succ n ih => exact (sendFrame_path rfl .high _ s).then fun t => Path.refl.advance.trans (ih _)

/-- EVERYTHING A MICRO-OPERATION DOES is made of the updates it may be made of. -/
theorem runMicro_path (m : MicroOp) (s : State) : Path m.may s (runMicro m s).state := by
  cases m with
  | pw p v => exact (pinWrite_path (m := .pw p v) (by simp [MicroOp.drives]) v s).then fun _ => Path.refl.advance
  | dl => exact (delayHold_path s).then fun _ => Path.refl.advance
  | bw => exact (busyPoll_path s).then fun _ => Path.refl.advance
  | sc o => exact (sendFrame_path rfl .low o s).then fun _ => Path.refl.advance
  | sd b => exact (sendFrame_path rfl .high b s).then fun _ => Path.refl.advance
  | stream => exact streamBytes_path _ s
  | br => exact (busRelease_path s).then fun _ => Path.refl.advance
  | st v => exact (Path.single (A := MicroOp.may (.st v)) (.setState v) rfl).advance
  | chk =>
    simp only [runMicro]
    split
    · exact Path.refl.advance
    · exact Path.single (.respond _) trivial

end pieces

/-- The updates of a list of micro-operations. -/
def mayAll (l : List MicroOp) (u : Update) : Prop := ∃ m ∈ l, m.may u

theorem runList_path {A : Update → Prop} (l : List MicroOp) (hA : ∀ u, mayAll l u → A u) (s : State) :
    Path A s (runList l s).state := by
  induction l generalizing s with
  | nil => exact .refl
  | cons m l ih =>
    exact ((runMicro_path m s).mono fun u hu => hA u ⟨m, List.mem_cons_self .., hu⟩).then
      (ih fun u ⟨n, hn, hu⟩ => hA u ⟨n, List.mem_cons_of_mem _ hn, hu⟩)

theorem runToEnd_path {A : Update → Prop} (l : List MicroOp) (hA : ∀ u, mayAll l u → A u)
    (hr : ∀ r, A (.respond r)) (s : State) : Path A s (runToEnd l s).state :=
  (runList_path l hA s).then fun _ => Path.single (.respond _) (hr _)

/-- The micro-operations an instruction may perform. -/
def microOpsOf (s : State) (i : Instr) : List MicroOp :=
  match hostOpOf s i with
  | some (op, _) => program s.params op
  | none => pieceOf s i

/-- The updates an instruction may be made of. -/
def mayUpdate (i : Instr) (s : State) : Update → Prop
  | .start op b => hostOpOf s i = some (op, b) ∧ s.pc = .idle
  | .respond _ => True
  | u => mayAll (microOpsOf s i) u

/-- The micro-operations of an instruction are among those it may perform. -/
theorem mayUpdate_of_mayAll {i : Instr} {s : State} {l : List MicroOp} (hl : ∀ m ∈ l, m ∈ microOpsOf s i)
    (u : Update) (hu : mayAll l u) : mayUpdate i s u := by
  have here : mayAll (microOpsOf s i) u := hu.imp fun m hm => ⟨hl m hm.1, hm.2⟩
  cases u with
  | start op b => obtain ⟨m, -, hm⟩ := hu; cases hm
  | respond r => trivial
  | _ => exact here

theorem microOpsOf_host {s : State} {i : Instr} {op : HostOp} {b : Buffer} (h : hostOpOf s i = some (op, b)) :
    microOpsOf s i = program s.params op := by
  rw [microOpsOf, h]

theorem pieceOf_sub (s : State) (i : Instr) : ∀ m ∈ pieceOf s i, m ∈ microOpsOf s i := by
  cases i with
  | opInitialize | opShow _ | opClearDisplay | opSleep | opPowerOff => exact fun _ hm => absurd hm List.not_mem_nil
  | _ => exact fun _ hm => hm

/-- EVERYTHING AN INSTRUCTION DOES is made of the updates it may be made of. -/
theorem exec_path {i : Instr} {s t : State} (h : exec i s = .next t) : Path (mayUpdate i s) s t := by
  rcases exec_cases h with ⟨c, -, rfl⟩ | ⟨op, b, hi, hp, -, rfl⟩ | ⟨op, b, k, sub, hi, -, -, -, rfl⟩ | rfl
  · exact Path.single (.respond _) trivial
  · unfold requestOp
    split
    · split
      · exact Path.single (.respond _) trivial
      · refine (Path.single (A := mayUpdate i s) (.start op b) ⟨hi, hp⟩).trans
          (runToEnd_path _ (mayUpdate_of_mayAll ?_) (fun _ => trivial) _)
        rw [microOpsOf_host hi]; exact fun _ hm => hm
    · exact Path.single (.respond _) trivial
  · refine runToEnd_path _ (mayUpdate_of_mayAll ?_) (fun _ => trivial) _
    rw [microOpsOf_host hi]; exact fun _ hm => List.mem_of_mem_drop hm
  · exact runList_path _ (mayUpdate_of_mayAll (pieceOf_sub s i)) _

end Sys2Proof.Machine
end

section
/-! What an instruction leaves unchanged (10_state.md R12, R13, R18 to R20, 20_memory.md R31), and who releases the bus. -/

namespace Sys2Proof.Machine

/-! ### Which micro-operations an instruction has -/

theorem no_st_of_not_hostOp {i : Instr} (h : isHostOp i = false) (s : State) (v : SeqState) :
    MicroOp.st v ∉ microOpsOf s i := by
  cases i with
  | opInitialize | opShow _ | opClearDisplay | opSleep | opPowerOff => cases h
  | _ => simp [microOpsOf, hostOpOf, pieceOf, hardResetOps, softResetOps, commandOps, argumentBytes]

theorem no_br_of_ne_powerOff {i : Instr} (h : i ≠ .opPowerOff) (s : State) : MicroOp.br ∉ microOpsOf s i := by
  cases i with
  | opPowerOff => exact absurd rfl h
  | _ =>
    simp [microOpsOf, hostOpOf, pieceOf, hardResetOps, softResetOps, commandOps, argumentBytes, program, initOps, showOps,
      sleepOps, configurationOps]

theorem no_bw_of {i : Instr} (hi : i ≠ .opInitialize) (hh : i ≠ .opHardReset) (hs : i ≠ .opSoftReset)
    (hb : i ≠ .opBusyWait) (hw : ∀ b, i ≠ .opShow b) (hc : i ≠ .opClearDisplay) (s : State) :
    MicroOp.bw ∉ microOpsOf s i := by
  cases i with
  | opInitialize | opHardReset | opSoftReset | opBusyWait | opClearDisplay => contradiction
  | opShow b => exact absurd rfl (hw b)
  | _ => simp [microOpsOf, hostOpOf, pieceOf, commandOps, argumentBytes, program, sleepOps, powerOffOps]

theorem no_pwr_drive {i : Instr} (hi : i ≠ .opInitialize) (ho : i ≠ .opPowerOff) (s : State) :
    ∀ m ∈ microOpsOf s i, m.drives .pwr = false := by
  cases i with
  | opInitialize | opPowerOff => contradiction
  | _ =>
    simp [microOpsOf, hostOpOf, pieceOf, hardResetOps, softResetOps, commandOps, argumentBytes, program, showOps, sleepOps,
      MicroOp.drives]

theorem no_rst_drive {i : Instr} (hi : i ≠ .opInitialize) (ho : i ≠ .opPowerOff) (hh : i ≠ .opHardReset) (s : State) :
    ∀ m ∈ microOpsOf s i, m.drives .rst = false := by
  cases i with
  | opInitialize | opPowerOff | opHardReset => contradiction
  | _ =>
    simp [microOpsOf, hostOpOf, pieceOf, softResetOps, commandOps, argumentBytes, program, showOps, sleepOps,
      MicroOp.drives]

theorem no_dc_drive {i : Instr} (h : i ∈ [Instr.opHardReset, .opBusyWait, .reserved10, .reserved11, .reserved12,
    .reserved13, .reserved14, .reserved15]) (s : State) : ∀ m ∈ microOpsOf s i, m.drives .dc = false := by
  simp only [List.mem_cons, List.not_mem_nil, or_false] at h
  rcases h with rfl | rfl | rfl | rfl | rfl | rfl | rfl | rfl <;>
    simp [microOpsOf, hostOpOf, pieceOf, hardResetOps, MicroOp.drives]

/-! ### The frames -/

section frames
variable {i : Instr} {s t : State}

/-- What no update but the start of an operation writes, no instruction writes. -/
theorem exec_keeps_outside (h : exec i s = .next t) : t.params = s.params ∧ t.host = s.host ∧ t.run = s.run := by
  have hp := exec_path h
  refine ⟨hp.unwritten State.params ?_, hp.unwritten State.host ?_, hp.unwritten State.run ?_⟩ <;>
    (intro u x _; cases u <;> simp [Update.apply])

theorem exec_state (h : exec i s = .next t) (hi : isHostOp i = false) : t.state = s.state := by
  refine (exec_path h).unwritten State.state fun u x hu => ?_
  cases u with
  | setState v => obtain ⟨m, hm, rfl⟩ := hu; exact absurd hm (no_st_of_not_hostOp hi s v)
  | _ => simp [Update.apply]

/-- A pin that none of its micro-operations drives keeps its level, on the latch and on the line. -/
theorem exec_pin (h : exec i s = .next t) {p : Pin} (hp : ∀ m ∈ microOpsOf s i, m.drives p = false) :
    t.pins.get p = s.pins.get p ∧ t.lines.get p = s.lines.get p := by
  have other : ∀ q v, mayUpdate i s (.setPin q v) → p ≠ q := fun q v ⟨m, hm, hq⟩ hpq => by
    subst hpq
    exact Bool.noConfusion ((hp m hm).symm.trans hq)
  constructor
  · refine (exec_path h).unwritten (fun x => x.pins.get p) fun u x hu => ?_
    cases u with
    | setPin q v => exact Pins.get_set_other _ _ (other q v hu)
    | _ => simp [Update.apply]
  · refine (exec_path h).unwritten (fun x => x.lines.get p) fun u x hu => ?_
    cases u with
    | setPin q v => exact Pins.get_set_other _ _ (other q v hu)
    | _ => simp [Update.apply]

theorem exec_busOwned (h : exec i s = .next t) (hi : i ≠ .opPowerOff) : t.busOwned = s.busOwned := by
  refine (exec_path h).unwritten State.busOwned fun u x hu => ?_
  cases u with
  | releaseBus => obtain ⟨m, hm, rfl⟩ := hu; exact absurd hm (no_br_of_ne_powerOff hi s)
  | _ => simp [Update.apply]

theorem exec_pollCnt (h : exec i s = .next t) (hb : MicroOp.bw ∉ microOpsOf s i) : t.pollCnt = s.pollCnt := by
  refine (exec_path h).unwritten State.pollCnt fun u x hu => ?_
  cases u with
  | startWait => obtain ⟨m, hm, rfl⟩ := hu; exact absurd hm hb
  | countPoll => obtain ⟨m, hm, rfl⟩ := hu; exact absurd hm hb
  | _ => simp [Update.apply]

/-- `show` and `clearDisplay` stream; nothing else does (41_frame.md R92). -/
def Pc.streams : Pc → Bool
  | .idle => false
  | .running op _ _ => op.streams

/-- Outside `show` and `clearDisplay` no advance writes a loop register. -/
theorem State.advance_loops (s : State) (h : s.pc.streams = false) :
    s.advance.pc.streams = false ∧ s.advance.planeIdx = s.planeIdx ∧ s.advance.byteIdx = s.byteIdx := by
  cases hp : s.pc with
  | idle => rw [State.advance_idle s hp]; exact ⟨h, rfl, rfl⟩
  | running op k sub =>
    rw [hp] at h
    rw [State.advance_plain s hp h]
    exact ⟨h, rfl, rfl⟩

theorem Pc.streams_setSub (n : Nat) (p : Pc) : (p.setSub n).streams = p.streams := by cases p <;> rfl

theorem hostOpOf_streams {op : HostOp} {b : Buffer} (h : hostOpOf s i = some (op, b)) (hs : ∀ b, i ≠ .opShow b)
    (hc : i ≠ .opClearDisplay) : op.streams = false := by
  cases i with
  | opShow b => exact absurd rfl (hs b)
  | opClearDisplay => exact absurd rfl hc
  | opInitialize | opSleep | opPowerOff => cases h; rfl
  | _ => cases h

theorem exec_loops (h : exec i s = .next t) (hs : ∀ b, i ≠ .opShow b) (hc : i ≠ .opClearDisplay)
    (hp : s.pc.streams = false) : t.planeIdx = s.planeIdx ∧ t.byteIdx = s.byteIdx := by
  refine ((exec_path h).keeps
    (P := fun x => x.pc.streams = false ∧ x.planeIdx = s.planeIdx ∧ x.byteIdx = s.byteIdx) ?_ ⟨hp, rfl, rfl⟩).2
  rintro u x hu ⟨hx, hpl, hby⟩
  cases u with
  | advance =>
    obtain ⟨h1, h2, h3⟩ := x.advance_loops hx
    exact ⟨h1, h2.trans hpl, h3.trans hby⟩
  | setSub n => exact ⟨(Pc.streams_setSub n x.pc).trans hx, hpl, hby⟩
  | respond r => exact ⟨rfl, hpl, hby⟩
  | abort c y => exact ⟨rfl, hpl, hby⟩
  | start op b => exact ⟨hostOpOf_streams hu.1 hs hc, hpl, hby⟩
  | _ => simpa [Update.apply] using And.intro hx ⟨hpl, hby⟩

theorem exec_operand (h : exec i s = .next t) (hi : (∀ b, i ≠ .opShow b) ∧ i ≠ .opClearDisplay ∨ s.pc ≠ .idle) :
    t.operand = s.operand := by
  refine (exec_path h).unwritten State.operand fun u x hu => ?_
  cases u with
  | start op b =>
    obtain ⟨ho, hp⟩ := hu
    obtain ⟨hs, hc⟩ := hi.resolve_right (not_not_intro hp)
    simp [Update.apply, hostOpOf_streams ho hs hc]
  | _ => simp [Update.apply]

end frames

/-- Settles O39: every instruction is made of elementary updates, and each register is written by the updates of the
instructions named only. -/
theorem instructionFrames : Obligations.InstructionFrames := by
  intro i s t h
  obtain ⟨hparams, hhost, hrun⟩ := exec_keeps_outside h
  refine ⟨hparams, hhost, hrun, exec_state h, fun hi ho => exec_pin h (no_pwr_drive hi ho s),
    fun hi ho hr => exec_pin h (no_rst_drive hi ho hr s), fun hd => exec_pin h (no_dc_drive hd s), exec_busOwned h,
    fun hi hh hs hb hw hc => exec_pollCnt h (no_bw_of hi hh hs hb hw hc s), fun hs hc hp => exec_loops h hs hc ?_,
    fun hi p n => ?_⟩
  · cases hpc : s.pc with
    | idle => rfl
    | running op k sub =>
      cases op with
      | showOp => exact absurd hpc (hp k sub).1
      | clearOp => exact absurd hpc (hp k sub).2
      | _ => rfl
  · rw [exec_operand h hi]
    exact ⟨rfl, rfl⟩

end Sys2Proof.Machine
end

section
/-! Which instruction a step executes, case by case, and who releases the bus (10_state.md R19). -/

namespace Sys2Proof.Machine

theorem noReset_eq_false_iff (s : State) : s.noReset = false ↔ ∃ rest, s.host = .blockReset :: rest := by
  unfold State.noReset
  split <;> simp [*]

theorem ofEncoded_ne_blockReset (e : Encoded) (s : State) (rest : List HostAction) :
    Fetched.ofEncoded e s ≠ .blockReset rest := by
  unfold Fetched.ofEncoded
  split <;> exact Fetched.noConfusion

theorem fetchRunning_ne_blockReset (op : HostOp) (k : Nat) (s : State) (rest : List HostAction) :
    fetchRunning op k s ≠ .blockReset rest := by
  have frame := fun f => ofEncoded_ne_blockReset (.frame f) s rest
  unfold fetchRunning
  split
  · exact Fetched.noConfusion
  · exact frame _
  · exact frame _
  · split
    · split
      · exact frame _
      · exact Fetched.noConfusion
    · exact Fetched.noConfusion
  · exact Fetched.noConfusion
  · split <;> exact Fetched.noConfusion
  all_goals exact Fetched.noConfusion

/-- A block reset is fetched only from the head of the host's actions. -/
theorem fetch_blockReset {s : State} {rest : List HostAction} (h : fetch s = .blockReset rest) :
    s.host = .blockReset :: rest := by
  unfold fetch at h
  split at h
  · next hh => cases h; exact hh
  · cases h
  · exact absurd h (ofEncoded_ne_blockReset _ _ _)
  · exact absurd h (fetchRunning_ne_blockReset _ _ _ _)
  · exact absurd h (fetchRunning_ne_blockReset _ _ _ _)

/-- The instruction that stands at position `k` of a running operation. -/
inductive InstrAt (op : HostOp) (k : Nat) (s : State) : Instr → Prop
  | command {c : ChipCommand} (hm : (program s.params op)[k]? = some (.sc (s.params.opcodes.opcode c))) :
      InstrAt op k s c.instr
  | argument {b : Byte} (hm : (program s.params op)[k]? = some (.sd b)) : InstrAt op k s (.data b)
  | byte {b : Byte} (hm : (program s.params op)[k]? = some .stream) : InstrAt op k s (.data b)
  | wait (hm : (program s.params op)[k]? = some .bw) : InstrAt op k s .opBusyWait
  | hardReset (h : atHardReset op k = true) : InstrAt op k s .opHardReset
  | rest : InstrAt op k s (op.instr s.operand)

theorem fetchRunning_cases {op : HostOp} {k : Nat} {s u : State} {i : Instr} (h : fetchRunning op k s = .instr i u) :
    u = s ∧ InstrAt op k s i := by
  have data : ∀ {b}, Fetched.ofEncoded (.frame (mkFrame .high b)) s = .instr i u → u = s ∧ i = .data b := fun {b} h => by
    simp only [Fetched.ofEncoded, decode, decodeFrame_data, Fetched.instr.injEq] at h
    exact ⟨h.2.symm, h.1.symm⟩
  unfold fetchRunning at h
  split at h
  · cases h
  · next o hm =>
    simp only [Fetched.ofEncoded, decode, decodeFrame, Frame.dc_mkFrame, Frame.byte_mkFrame] at h
    cases hc : s.params.opcodes.command? o with
    | none => simp [hc] at h
    | some c =>
      simp only [hc, Fetched.instr.injEq] at h
      obtain ⟨rfl, rfl⟩ := h
      exact ⟨rfl, .command (by rw [CommandTable.command?_some hc]; exact hm)⟩
  · next b hm => obtain ⟨rfl, rfl⟩ := data h; exact ⟨rfl, .argument hm⟩
  · next hm =>
    split at h
    · split at h
      · obtain ⟨rfl, rfl⟩ := data h; exact ⟨rfl, .byte hm⟩
      · cases h
    · cases h
  · next hm => cases h; exact ⟨rfl, .wait hm⟩
  · split at h
    · next hr => cases h; exact ⟨rfl, .hardReset hr⟩
    · cases h; exact ⟨rfl, .rest⟩
  all_goals cases h; exact ⟨rfl, .rest⟩

/-- The instruction of a step and the state it executes in: the host's request at `IDLE_PC`, or what stands at the
position. -/
theorem fetch_instr_cases {s u : State} {i : Instr} (h : fetch s = .instr i u) :
    (∃ c o rest, s.pc = .idle ∧ s.host = .request c o :: rest ∧ i = decodeRequest c o ∧ u = { s with host := rest })
      ∨ ∃ op k sub, s.pc = .running op k sub ∧ s.noReset = true ∧ u = s ∧ InstrAt op k s i := by
  have running : ∀ {op k sub}, s.pc = .running op k sub → s.noReset = true → fetchRunning op k s = .instr i u →
      ∃ op k sub, s.pc = .running op k sub ∧ s.noReset = true ∧ u = s ∧ InstrAt op k s i :=
    fun hp hn hf => ⟨_, _, _, hp, hn, fetchRunning_cases hf⟩
  unfold fetch at h
  split at h
  · cases h
  · cases h
  · next c o rest hh hp => cases h; exact .inl ⟨c, o, rest, hp, hh, rfl, rfl⟩
  · next hh hp => exact .inr (running hp (by simp [State.noReset, hh]) h)
  · next hh hp => exact .inr (running hp (by simp [State.noReset, hh]) h)

/-- Only code 7 requests `powerOff` (30_encoding.md R51). -/
theorem decodeRequest_powerOff {c : OpCode} {o : Operand} (h : decodeRequest c o = .opPowerOff) : c = 7#4 := by
  unfold decodeRequest at h
  split at h
  case h_8 h7 => exact BitVec.eq_of_toNat_eq h7
  all_goals cases h

/-- At a position only the list of `powerOff` itself goes on as `powerOff`. -/
theorem InstrAt.powerOff {op : HostOp} {k : Nat} {s : State} (h : InstrAt op k s .opPowerOff) : op = .powerOffOp := by
  generalize hi : Instr.opPowerOff = i at h
  cases h with
  | command => next c _ => cases c <;> cases hi
  | argument => cases hi
  | byte => cases hi
  | wait => cases hi
  | hardReset => cases hi
  | rest =>
    cases op with
    | powerOffOp => rfl
    | _ => cases hi

/-- No instruction takes the bus back. -/
theorem exec_releases {i : Instr} {s t : State} (h : exec i s = .next t) :
    t.busOwned = s.busOwned ∨ t.busOwned = false := by
  refine (exec_path h).keeps (P := fun x => x.busOwned = s.busOwned ∨ x.busOwned = false) (fun u x _ hx => ?_) (.inl rfl)
  cases u with
  | releaseBus => exact .inr rfl
  | _ => simpa [Update.apply] using hx

/-- Settles O50: a block reset sets `bus_owned`; otherwise only `powerOff` writes it, and it is fetched only as request 7 or
from its own list. -/
theorem onlyPowerOffReleasesBus : Obligations.OnlyPowerOffReleasesBus := by
  intro s t hs hb
  rcases step_cases hs with ⟨-, rfl⟩ | ⟨rest, hf, rfl⟩ | ⟨i, u, hf, he⟩
  · exact absurd rfl hb
  · exact .inl ⟨(noReset_eq_false_iff s).mpr ⟨rest, fetch_blockReset hf⟩, rfl⟩
  · have hu : u.busOwned = s.busOwned := by
      rcases fetch_instr_cases hf with ⟨_, _, _, -, -, -, rfl⟩ | ⟨_, _, _, -, -, rfl, -⟩ <;> rfl
    rw [← hu] at hb ⊢
    have ht : t.busOwned = false := (exec_releases he).resolve_left hb
    have hi : i = .opPowerOff := by_contra fun hi => hb (exec_busOwned he hi)
    refine .inr ⟨by simpa [ht] using hb, ht, ?_⟩
    subst hi
    rcases fetch_instr_cases hf with ⟨c, o, rest, hp, hh, hd, -⟩ | ⟨op, k, sub, hp, -, -, hat⟩
    · rw [decodeRequest_powerOff hd.symm] at hh
      exact .inl ⟨o, rest, hp, hh⟩
    · rw [hat.powerOff] at hp
      exact .inr ⟨k, sub, hp⟩

end Sys2Proof.Machine
end

section
/-! The encodings and the reset state (10_state.md R10, R13, R26, 60_exceptions.md R140). -/

namespace Sys2Proof.Machine

/-- Settles O6: each encoding is a table of constants. -/
theorem statusEncodings : Obligations.StatusEncodings := by
  refine ⟨?_, ?_, ?_, ?_, ?_, ?_⟩ <;> rfl

/-- Settles O40: the reset state is UNPOWERED at `IDLE_PC`, with LOW pins and the bus owned. -/
theorem resetMeetsInvariant : Obligations.ResetMeetsInvariant := by
  unfold Obligations.ResetMeetsInvariant
  decide

end Sys2Proof.Machine
end

section
/-! How a piece of a running operation completes and how it stops: an event that fails aborts the operation as
60_exceptions.md R150 says, and so `fault` holds the first sticky error (10_state.md R13). -/

namespace Sys2Proof.Machine

/-! ### Flows that end one way or the other -/

/-- What a flow leaves: `P` when the next micro-operation may start, `Q` when the sequencer stops. -/
def Flow.Ends (P Q : State → Prop) : Flow → Prop
  | .go s => P s
  | .halt s => Q s

theorem Flow.Ends.then {P P' Q : State → Prop} {f : Flow} {k : State → Flow} (hf : f.Ends P Q)
    (hk : ∀ t, P t → (k t).Ends P' Q) : (f.then k).Ends P' Q := by
  cases f with
  | go t => exact hk t hf
  | halt t => exact hf

theorem Flow.Ends.mono {P P' Q Q' : State → Prop} {f : Flow} (hf : f.Ends P Q) (hP : ∀ t, P t → P' t)
    (hQ : ∀ t, Q t → Q' t) : f.Ends P' Q' := by
  cases f with
  | go t => exact hP t hf
  | halt t => exact hQ t hf

/-- The state that is left has the one or the other. -/
theorem Flow.Ends.state {P Q : State → Prop} {f : Flow} (hf : f.Ends P Q) : P f.state ∨ Q f.state := by
  cases f with
  | go t => exact .inl hf
  | halt t => exact .inr hf

/-- A list of micro-operations keeps what each of them keeps. -/
theorem runList_ends {P Q : State → Prop} (l : List MicroOp) (h : ∀ m s, P s → (runMicro m s).Ends P Q) {s : State}
    (hs : P s) : (runList l s).Ends P Q := by
  induction l generalizing s with
  | nil => exact hs
  | cons m l ih => exact (h m s hs).then fun t ht => ih ht

/-! ### Events -/

/-- `u` is a state inside a micro-operation that began in `s`: nothing is answered and the position is the same but for
its progress. -/
structure Midway (s u : State) : Prop where
  state : u.state = s.state
  fault : u.fault = s.fault
  responses : u.responses = s.responses
  byteIdx : u.byteIdx = s.byteIdx
  pc : u.pc = s.pc ∨ u.pc = s.pc.setSub 1

theorem Midway.refl (s : State) : Midway s s := ⟨rfl, rfl, rfl, rfl, .inl rfl⟩

theorem Pc.setSub_setSub (m n : Nat) (p : Pc) : (p.setSub m).setSub n = p.setSub n := by cases p <;> rfl

theorem Midway.trans {s t u : State} (h : Midway s t) (k : Midway t u) : Midway s u := by
  refine ⟨k.state.trans h.state, k.fault.trans h.fault, k.responses.trans h.responses, k.byteIdx.trans h.byteIdx, ?_⟩
  have hsub : u.pc = t.pc.setSub 1 → u.pc = s.pc.setSub 1 := fun hu => by
    rcases h.pc with ht | ht <;> rw [hu, ht]
    exact Pc.setSub_setSub 1 1 s.pc
  rcases k.pc with hu | hu
  · exact h.pc.imp hu.trans hu.trans
  · exact .inr (hsub hu)

theorem Midway.drawn {s u : State} (h : Midway s u) : Midway s u.drawn :=
  h.trans ⟨by simp, by simp, by simp, by simp, by simp⟩
theorem Midway.emit {s u : State} (h : Midway s u) (e : Event) : Midway s (u.emit e) :=
  h.trans ⟨rfl, rfl, rfl, rfl, .inl rfl⟩
theorem Midway.setPin {s u : State} (h : Midway s u) (p : Pin) (v : Level) : Midway s (u.setPin p v) :=
  h.trans ⟨rfl, rfl, rfl, rfl, .inl rfl⟩
theorem Midway.releaseBus {s u : State} (h : Midway s u) : Midway s u.releaseBus :=
  h.trans ⟨rfl, rfl, rfl, rfl, .inl rfl⟩
theorem Midway.countPoll {s u : State} (h : Midway s u) : Midway s u.countPoll :=
  h.trans ⟨rfl, rfl, rfl, rfl, .inl rfl⟩
theorem Midway.setSub {s u : State} (h : Midway s u) : Midway s (u.setSub 1) :=
  h.trans ⟨rfl, rfl, rfl, rfl, .inr rfl⟩
theorem Midway.pollBase (s : State) : Midway s (pollBase s) :=
  Midway.trans (t := startWait s) ⟨by simp, by simp, by simp, by simp, by simp⟩ (Midway.refl _).drawn

/-- The operation and the index are those of the micro-operation. -/
theorem Midway.position {s u : State} (h : Midway s u) {op : HostOp} {k sub : Nat} (hp : s.pc = .running op k sub) :
    ∃ x, u.position = .running op k x := by
  rcases h.pc with hu | hu <;> rw [hp] at hu
  · simp only [State.position, hu]; exact ⟨_, rfl⟩
  · simp only [State.position, hu, Pc.setSub_running]; exact ⟨_, rfl⟩

/-- The diagnosis names a position. -/
def ErrorInfo.names (x : ErrorInfo) (p : Position) : Prop := (∃ e, x = .event e p) ∨ x = .position p

theorem ErrorInfo.names_unique {x : ErrorInfo} {p q : Position} (hp : x.names p) (hq : x.names q) : p = q := by
  rcases hp with ⟨e, rfl⟩ | rfl <;> rcases hq with ⟨f, h⟩ | h <;> cases h <;> rfl

/-- A micro-operation that began in `s` has been aborted by a sticky error (60_exceptions.md R150). -/
structure Fails (s t : State) : Prop where
  aborted : ∃ u c x, Midway s u ∧ c.sticky ≠ .none ∧ x.names u.position ∧ t = u.abort c x

theorem Fails.of_midway {s u t : State} (h : Midway s u) (hf : Fails u t) : Fails s t :=
  let ⟨w, c, x, hw, hrest⟩ := hf.aborted
  ⟨w, c, x, h.trans hw, hrest⟩

theorem Midway.failEvent {s u : State} (h : Midway s u) (e : Event) :
    (Machine.failEvent e u).Ends (Midway s) (Fails s) :=
  ⟨u.emit e, .transportFailure, .event e u.position, h.emit e, by decide, .inl ⟨e, rfl⟩, rfl⟩

theorem pinWrite_ends (p : Pin) (v : Level) (s : State) : (pinWrite p v s).Ends (Midway s) (Fails s) := by
  cases h : s.answer.completes with
  | true => rw [pinWrite_completes p v s h]; exact ((Midway.refl s).drawn.setPin p v).emit _
  | false =>
    rw [pinWrite_fails p v s h]
    split
    · exact ((Midway.refl s).drawn.setPin p v).failEvent _
    · exact (Midway.refl s).drawn.failEvent _

theorem busSend_ends (b : Byte) (s : State) : (busSend b s).Ends (Midway s) (Fails s) := by
  cases h : s.answer.completes with
  | true => rw [busSend_completes b s h]; exact (Midway.refl s).drawn.emit _
  | false => rw [busSend_fails b s h]; exact (Midway.refl s).drawn.failEvent _

theorem busRelease_ends (s : State) : (busRelease s).Ends (Midway s) (Fails s) := by
  cases h : s.answer.completes with
  | true => rw [busRelease_completes s h]; exact (Midway.refl s).drawn.releaseBus.emit _
  | false =>
    rw [busRelease_fails s h]
    split
    · exact (Midway.refl s).drawn.releaseBus.failEvent _
    · exact (Midway.refl s).drawn.failEvent _

theorem delayHold_ends (s : State) : (delayHold s).Ends (Midway s) (Fails s) := by
  cases h : s.answer.completes with
  | true => rw [delayHold_elapses s h]; exact (Midway.refl s).drawn.emit _
  | false =>
    rw [delayHold_interrupted s h]
    exact ⟨_, .interrupted, .position s.position, (Midway.refl s).drawn.emit _, by decide,
      .inr (by simp), rfl⟩

theorem sendFrame_ends (dc : Level) (b : Byte) (s : State) : (sendFrame dc b s).Ends (Midway s) (Fails s) := by
  by_cases h : s.pc.sub = 0
  · rw [sendFrame_start dc b s h]
    exact (pinWrite_ends .dc dc s).then fun t ht =>
      (busSend_ends b _).mono (fun _ hu => ht.setSub.trans hu) fun _ hu => hu.of_midway ht.setSub
  · rw [sendFrame_resumed dc b s h]; exact busSend_ends b s

/-- The wait goes on after a HIGH read below the timeout (40_init_reset_sync.md R80). -/
structure KeepsWaiting (s t : State) : Prop where
  eq : t = ((pollBase s).countPoll.emit (.busyRead (some .high))).setSub 1
  below : timedOut s.params.busyTimeoutPolls ((pollBase s).pollCnt + 1) = false

theorem busyPoll_ends (s : State) : (busyPoll s).Ends (Midway s) fun t => Fails s t ∨ KeepsWaiting s t := by
  have hm := Midway.pollBase s
  cases h : s.answer.completes with
  | false => rw [busyPoll_fails s h]; exact (hm.failEvent _).mono (fun _ ht => ht) fun _ ht => .inl ht
  | true =>
    cases hl : s.answer.busy with
    | low => rw [busyPoll_low s h hl]; exact hm.emit _
    | high =>
      have hcount := hm.countPoll.emit (.busyRead (some .high))
      cases ht : timedOut s.params.busyTimeoutPolls ((pollBase s).pollCnt + 1) with
      | false =>
        rw [busyPoll_high_waits s h hl ht]
        exact .inr ⟨rfl, ht⟩
      | true =>
        rw [busyPoll_high_times_out s h hl ht]
        exact .inl ⟨_, .busyTimeout, _, hcount, by decide, .inr rfl, rfl⟩

/-! ### What a micro-operation answers -/

/-- `t` has answered nothing since `s`, and no error has been taken. -/
def Quiet (s t : State) : Prop := t.fault = s.fault ∧ t.responses = s.responses

/-- `t` has answered with a sticky error, which `fault` records if it was NONE (60_exceptions.md R150 (3) and (4)). -/
def AnswersSticky (s t : State) : Prop :=
  ∃ c x, c.sticky ≠ .none ∧ t.fault = s.fault.record c ∧ t.responses = s.responses ++ [⟨c, x⟩]

theorem Midway.quiet {s u : State} (h : Midway s u) : Quiet s u := ⟨h.fault, h.responses⟩

theorem Quiet.trans {s t u : State} (h : Quiet s t) (k : Quiet t u) : Quiet s u := ⟨k.1.trans h.1, k.2.trans h.2⟩

theorem Quiet.answersSticky {s u t : State} (h : Quiet s u) (k : AnswersSticky u t) : AnswersSticky s t := by
  obtain ⟨c, x, hc, hf, hr⟩ := k
  exact ⟨c, x, hc, h.1 ▸ hf, h.2 ▸ hr⟩

theorem Fails.answersSticky {s t : State} (h : Fails s t) : AnswersSticky s t := by
  obtain ⟨u, c, x, hu, hc, -, rfl⟩ := h.aborted
  exact hu.quiet.answersSticky ⟨c, x, hc, rfl, rfl⟩

/-- What is left of `fault` when the sequencer stops: it is as before, or a sticky error has been answered. -/
def FaultOrSticky (s t : State) : Prop := t.fault = s.fault ∨ AnswersSticky s t

theorem Quiet.faultOrSticky {s u t : State} (h : Quiet s u) (k : FaultOrSticky u t) : FaultOrSticky s t :=
  k.imp (fun hf => hf.trans h.1) h.answersSticky

theorem advance_quiet {s u : State} (h : Quiet s u) : Quiet s u.advance := h.trans ⟨by simp, by simp⟩

/-- An event and the advance after it. -/
theorem then_advance_quiet {s : State} {f : Flow} (h : f.Ends (Midway s) (Fails s)) :
    (f.then fun t => .go t.advance).Ends (Quiet s) (FaultOrSticky s) :=
  (h.mono (Q' := FaultOrSticky s) (fun _ ht => ht) fun _ ht => .inr ht.answersSticky).then fun _ ht =>
    advance_quiet ht.quiet

theorem streamBytes_quiet (n : Nat) {s u : State} (h : Quiet s u) :
    (streamBytes n u).Ends (Quiet s) (FaultOrSticky s) := by
  induction n generalizing u with
  | zero => exact h
  | succ n ih =>
    exact (sendFrame_ends .high _ u).mono (fun _ ht => ht) (fun _ ht => h.faultOrSticky (.inr ht.answersSticky))
      |>.then fun t ht => ih (advance_quiet (h.trans ht.quiet))

/-- EVERYTHING A MICRO-OPERATION ANSWERS: nothing when it completes, and a sticky error when it aborts. -/
theorem runMicro_quiet (m : MicroOp) (s : State) : (runMicro m s).Ends (Quiet s) (FaultOrSticky s) := by
  cases m with
  | pw p v => exact then_advance_quiet (pinWrite_ends p v s)
  | dl => exact then_advance_quiet (delayHold_ends s)
  | bw =>
    refine (busyPoll_ends s).mono (Q' := FaultOrSticky s) (fun _ ht => ht) (fun t ht => ?_) |>.then fun t ht =>
      advance_quiet ht.quiet
    rcases ht with ht | ht
    · exact .inr ht.answersSticky
    · exact .inl (by simp [ht.eq, pollBase])
  | sc o => exact then_advance_quiet (sendFrame_ends .low o s)
  | sd b => exact then_advance_quiet (sendFrame_ends .high b s)
  | stream => exact streamBytes_quiet _ ⟨rfl, rfl⟩
  | br => exact then_advance_quiet (busRelease_ends s)
  | st v => exact advance_quiet ⟨rfl, rfl⟩
  | chk =>
    simp only [runMicro]
    split
    · exact advance_quiet ⟨rfl, rfl⟩
    · exact .inl rfl

theorem runList_quiet (l : List MicroOp) (s : State) : (runList l s).Ends (Quiet s) (FaultOrSticky s) :=
  runList_ends l (fun m _ hu => (runMicro_quiet m _).mono (fun _ ht => hu.trans ht) fun _ ht => hu.faultOrSticky ht)
    ⟨rfl, rfl⟩

theorem runToEnd_faultOrSticky (l : List MicroOp) (s : State) : FaultOrSticky s (runToEnd l s).state :=
  ((runList_quiet l s).then (P' := fun _ => False) (k := fun t => .halt (t.respond ⟨.ok, .none⟩))
    fun _ ht => .inl ht.1).state.resolve_left id

/-- An instruction leaves `fault`, or answers with the sticky error that `fault` records. -/
theorem exec_faultOrSticky {i : Instr} {s t : State} (h : exec i s = .next t) : FaultOrSticky s t := by
  rcases exec_cases h with ⟨c, -, rfl⟩ | ⟨op, b, -, -, -, rfl⟩ | ⟨op, b, k, sub, -, -, -, -, rfl⟩ | rfl
  · exact .inl rfl
  · unfold requestOp
    split
    · split
      · exact .inl rfl
      · exact runToEnd_faultOrSticky (program s.params op) (startOp op b s)
    · exact .inl rfl
  · exact runToEnd_faultOrSticky _ s
  · exact (runList_quiet _ s).state.imp_left And.left |>.elim .inl id

/-- After a sticky error no host operation is accepted but `powerOff` (10_state.md R25). -/
theorem not_accepted_of_fault {op : HostOp} {f : FaultReg} (v : SeqState) (hf : f ≠ .none) (ho : op ≠ .powerOffOp) :
    accepted op v f = false := by
  cases op with
  | powerOffOp => exact absurd rfl ho
  | _ => simp [accepted, hf]

theorem hostOpOf_of_isHostOp {i : Instr} (s : State) (hi : isHostOp i = true) (ho : i ≠ .opPowerOff) :
    ∃ op b, hostOpOf s i = some (op, b) ∧ op ≠ .powerOffOp := by
  cases i with
  | opInitialize => exact ⟨.initOp, _, rfl, by decide⟩
  | opShow b => exact ⟨.showOp, _, rfl, by decide⟩
  | opClearDisplay => exact ⟨.clearOp, _, rfl, by decide⟩
  | opSleep => exact ⟨.sleepOp, _, rfl, by decide⟩
  | opPowerOff => exact absurd rfl ho
  | _ => cases hi

/-- A request that is not accepted is answered with IllegalState and does nothing else (10_state.md R25). -/
theorem exec_rejected {i : Instr} {s : State} {op : HostOp} {b : Buffer} (hi : hostOpOf s i = some (op, b))
    (hp : s.pc = .idle) (hv : paramsValid s.params = true) (ha : accepted op s.state s.fault = false) :
    exec i s = .next { s with responses := s.responses ++ [⟨.illegalState, .registers s.state s.fault⟩] } := by
  rw [exec_eq_hostOperation hi]
  simp only [hostOperation, hp, hv, requestOp, ha, State.respond, if_true, Bool.false_eq_true, if_false]

/-- The code of a sticky kind is the contents of `fault` (10_state.md R13, 60_exceptions.md R140). -/
theorem sticky_code {c : Status} (h : c.sticky ≠ .none) :
    c.sticky.code = c.code ∧ (c = .transportFailure ∨ c = .interrupted ∨ c = .busyTimeout) := by
  cases c with
  | transportFailure => exact ⟨rfl, .inl rfl⟩
  | interrupted => exact ⟨rfl, .inr (.inl rfl)⟩
  | busyTimeout => exact ⟨rfl, .inr (.inr rfl)⟩
  | _ => exact absurd rfl h

/-- Settles O43: a step is an instruction, which writes `fault` only by an abort; the other clauses are the acceptance
condition and block reset. -/
theorem faultIsSticky : Obligations.FaultIsSticky := by
  refine ⟨fun s t hn hs => ?_, fun s i hp hv hf hi ho => ?_, fun s t rest hh hs => ?_⟩
  · have hfs : FaultOrSticky s t := by
      rcases step_cases hs with ⟨-, rfl⟩ | ⟨rest, hf, -⟩ | ⟨i, u, hf, he⟩
      · exact .inl rfl
      · simp [State.noReset, fetch_blockReset hf] at hn
      · have hu : Quiet s u := by
          rcases fetch_instr_cases hf with ⟨_, _, _, -, -, -, rfl⟩ | ⟨_, _, _, -, -, rfl, -⟩ <;> exact ⟨rfl, rfl⟩
        exact hu.faultOrSticky (exec_faultOrSticky he)
    rcases hfs with hfs | ⟨c, x, hc, hrec, hr⟩
    · exact ⟨fun _ => hfs, fun h0 h1 => absurd (hfs.trans h0) h1⟩
    · refine ⟨fun h0 => hrec.trans (FaultReg.record_sticky _ _ h0), fun h0 _ => ⟨c, x, hr, ?_⟩⟩
      rw [hrec, h0, FaultReg.record_none]
      exact sticky_code hc
  · obtain ⟨op, b, hop, hne⟩ := hostOpOf_of_isHostOp s hi ho
    exact exec_rejected hop hp hv (not_accepted_of_fault s.state hf hne)
  · have hf : fetch s = .blockReset rest := by simp [fetch, hh]
    simp only [step, hf] at hs
    cases hs
    rfl

end Sys2Proof.Machine
end

section
/-! The rows of the micro-operation lists, and what a micro-operation leaves when it completes. -/

namespace Sys2Proof.Machine

/-! ### The rows of the lists -/

/-- THE ROWS of the lists of 40_init_reset_sync.md R73, 41_frame.md R92, 42_sleep_power.md R100 and R103: which
micro-operation stands at which index of which operation. -/
inductive Row : HostOp → Nat → MicroOp → Prop
  | powerUp : Row .initOp 0 (.pw .pwr .high)
  | powered : Row .initOp 1 (.st .powered)
  | resetLow : Row .initOp 2 (.pw .rst .low)
  | holdLow : Row .initOp 3 .dl
  | resetHigh : Row .initOp 4 (.pw .rst .high)
  | holdHigh : Row .initOp 5 .dl
  | initWait {k : Nat} (hk : k = 6 ∨ k = 8 ∨ k = 27) : Row .initOp k .bw
  | initCommand {k : Nat} {o : Byte} (hk : k = 7 ∨ 10 ≤ k ∧ k ≤ 26) : Row .initOp k (.sc o)
  | initArgument {k : Nat} {b : Byte} (hk : 10 ≤ k ∧ k ≤ 26) : Row .initOp k (.sd b)
  | resetDone : Row .initOp 9 (.st .reset)
  | configured : Row .initOp 28 (.st .configured)
  | ready : Row .initOp 29 (.st .idle)
  | check {op : HostOp} (ho : op.streams = true) : Row op 0 .chk
  | frameBegins {op : HostOp} (ho : op.streams = true) : Row op 1 (.st .busy)
  | frameCommand {op : HostOp} {k : Nat} {o : Byte} (ho : op.streams = true) (hk : k = 2 ∨ k = 4 ∨ k = 6) :
      Row op k (.sc o)
  | plane {op : HostOp} {k : Nat} (ho : op.streams = true) (hk : k = 3 ∨ k = 5) : Row op k .stream
  | frameWait {op : HostOp} (ho : op.streams = true) : Row op 7 .bw
  | frameDone {op : HostOp} (ho : op.streams = true) : Row op 8 (.st .idle)
  | sleepCommand {o : Byte} : Row .sleepOp 0 (.sc o)
  | sleepArgument {b : Byte} : Row .sleepOp 1 (.sd b)
  | asleep : Row .sleepOp 2 (.st .sleeping)
  | pwrLow : Row .powerOffOp 0 (.pw .pwr .low)
  | dcLow : Row .powerOffOp 1 (.pw .dc .low)
  | rstLow : Row .powerOffOp 2 (.pw .rst .low)
  | release : Row .powerOffOp 3 .br
  | off : Row .powerOffOp 4 (.st .poweredOff)

/-- The lengths of the lists. -/
def HostOp.rows : HostOp → Nat
  | .initOp => 30
  | .showOp | .clearOp => 9
  | .sleepOp => 3
  | .powerOffOp => 5

theorem program_length (p : Params) (op : HostOp) : (program p op).length = op.rows := by
  cases op <;> rfl

theorem HostOp.rows_pos (op : HostOp) : 0 < op.rows := by cases op <;> decide

theorem HostOp.rows_of_streams {op : HostOp} (h : op.streams = true) : op.rows = 9 := by
  cases op with
  | showOp | clearOp => rfl
  | _ => cases h

/-- Every entry of a list is one of the rows. -/
theorem row_of_program {p : Params} {op : HostOp} {k : Nat} {m : MicroOp} (h : (program p op)[k]? = some m) :
    Row op k m := by
  have hk : k < op.rows := program_length p op ▸ (List.getElem?_eq_some_iff.mp h).1
  cases op with
  | initOp =>
    simp only [HostOp.rows] at hk
    interval_cases k <;> (cases h; constructor) <;> omega
  | showOp =>
    simp only [HostOp.rows] at hk
    interval_cases k <;> (cases h; constructor) <;> simp [HostOp.streams]
  | clearOp =>
    simp only [HostOp.rows] at hk
    interval_cases k <;> (cases h; constructor) <;> simp [HostOp.streams]
  | sleepOp =>
    simp only [HostOp.rows] at hk
    interval_cases k
    · cases h; exact .sleepCommand
    · cases h; exact .sleepArgument
    · cases h; exact .asleep
  | powerOffOp =>
    simp only [HostOp.rows] at hk
    interval_cases k <;> (cases h; constructor)

/-- Every list ends with its last change of `state`. -/
theorem Row.lt_of_not_st {op : HostOp} {k : Nat} {m : MicroOp} (h : Row op k m) (hm : ∀ v, m ≠ .st v) :
    k + 1 < op.rows := by
  cases h with
  | powered | resetDone | configured | ready | frameBegins _ | frameDone _ | asleep | off => exact absurd rfl (hm _)
  | frameCommand ho hk | plane ho hk => rw [HostOp.rows_of_streams ho]; omega
  | check ho | frameWait ho => rw [HostOp.rows_of_streams ho]; omega
  | _ => simp only [HostOp.rows]; omega

theorem Row.inByteLoop_iff {op : HostOp} {k : Nat} {m : MicroOp} (h : Row op k m) :
    inByteLoop op k = true ↔ m = .stream := by
  cases h with
  | check ho | frameBegins ho | frameWait ho | frameDone ho => simp [inByteLoop, ho]
  | frameCommand ho hk => rcases hk with rfl | rfl | rfl <;> simp [inByteLoop]
  | plane ho hk => rcases hk with rfl | rfl <;> simp [inByteLoop, ho]
  | _ => simp [inByteLoop, HostOp.streams]

/-! ### What a completed micro-operation leaves -/

/-- The state without its logs and the answers of the environment. -/
def State.bare (s : State) : State := { s with trace := [], inputs := [], draws := 0 }

@[simp] theorem State.bare_emit (e : Event) (s : State) : (s.emit e).bare = s.bare := rfl
@[simp] theorem State.bare_drawn (s : State) : s.drawn.bare = s.bare := by unfold State.drawn; split <;> rfl
@[simp] theorem State.bare_setPin (p : Pin) (v : Level) (s : State) : (s.setPin p v).bare = s.bare.setPin p v := rfl
@[simp] theorem State.bare_setState (v : SeqState) (s : State) : (s.setState v).bare = s.bare.setState v := rfl
@[simp] theorem State.bare_releaseBus (s : State) : s.releaseBus.bare = s.bare.releaseBus := rfl
@[simp] theorem State.bare_setSub (n : Nat) (s : State) : (s.setSub n).bare = s.bare.setSub n := rfl
@[simp] theorem State.bare_startWait (s : State) : (startWait s).bare = startWait s.bare := by
  unfold startWait State.bare; split <;> rfl
@[simp] theorem State.bare_advance (s : State) : s.advance.bare = s.bare.advance := by
  cases h : s.pc with
  | idle => rw [State.advance_idle s h, State.advance_idle s.bare h]
  | running op k sub =>
    simp only [State.advance, State.bare, h]
    split
    · split <;> rfl
    · rfl

/-- An advance leaves the progress of the micro-operation behind. -/
@[simp] theorem State.advance_setSub (n : Nat) (s : State) : (s.setSub n).advance = s.advance := by
  cases h : s.pc with
  | idle => rw [State.setSub, h, Pc.setSub_idle, ← h]
  | running op k sub => simp [State.advance, State.setSub, State.enter, h]

/-- The registers a completed micro-operation writes, before the advance. -/
def MicroOp.effect (m : MicroOp) (s : State) : State :=
  match m with
  | .pw p v => s.setPin p v
  | .sc _ => s.setPin .dc .low
  | .sd _ => s.setPin .dc .high
  | .bw => startWait s
  | .br => s.releaseBus
  | .st v => s.setState v
  | .dl | .stream | .chk => s

theorem sendFrame_bare (dc : Level) (b : Byte) {s : State} (hs : s.pc.sub = 0) :
    (sendFrame dc b s).Ends (fun t => t.bare = ((s.setPin .dc dc).setSub 1).bare) fun _ => True := by
  rw [sendFrame_start dc b s hs]
  refine Flow.Ends.then (P := fun t => t.bare = (s.setPin .dc dc).bare) ?_ fun t ht => ?_
  · cases h : s.answer.completes with
    | true => rw [pinWrite_completes _ _ s h]; simp [Flow.Ends]
    | false => rw [pinWrite_fails _ _ s h]; trivial
  · cases h : (t.setSub 1).answer.completes with
    | true => rw [busSend_completes _ _ h]; simp [Flow.Ends, ht]
    | false => rw [busSend_fails _ _ h]; trivial

/-- WHAT A COMPLETED MICRO-OPERATION LEAVES: its effect on the registers, and the advance. -/
theorem runMicro_bare {m : MicroOp} {s : State} (hm : m ≠ .stream) (hs : s.pc.sub = 0 ∨ m = .bw) :
    (runMicro m s).Ends (fun t => t.bare = (m.effect s).advance.bare) fun _ => True := by
  have adv : ∀ {f : Flow} {u : State}, f.Ends (fun t => t.bare = u.bare) (fun _ => True) →
      (f.then fun t => .go t.advance).Ends (fun t => t.bare = u.advance.bare) fun _ => True :=
    fun hf => hf.then fun t ht => by simp only [Flow.Ends, State.bare_advance, ht]
  have frame : ∀ dc b, s.pc.sub = 0 → ((sendFrame dc b s).then fun t => .go t.advance).Ends
      (fun t => t.bare = (s.setPin .dc dc).advance.bare) fun _ => True := fun dc b h0 => by
    rw [← State.advance_setSub 1 (s.setPin .dc dc)]
    exact adv (sendFrame_bare dc b h0)
  cases m with
  | pw p v =>
    refine adv ?_
    cases h : s.answer.completes with
    | true => rw [pinWrite_completes p v s h]; simp [Flow.Ends, MicroOp.effect]
    | false => rw [pinWrite_fails p v s h]; trivial
  | dl =>
    refine adv ?_
    cases h : s.answer.completes with
    | true => rw [delayHold_elapses s h]; simp [Flow.Ends, MicroOp.effect]
    | false => rw [delayHold_interrupted s h]; trivial
  | bw =>
    refine adv ?_
    cases h : s.answer.completes with
    | false => rw [busyPoll_fails s h]; trivial
    | true =>
      cases hl : s.answer.busy with
      | low => rw [busyPoll_low s h hl]; simp [Flow.Ends, MicroOp.effect, pollBase]
      | high =>
        cases ht : timedOut s.params.busyTimeoutPolls ((pollBase s).pollCnt + 1) with
        | false => rw [busyPoll_high_waits s h hl ht]; trivial
        | true => rw [busyPoll_high_times_out s h hl ht]; trivial
  | sc o => exact frame .low o (hs.resolve_right MicroOp.noConfusion)
  | sd b => exact frame .high b (hs.resolve_right MicroOp.noConfusion)
  | stream => exact absurd rfl hm
  | br =>
    refine adv ?_
    cases h : s.answer.completes with
    | true => rw [busRelease_completes s h]; simp [Flow.Ends, MicroOp.effect]
    | false => rw [busRelease_fails s h]; trivial
  | st v => rfl
  | chk =>
    simp only [runMicro]
    split
    · rfl
    · trivial

/-- The byte loop, one data frame at a time (41_frame.md R92). -/
theorem streamBytes_succ (n : Nat) (s : State) :
    streamBytes (n + 1) s = (runMicro (.sd s.nextByte) s).then (streamBytes n) := by
  simp only [streamBytes, runMicro, Flow.then_assoc, Flow.then_go]

end Sys2Proof.Machine
end

section
/-! The invariant at a position of a running operation, row by row: a completed micro-operation leads to the next row. -/

namespace Sys2Proof.Machine

/-! ### The parts of the invariant -/

/-- The parameters and the working registers. -/
structure CountersOk (p : Params) (s : State) : Prop where
  params : s.params = p
  valid : paramsValid p = true
  byteIdx : s.byteIdx ≤ planeBytes p.geometry
  pollCnt : pollsBounded p.busyTimeoutPolls s.pollCnt = true

/-- The buffer held and the marks of the run: what `Keeps` carries over. -/
structure StoreOk (s : State) : Prop where
  operand : Memory.wf s.operand = true
  marks : runMarksOk s = true

/-- The registers before row `k`; after the last row those of `IDLE_PC`. -/
def rowRegs (op : HostOp) (k : Nat) (s : State) : Bool := if k < op.rows then opOk op k s else idleOk s

theorem rowRegs_of_lt {op : HostOp} {k : Nat} (hk : k < op.rows) (s : State) : rowRegs op k s = opOk op k s := if_pos hk

theorem rowRegs_rows (op : HostOp) (s : State) : rowRegs op op.rows s = idleOk s := if_neg (Nat.lt_irrefl _)

/-- A state that the invariant allows before row `k` of a running operation, or after its last row. -/
structure StandsAt (p : Params) (op : HostOp) (k : Nat) (s : State) : Prop extends CountersOk p s where
  pc : s.pc = .running op k 0
    ∨ s.pc = .running op k 1 ∧ (program p op)[k]? = some .bw ∧ pollsBelow p.busyTimeoutPolls s.pollCnt = true
  fault : s.fault = .none ∨ op = .powerOffOp
  regs : rowRegs op k s = true

theorem StandsAt.opOk_row {p : Params} {op : HostOp} {k : Nat} {s : State} (h : StandsAt p op k s) (hk : k < op.rows) :
    opOk op k s = true := (rowRegs_of_lt hk s).symm.trans h.regs

/-- A state that the invariant allows at `IDLE_PC`. -/
structure IdlesAt (p : Params) (s : State) : Prop extends CountersOk p s where
  pc : s.pc = .idle
  regs : idleOk s = true

theorem blockInv_iff (s : State) : BlockInv s = true ↔ paramsValid s.params = true ∧ Memory.wf s.operand = true
    ∧ s.byteIdx ≤ planeBytes s.params.geometry ∧ pollsBounded s.params.busyTimeoutPolls s.pollCnt = true
    ∧ runMarksOk s = true ∧ registersOk s = true := by
  simp only [BlockInv, Bool.and_eq_true, decide_eq_true_eq, and_assoc]

theorem IdlesAt.blockInv {p : Params} {s : State} (h : IdlesAt p s) (hs : StoreOk s) : BlockInv s = true := by
  obtain ⟨⟨rfl, hv, hb, hp⟩, hpc, hr⟩ := h
  exact (blockInv_iff s).mpr ⟨hv, hs.operand, hb, hp, hs.marks, by simp only [registersOk, hpc, hr]⟩

theorem StandsAt.blockInv {p : Params} {op : HostOp} {k : Nat} {s : State} (h : StandsAt p op k s) (hk : k < op.rows)
    (hs : StoreOk s) : BlockInv s = true := by
  obtain ⟨⟨rfl, hv, hb, hp⟩, hpc, hf, hr⟩ := h
  rw [rowRegs_of_lt hk] at hr
  refine (blockInv_iff s).mpr ⟨hv, hs.operand, hb, hp, hs.marks, ?_⟩
  rcases hpc with hpc | ⟨hpc, hm, hbelow⟩
  · simp [registersOk, hpc, positionOk, program_length, hk, hf, hr]
  · simp only [registersOk, hpc, positionOk, program_length, hm]; simp [hk, hf, hr, hbelow]

/-- The invariant, by where the sequencer stands. -/
theorem blockInv_cases {s : State} (h : BlockInv s = true) :
    StoreOk s ∧ (IdlesAt s.params s ∨ ∃ op k, k < op.rows ∧ StandsAt s.params op k s) := by
  obtain ⟨hv, hw, hb, hp, hm, hr⟩ := (blockInv_iff s).mp h
  have hc : CountersOk s.params s := ⟨rfl, hv, hb, hp⟩
  refine ⟨⟨hw, hm⟩, ?_⟩
  cases hpc : s.pc with
  | idle => simp only [registersOk, hpc] at hr; exact .inl ⟨hc, hpc, hr⟩
  | running op k sub =>
    simp only [registersOk, hpc, positionOk, program_length, Bool.and_eq_true, Bool.or_eq_true, decide_eq_true_eq,
      beq_iff_eq] at hr
    obtain ⟨⟨⟨hk, hf⟩, hsub⟩, ho⟩ := hr
    refine .inr ⟨op, k, hk, hc, ?_, hf, (rowRegs_of_lt hk s).trans ho⟩
    rcases hsub with rfl | ⟨⟨rfl, hbw⟩, hbelow⟩
    · exact .inl hpc
    · exact .inr ⟨hpc, hbw, hbelow⟩

theorem Keeps.storeOk {s t : State} (h : Keeps s t) (hs : StoreOk s) : StoreOk t := by
  obtain ⟨hw, hm⟩ := hs
  simp only [runMarksOk, Bool.and_eq_true, decide_eq_true_eq] at hm
  refine ⟨h.operand ▸ hw, ?_⟩
  simp only [runMarksOk, h.run, Bool.and_eq_true, decide_eq_true_eq]
  exact ⟨hm.1.trans h.responses.length_le, hm.2.trans h.trace.length_le⟩

/-- The registers of a position do not depend on the logs. -/
theorem StandsAt.of_bare {p : Params} {op : HostOp} {k : Nat} {s t : State} (h : t.bare = s.bare)
    (hs : StandsAt p op k s) : StandsAt p op k t := by
  obtain ⟨⟨hp, hv, hb, hc⟩, hpc, hf, hr⟩ := hs
  have hbare : StandsAt p op k t.bare := h ▸ ⟨⟨hp, hv, hb, hc⟩, hpc, hf, hr⟩
  obtain ⟨⟨hp, hv, hb, hc⟩, hpc, hf, hr⟩ := hbare
  exact ⟨⟨hp, hv, hb, hc⟩, hpc, hf, hr⟩

/-! ### From row to row -/

/-- The registers of `initOp` (40_init_reset_sync.md R73). -/
theorem opOk_init (k : Nat) (s : State) : opOk .initOp k s = true ↔
    s.busOwned = true ∧ s.state = initState k ∧ s.pins.pwr = (if k = 0 then .low else .high)
      ∧ s.pins.rst = (if k < 5 then .low else .high) ∧ (k = 0 ∨ s.driven .pwr = true) ∧ (k < 3 ∨ s.driven .rst = true)
      ∧ (k < 8 ∨ s.driven .dc = true) := by
  simp only [opOk, Bool.and_eq_true, Bool.or_eq_true, beq_iff_eq, decide_eq_true_eq, and_assoc]

/-- The registers of `show`, in either of its forms (41_frame.md R92, R94). -/
theorem opOk_frame {op : HostOp} (h : op.streams = true) (k : Nat) (s : State) : opOk op k s = true ↔
    s.busOwned = true ∧ s.pins.pwr = .high ∧ s.pins.rst = .high ∧ s.state = (if k ≤ 1 then .idle else .busy)
      ∧ (k = 0 ∨ checkBuffer s.params.geometry s.operand = none) ∧ loopOk k s = true ∧ s.lines = s.pins := by
  cases op with
  | showOp | clearOp => simp [opOk, and_assoc]
  | _ => cases h

/-- The registers of `sleep` (42_sleep_power.md R100). -/
theorem opOk_sleep (k : Nat) (s : State) : opOk .sleepOp k s = true ↔
    s.busOwned = true ∧ s.pins.pwr = .high ∧ s.pins.rst = .high ∧ s.state = .idle ∧ (k ≠ 2 ∨ s.pins.dc = .high)
      ∧ s.lines = s.pins := by
  simp only [opOk, Bool.and_eq_true, Bool.or_eq_true, beq_iff_eq, bne_iff_ne, and_assoc]

/-- The registers of `powerOff` (42_sleep_power.md R103). -/
theorem opOk_powerOff (k : Nat) (s : State) : opOk .powerOffOp k s = true ↔
    s.state ≠ .poweredOff ∧ s.state ≠ .configured ∧ (k = 0 ∨ s.pins.pwr = .low ∧ s.driven .pwr = true)
      ∧ (k ≤ 1 ∨ s.pins.dc = .low ∧ s.driven .dc = true) ∧ (k ≤ 2 ∨ s.pins.rst = .low ∧ s.driven .rst = true)
      ∧ (k ≤ 3 ∨ s.busOwned = false) := by
  simp only [opOk, Bool.and_eq_true, Bool.or_eq_true, beq_iff_eq, bne_iff_ne, decide_eq_true_eq, Bool.not_eq_true',
    and_assoc]

theorem planeBytes_pos {p : Params} (h : paramsValid p = true) : 0 < planeBytes p.geometry := by
  obtain ⟨⟨-, hw, -, hh, -⟩, -⟩ := (geometryValid_iff _).mp (geometryValid_of_paramsValid h)
  exact Nat.mul_pos (Nat.div_pos hw (by decide)) hh

theorem MicroOp.effect_fields (m : MicroOp) (s : State) : (m.effect s).params = s.params ∧ (m.effect s).fault = s.fault
    ∧ (m.effect s).byteIdx = s.byteIdx ∧ (m.effect s).planeIdx = s.planeIdx ∧ (m.effect s).operand = s.operand
    ∧ (m.effect s).pc = s.pc := by
  cases m <;> simp [MicroOp.effect]

theorem Pins.eq_mk {x : Pins} {a b c : Level} (ha : x.pwr = a) (hb : x.rst = b) (hc : x.dc = c) : x = ⟨a, b, c⟩ := by
  cases x; cases ha; cases hb; cases hc; rfl

/-- A state whose lines have all been driven. -/
theorem lines_eq_pins {s : State} (hp : s.driven .pwr = true) (hr : s.driven .rst = true) (hd : s.driven .dc = true) :
    s.lines = s.pins := by
  simp only [State.driven, Pins.get, beq_iff_eq] at hp hr hd
  exact Pins.eq_mk hp hr hd

/-- From row 10 to row 27 of `initOp`, and before row 28, nothing but `DC` changes (40_init_reset_sync.md R73). -/
theorem opOk_configuring {k : Nat} (hk : 10 ≤ k ∧ k ≤ 28) (s : State) : opOk .initOp k s = true ↔
    s.busOwned = true ∧ s.state = .reset ∧ s.pins.pwr = .high ∧ s.pins.rst = .high ∧ s.driven .pwr = true
      ∧ s.driven .rst = true ∧ s.driven .dc = true := by
  have hstate : initState k = .reset := by
    rw [initState, if_neg (by omega), if_neg (by omega), if_pos hk.2]
  have h0 : k ≠ 0 := by omega
  have h3 : ¬ k < 3 := by omega
  have h5 : ¬ k < 5 := by omega
  have h8 : ¬ k < 8 := by omega
  simp [opOk_init, hstate, h0, h3, h5, h8]

/-- A frame drives `DC`, the line with the latch. -/
theorem rowRegs_configuring_frame {k : Nat} (hk : 10 ≤ k ∧ k ≤ 26) (dc : Level) {s : State}
    (h : rowRegs .initOp k s = true) : rowRegs .initOp (k + 1) (State.enter .initOp (k + 1) (s.setPin .dc dc)) = true := by
  rw [rowRegs_of_lt (by simp only [HostOp.rows]; omega)] at h
  obtain ⟨hb, hs, hp, hr, hdp, hdr, -⟩ := (opOk_configuring (by omega) s).mp h
  rw [rowRegs_of_lt (by simp only [HostOp.rows]; omega)]
  exact (opOk_configuring (by omega) _).mpr ⟨hb, hs, hp, hr, hdp, hdr, by simp [State.driven, Pins.get]⟩

/-- POWERED_OFF means the session is over, whatever `fault` says. -/
theorem idleOk_poweredOff {s : State} (hs : s.state = .poweredOff) (ho : sessionOver s = true) : idleOk s = true := by
  unfold idleOk
  split <;> simp [calmIdle, hs, ho]

/-- ROW BY ROW the registers lead to those of the next row. -/
theorem Row.next {p : Params} {op : HostOp} {k : Nat} {m : MicroOp} {s : State} (h : Row op k m) (hm : m ≠ .stream)
    (hs : StandsAt p op k s) (hc : m = .chk → checkBuffer s.params.geometry s.operand = none) :
    rowRegs op (k + 1) (State.enter op (k + 1) (m.effect s)) = true := by
  have hpos : 0 < planeBytes s.params.geometry := hs.params ▸ planeBytes_pos hs.valid
  have hr := hs.regs
  have hf := hs.fault
  clear hs
  cases h with
  | powerUp | powered | resetLow | holdLow | resetHigh | holdHigh | resetDone | configured =>
    simp_all [rowRegs, HostOp.rows, opOk_init, initState, State.driven, MicroOp.effect, Pins.get]
  | initWait hk =>
    rcases hk with rfl | rfl | rfl <;>
      simp_all [rowRegs, HostOp.rows, opOk_init, initState, State.driven, MicroOp.effect, Pins.get]
  | initCommand hk =>
    rcases hk with rfl | hk
    · simp_all [rowRegs, HostOp.rows, opOk_init, initState, State.driven, MicroOp.effect, Pins.get]
    · exact rowRegs_configuring_frame hk .low hr
  | initArgument hk => exact rowRegs_configuring_frame hk .high hr
  | ready =>
    obtain ⟨hb, -, hp, hrst, hdp, hdr, hdd⟩ := (opOk_init 29 s).mp hr
    have hl : s.lines = s.pins :=
      lines_eq_pins (hdp.resolve_left (by decide)) (hdr.resolve_left (by decide)) (hdd.resolve_left (by decide))
    simp_all [rowRegs, HostOp.rows, MicroOp.effect, idleOk, calmIdle]
  | check ho | frameBegins ho | frameWait ho =>
    simp_all [rowRegs, HostOp.rows_of_streams ho, opOk_frame ho, loopOk, MicroOp.effect]
  | frameCommand ho hk =>
    rcases hk with rfl | rfl | rfl <;>
      simp_all [rowRegs, HostOp.rows_of_streams ho, opOk_frame ho, loopOk, MicroOp.effect, inByteLoop]
  | plane ho hk => exact absurd rfl hm
  | frameDone ho =>
    have hp : op ≠ .powerOffOp := by rintro rfl; cases ho
    simp_all [rowRegs, HostOp.rows_of_streams ho, opOk_frame ho, MicroOp.effect, idleOk, calmIdle]
  | sleepCommand | sleepArgument => simp_all [rowRegs, HostOp.rows, opOk_sleep, MicroOp.effect]
  | asleep =>
    obtain ⟨hb, hp, hrst, -, hd, hl⟩ := (opOk_sleep 2 s).mp hr
    have hx : s.pins = ⟨.high, .high, .high⟩ := Pins.eq_mk hp hrst (hd.resolve_left (by decide))
    simp_all [rowRegs, HostOp.rows, MicroOp.effect, idleOk, calmIdle]
  | pwrLow | dcLow | rstLow | release =>
    simp_all [rowRegs, HostOp.rows, opOk_powerOff, MicroOp.effect, State.driven, Pins.get]
  | off =>
    obtain ⟨-, -, hp, hd, hrst, hb⟩ := (opOk_powerOff 4 s).mp hr
    obtain ⟨hp, hdp⟩ := hp.resolve_left (by decide)
    obtain ⟨hd, hdd⟩ := hd.resolve_left (by decide)
    obtain ⟨hrst, hdr⟩ := hrst.resolve_left (by decide)
    have hx : s.pins = ⟨.low, .low, .low⟩ := Pins.eq_mk hp hrst hd
    have hl : s.lines = s.pins := lines_eq_pins hdp hdr hdd
    have hb : s.busOwned = false := hb.resolve_left (by decide)
    exact idleOk_poweredOff rfl (by simp [sessionOver, MicroOp.effect, hx, hl, hb])

/-! ### What a completed micro-operation and a completed byte lead to -/

section next
variable {p : Params} {op : HostOp} {k : Nat} {m : MicroOp} {s t : State}

/-- `sub` is 0 before every row but a busy-wait. -/
theorem StandsAt.sub_eq_zero (h : StandsAt p op k s) (hm : (program p op)[k]? = some m) : s.pc.sub = 0 ∨ m = .bw := by
  rcases h.pc with hp | ⟨-, hbw, -⟩
  · exact .inl (by rw [hp]; rfl)
  · exact .inr (Option.some.inj (hm.symm.trans hbw))

theorem StandsAt.pc_running (h : StandsAt p op k s) : ∃ n, s.pc = .running op k n := by
  rcases h.pc with hp | ⟨hp, -⟩ <;> exact ⟨_, hp⟩

theorem pollsBounded_zero (n : Option Nat) : pollsBounded n 0 = true := by
  cases n <;> simp [pollsBounded]

theorem pollsBounded_effect (h : StandsAt p op k s) (m : MicroOp) :
    pollsBounded p.busyTimeoutPolls (m.effect s).pollCnt = true := by
  cases m with
  | bw =>
    simp only [MicroOp.effect, startWait_pollCnt]
    split
    · exact pollsBounded_zero _
    · exact h.pollCnt
  | _ => exact h.pollCnt

/-- The row after one that is entered when it completes. -/
theorem StandsAt.enter_next (h : StandsAt p op k s) (hm : (program p op)[k]? = some m) (hs : m ≠ .stream)
    (hc : m = .chk → checkBuffer s.params.geometry s.operand = none) :
    StandsAt p op (k + 1) (m.effect s).advance := by
  obtain ⟨n, hpc⟩ := h.pc_running
  obtain ⟨hparams, hfault, hbyte, -, -, hpc'⟩ := m.effect_fields s
  have hloop : inByteLoop op k = false := Bool.eq_false_iff.mpr fun hl => hs ((row_of_program hm).inByteLoop_iff.mp hl)
  rw [State.advance_next _ (hpc'.trans hpc) hloop]
  refine ⟨⟨hparams.trans h.params, h.valid, ?_, pollsBounded_effect h m⟩, .inl rfl, hfault ▸ h.fault,
    (row_of_program hm).next hs h hc⟩
  rw [State.enter_byteIdx, hbyte]
  split
  · exact Nat.zero_le _
  · exact h.byteIdx

/-- EVERY COMPLETED MICRO-OPERATION but the byte loop leads to the next row. -/
theorem StandsAt.micro (h : StandsAt p op k s) (hm : (program p op)[k]? = some m) (hs : m ≠ .stream) :
    (runMicro m s).Ends (StandsAt p op (k + 1)) fun _ => True := by
  by_cases hc : m = .chk → checkBuffer s.params.geometry s.operand = none
  · exact (runMicro_bare hs (h.sub_eq_zero hm)).mono (fun t ht => (h.enter_next hm hs hc).of_bare ht) fun _ ht => ht
  · obtain ⟨rfl, hck⟩ := Classical.not_imp.mp hc
    obtain ⟨r, hr⟩ := Option.ne_none_iff_exists'.mp hck
    simp only [runMicro, hr]
    trivial

theorem Row.plane_inv (h : Row op k .stream) : op.streams = true ∧ (k = 3 ∨ k = 5) := by
  cases h with
  | plane ho hk => exact ⟨ho, hk⟩

/-- The registers in the byte loop (41_frame.md R92). -/
structure InLoop (op : HostOp) (k : Nat) (s : State) : Prop where
  streams : op.streams = true
  row : k = 3 ∨ k = 5
  regs : opOk op k s = true
  byteIdx : s.byteIdx < planeBytes s.params.geometry
  pc : s.pc = .running op k 0

theorem StandsAt.in_loop (h : StandsAt p op k s) (hm : (program p op)[k]? = some .stream) : InLoop op k s := by
  obtain ⟨ho, hk⟩ := (row_of_program hm).plane_inv
  have hr := h.opOk_row (by rw [HostOp.rows_of_streams ho]; omega)
  obtain ⟨-, -, -, -, -, hl, -⟩ := (opOk_frame ho k s).mp hr
  refine ⟨ho, hk, hr, ?_, ?_⟩
  · rcases hk with rfl | rfl
    · simp [loopOk] at hl; exact hl.2
    · simp [loopOk] at hl; exact hl.2
  · rcases h.pc with hp | ⟨-, hbw, -⟩
    · exact hp
    · cases hm.symm.trans hbw

/-- A byte drives `DC` HIGH and leaves the other registers; `byte_idx` counts it. -/
theorem InLoop.regs_same_row (h : InLoop op k s) (hlast : s.byteIdx + 1 < planeBytes s.params.geometry) :
    rowRegs op k { s.setPin .dc .high with byteIdx := s.byteIdx + 1, pc := .running op k 0 } = true := by
  obtain ⟨hb, hp, hr, hs, hck, hl, hx⟩ := (opOk_frame h.streams k s).mp h.regs
  rw [rowRegs_of_lt (by rw [HostOp.rows_of_streams h.streams]; have := h.row; omega)]
  refine (opOk_frame h.streams k _).mpr ⟨hb, hp, hr, hs, hck, ?_, by simp [hx]⟩
  rcases h.row with rfl | rfl <;> simp_all [loopOk]

theorem InLoop.regs_next_row (h : InLoop op k s) :
    rowRegs op (k + 1) (State.enter op (k + 1) { s.setPin .dc .high with byteIdx := s.byteIdx + 1 }) = true := by
  obtain ⟨hb, hp, hr, hs, hck, hl, hx⟩ := (opOk_frame h.streams k s).mp h.regs
  have hrow := h.row
  have ho := h.streams
  rw [rowRegs_of_lt (by rw [HostOp.rows_of_streams h.streams]; omega)]
  refine (opOk_frame h.streams _ _).mpr ⟨hb, hp, hr, ?_, .inr (hck.resolve_left (by omega)), ?_, by simp [hx]⟩
  · rcases h.row with rfl | rfl <;> exact hs
  · rcases h.row with rfl | rfl <;> simp_all [loopOk]

/-- The row of the next byte: the same until the last one has been sent. -/
def nextByteRow (k : Nat) (s : State) : Nat := if s.byteIdx + 1 < planeBytes s.params.geometry then k else k + 1

/-- What a byte of the loop leads to. -/
structure ByteDone (p : Params) (op : HostOp) (k : Nat) (s t : State) : Prop where
  stands : StandsAt p op (nextByteRow k s) t
  counts : s.byteIdx + 1 < planeBytes s.params.geometry → t.params = s.params ∧ t.byteIdx = s.byteIdx + 1

/-- EVERY COMPLETED BYTE of the loop leads to the next one, or to the next row after the last. -/
theorem StandsAt.byte (h : StandsAt p op k s) (hm : (program p op)[k]? = some .stream) (b : Byte) :
    (runMicro (.sd b) s).Ends (ByteDone p op k s) fun _ => True := by
  have hin := h.in_loop hm
  have hloop : inByteLoop op k = true := (row_of_program hm).inByteLoop_iff.mpr rfl
  have hgeom : s.params.geometry = p.geometry := congrArg Params.geometry h.params
  refine (runMicro_bare MicroOp.noConfusion (.inl (by rw [hin.pc]; rfl))).mono (fun t ht => ?_) fun _ ht => ht
  simp only [MicroOp.effect] at ht
  by_cases hlast : s.byteIdx + 1 < planeBytes s.params.geometry
  · rw [State.advance_byte (s.setPin .dc .high) (op := op) (k := k) (sub := 0) hin.pc hloop hlast] at ht
    refine ⟨?_, fun _ => ⟨(congrArg State.params ht :), (congrArg State.byteIdx ht :)⟩⟩
    rw [nextByteRow, if_pos hlast]
    exact StandsAt.of_bare ht
      ⟨⟨h.params, h.valid, hgeom ▸ hlast.le, h.pollCnt⟩, .inl rfl, h.fault, hin.regs_same_row hlast⟩
  · rw [State.advance_last (s.setPin .dc .high) (op := op) (k := k) (sub := 0) hin.pc hloop (Nat.not_lt.mp hlast)] at ht
    refine ⟨?_, fun hn => absurd hn hlast⟩
    rw [nextByteRow, if_neg hlast]
    refine StandsAt.of_bare ht ⟨⟨h.params, h.valid, ?_, h.pollCnt⟩, .inl rfl, h.fault, hin.regs_next_row⟩
    have hnext : inByteLoop op (k + 1) = false := by rcases hin.row with rfl | rfl <;> simp [inByteLoop]
    rw [State.enter_byteIdx, hnext]
    exact hgeom ▸ hin.byteIdx

end next

end Sys2Proof.Machine
end

section
/-! Induction along a running operation from a state of the invariant, what a step is from there, and what an aborted
operation leaves. -/

namespace Sys2Proof.Machine

/-! ### Induction along an operation -/

/-- What is executed at row `k`: the row's micro-operation, or one data byte of the byte loop (41_frame.md R92). -/
inductive Due (p : Params) (op : HostOp) (k : Nat) : MicroOp → Prop
  | row {m : MicroOp} (hm : (program p op)[k]? = some m) (hs : m ≠ .stream) : Due p op k m
  | byte (b : Byte) (hm : (program p op)[k]? = some .stream) : Due p op k (.sd b)

/-- From the states of the invariant, whatever is due keeps `R`, or stops the sequencer with `Q`. -/
def KeptBy (p : Params) (op : HostOp) (R Q : State → Prop) : Prop :=
  ∀ k m s, Due p op k m → StandsAt p op k s → R s → (runMicro m s).Ends R Q

theorem Flow.Ends.and {P P' Q Q' : State → Prop} {f : Flow} (h : f.Ends P Q) (k : f.Ends P' Q') :
    f.Ends (fun t => P t ∧ P' t) fun t => Q t ∧ Q' t := by
  cases f with
  | go t => exact ⟨h, k⟩
  | halt t => exact ⟨h, k⟩

section induct
variable {p : Params} {op : HostOp} {R Q : State → Prop} {k : Nat} {m : MicroOp} {s : State}

theorem KeptBy.byte (h : KeptBy p op R Q) (hs : StandsAt p op k s) (hR : R s) (hm : (program p op)[k]? = some .stream)
    (b : Byte) : (runMicro (.sd b) s).Ends (fun t => ByteDone p op k s t ∧ R t) Q :=
  ((hs.byte hm b).and (h k _ s (.byte b hm) hs hR)).mono (fun _ ht => ht) fun _ ht => ht.2

/-- The byte loop, from any of its bytes, leads to the next row. -/
theorem KeptBy.streamBytes (h : KeptBy p op R Q) (hm : (program p op)[k]? = some .stream) (n : Nat)
    (hs : StandsAt p op k s) (hR : R s) (hn : s.byteIdx + (n + 1) = planeBytes s.params.geometry) :
    (streamBytes (n + 1) s).Ends (fun t => StandsAt p op (k + 1) t ∧ R t) Q := by
  induction n generalizing s with
  | zero =>
    rw [streamBytes_succ]
    refine (h.byte hs hR hm _).then fun t ⟨ht, hRt⟩ => ⟨?_, hRt⟩
    have hst := ht.stands
    rwa [nextByteRow, if_neg (by omega)] at hst
  | succ n ih =>
    rw [streamBytes_succ]
    refine (h.byte hs hR hm _).then fun t ⟨ht, hRt⟩ => ?_
    have hmore : s.byteIdx + 1 < planeBytes s.params.geometry := by omega
    obtain ⟨hparams, hbyte⟩ := ht.counts hmore
    have hst := ht.stands
    rw [nextByteRow, if_pos hmore] at hst
    exact ih hst hRt (by rw [hparams, hbyte]; omega)

/-- Every row of the list leads to the next one. -/
theorem KeptBy.micro (h : KeptBy p op R Q) (hm : (program p op)[k]? = some m) (hs : StandsAt p op k s) (hR : R s) :
    (runMicro m s).Ends (fun t => StandsAt p op (k + 1) t ∧ R t) Q := by
  by_cases hstream : m = .stream
  · subst hstream
    have hlt := (hs.in_loop hm).byteIdx
    obtain ⟨n, hn⟩ : ∃ n, planeBytes s.params.geometry - s.byteIdx = n + 1 := ⟨_, (Nat.succ_pred_eq_of_pos (by omega)).symm⟩
    simp only [runMicro, hn]
    exact h.streamBytes hm n hs hR (by omega)
  · exact ((hs.micro hm hstream).and (h k m s (.row hm hstream) hs hR)).mono (fun _ ht => ht) fun _ ht => ht.2

/-- A part of the list, from row `k` on. -/
theorem KeptBy.list (h : KeptBy p op R Q) {l : List MicroOp} (hl : l <+: (program p op).drop k) (hs : StandsAt p op k s)
    (hR : R s) : (runList l s).Ends (fun t => StandsAt p op (k + l.length) t ∧ R t) Q := by
  induction l generalizing k s with
  | nil => exact ⟨hs, hR⟩
  | cons m l ih =>
    obtain ⟨r, hr⟩ := hl
    have hm : (program p op)[k]? = some m := by
      rw [← Nat.add_zero k, ← List.getElem?_drop, ← hr]; rfl
    have hl' : l <+: (program p op).drop (k + 1) := by
      rw [← List.drop_drop, ← hr]; exact ⟨r, rfl⟩
    rw [runList_cons]
    refine (h.micro hm hs hR).then fun t ⟨ht, hRt⟩ => (ih hl' ht hRt).mono (fun u hu => ?_) fun _ hu => hu
    rwa [List.length_cons, Nat.add_comm l.length, ← Nat.add_assoc]

/-- The rest of the list, and the response OK at its end. -/
theorem KeptBy.toEnd (h : KeptBy p op R Q) (hend : ∀ t, StandsAt p op op.rows t → R t → Q (t.respond ⟨.ok, .none⟩))
    (hk : k ≤ op.rows) (hs : StandsAt p op k s) (hR : R s) : Q (runToEnd ((program p op).drop k) s).state := by
  have hlist := h.list (l := (program p op).drop k) List.prefix_rfl hs hR
  rw [List.length_drop, program_length, Nat.add_sub_cancel' hk] at hlist
  exact (hlist.then (P' := fun _ => False) (k := fun t => .halt (t.respond ⟨.ok, .none⟩))
    fun t ht => hend t ht.1 ht.2).state.resolve_left id

end induct

/-! ### What a step is, from a state of the invariant -/

theorem exec_command (c : ChipCommand) (s : State) :
    exec c.instr s = .next (runMicro (.sc (s.params.opcodes.opcode c)) s).state := by
  cases c <;> rfl

theorem hostOpOf_instr (s : State) (op : HostOp) (b : Buffer) : ∃ b', hostOpOf s (op.instr b) = some (op, b') := by
  cases op <;> exact ⟨_, rfl⟩

/-- The five micro-operations of `hardReset` are rows 2 to 6 of `initOp` (40_init_reset_sync.md R73, R76). -/
theorem hardResetOps_prefix (p : Params) : hardResetOps <+: (program p .initOp).drop 2 :=
  ⟨(program p .initOp).drop 7, rfl⟩

/-- What a step executes while an operation runs: a part of the list that ends before its last row, one byte of the byte
loop, or the rest of the list. -/
inductive RunningStep (p : Params) (op : HostOp) (k : Nat) (s : State) : State → Prop
  | part {l : List MicroOp} (hl : l <+: (program p op).drop k) (hk : k + l.length < op.rows) :
      RunningStep p op k s (runList l s).state
  | byte (b : Byte) (hm : (program p op)[k]? = some .stream) : RunningStep p op k s (runMicro (.sd b) s).state
  | rest (hk : k < op.rows) : RunningStep p op k s (runToEnd ((program p op).drop k) s).state

theorem RunningStep.single {p : Params} {op : HostOp} {k : Nat} {m : MicroOp} (s : State)
    (hm : (program p op)[k]? = some m) (hst : ∀ v, m ≠ .st v) : RunningStep p op k s (runMicro m s).state := by
  obtain ⟨hk, hget⟩ := List.getElem?_eq_some_iff.mp hm
  rw [← runList_single]
  refine .part ⟨(program p op).drop (k + 1), ?_⟩ ((row_of_program hm).lt_of_not_st hst)
  rw [List.drop_eq_getElem_cons hk, hget]
  rfl

theorem runningStep_of_exec {op : HostOp} {k sub : Nat} {i : Instr} {s t : State} (hp : s.pc = .running op k sub)
    (hi : InstrAt op k s i) (he : exec i s = .next t) : RunningStep s.params op k s t := by
  have proc : ∀ {c l}, procedure c l s = .next t → t = (runList l s).state := fun hproc =>
    (procedure_cases hproc).elim (fun ⟨hidle, _⟩ => absurd (hp.symm.trans hidle) Pc.noConfusion) And.right
  cases hi with
  | command hm => rw [exec_command] at he; cases he; exact .single s hm fun _ => MicroOp.noConfusion
  | argument hm => cases he; exact .single s hm fun _ => MicroOp.noConfusion
  | byte hm => cases he; exact .byte _ hm
  | wait hm =>
    rw [proc he, runList_single]
    exact .single s hm fun _ => MicroOp.noConfusion
  | hardReset h =>
    simp only [atHardReset, Bool.and_eq_true, beq_iff_eq] at h
    obtain ⟨rfl, rfl⟩ := h
    rw [proc he]
    exact .part (hardResetOps_prefix _) (by decide)
  | rest =>
    obtain ⟨b, hb⟩ := hostOpOf_instr s op s.operand
    rw [exec_eq_hostOperation hb] at he
    rcases hostOperation_cases he with ⟨hidle, -⟩ | ⟨k', sub', hp', hk, -, rfl⟩
    · exact absurd (hp.symm.trans hidle) Pc.noConfusion
    · cases hp.symm.trans hp'
      exact .rest (program_length _ op ▸ hk)

/-- What a running operation keeps, its step keeps: it stands at another row or has stopped. -/
theorem RunningStep.kept {p : Params} {op : HostOp} {R Q : State → Prop} {k : Nat} {s t : State}
    (h : RunningStep p op k s t) (hkept : KeptBy p op R Q)
    (hend : ∀ t, StandsAt p op op.rows t → R t → Q (t.respond ⟨.ok, .none⟩)) (hs : StandsAt p op k s) (hR : R s) :
    (∃ j, j < op.rows ∧ StandsAt p op j t ∧ R t) ∨ Q t := by
  cases h with
  | part hl hk => exact (hkept.list hl hs hR).state.imp_left fun ht => ⟨_, hk, ht⟩
  | byte b hm =>
    refine (hkept.byte hs hR hm b).state.imp_left fun ht => ⟨_, ?_, ht.1.stands, ht.2⟩
    have hlt := (row_of_program hm).lt_of_not_st fun _ => MicroOp.noConfusion
    unfold nextByteRow
    split
    · omega
    · exact hlt
  | rest hk => exact .inr (hkept.toEnd hend hk.le hs hR)

/-- An accepted request begins its operation in a state that the invariant allows before its first row. -/
theorem standsAt_start {p : Params} {op : HostOp} {b : Buffer} {s : State} (h : IdlesAt p s)
    (ha : accepted op s.state s.fault = true) (ho : ¬ (op = .powerOffOp ∧ s.state = .poweredOff)) :
    StandsAt p op 0 (startOp op b s) := by
  obtain ⟨⟨hp, hv, hb, hc⟩, hpc, hr⟩ := h
  have hfr : ((startOp op b s).fault = .none ∨ op = .powerOffOp) ∧ opOk op 0 (startOp op b s) = true := by
    cases op with
    | powerOffOp =>
      have hoff : s.state ≠ .poweredOff := fun hs => ho ⟨rfl, hs⟩
      refine ⟨.inr rfl, ?_⟩
      unfold idleOk at hr
      split at hr
      · unfold calmIdle at hr
        split at hr <;> simp_all [opOk]
      all_goals simp_all [opOk]
    | initOp => simp_all [accepted, opOk, idleOk, calmIdle, initState]
    | showOp | clearOp | sleepOp =>
      simp only [accepted, SeqState.framesAllowed, Bool.and_eq_true, Bool.or_eq_true, beq_iff_eq] at ha
      obtain ⟨hs | hs, hf⟩ := ha <;> simp_all [opOk, idleOk, calmIdle, loopOk]
  refine ⟨⟨hp, hv, hb, hc⟩, .inl rfl, hfr.1, ?_⟩
  rw [rowRegs_of_lt op.rows_pos]
  exact hfr.2

/-- EVERY STEP FROM A STATE OF THE INVARIANT: it waits, resets the block, answers a request without running anything, runs
the operation requested, or goes on with the running one. -/
inductive InvStep (s : State) : State → Prop
  | waits : InvStep s s
  | reset (rest : List HostAction) (hh : s.host = .blockReset :: rest) :
      InvStep s (State.blockReset { s with host := rest })
  | answers (rest : List HostAction) (r : Response) (hr : r.status.sticky = .none) (h : IdlesAt s.params s) :
      InvStep s (State.respond r { s with host := rest })
  | request (rest : List HostAction) (op : HostOp) (b : Buffer) (hpc : s.pc = .idle)
      (ho : s.state ≠ .poweredOff) (hs : StandsAt s.params op 0 (startOp op b { s with host := rest })) :
      InvStep s (runToEnd (program s.params op) (startOp op b { s with host := rest })).state
  | running {op : HostOp} {k : Nat} {t : State} (hk : k < op.rows) (hs : StandsAt s.params op k s)
      (h : RunningStep s.params op k s t) : InvStep s t

theorem invStep_requestOp {s : State} (h : IdlesAt s.params s) (rest : List HostAction) (op : HostOp) (b : Buffer) :
    InvStep s (requestOp op b { s with host := rest }) := by
  have hu : IdlesAt s.params { s with host := rest } := ⟨⟨h.params, h.valid, h.byteIdx, h.pollCnt⟩, h.pc, h.regs⟩
  unfold requestOp
  split
  · next ha =>
    split
    · exact .answers rest _ rfl h
    · next ho =>
      refine .request rest op b h.pc (fun hs => ?_) (standsAt_start hu ha ho)
      rw [hs] at ha
      cases op with
      | powerOffOp => exact ho ⟨rfl, hs⟩
      | _ => simp [accepted, SeqState.framesAllowed] at ha
  · exact .answers rest _ rfl h

/-- Every answer to a request at `IDLE_PC`: IllegalOperation, or that of a host operation. -/
theorem exec_request_cases {c : OpCode} {o : Operand} {s t : State} (hp : s.pc = .idle)
    (h : exec (decodeRequest c o) s = .next t) : (∃ c, t = illegalOperation c s) ∨ ∃ op b, t = requestOp op b s := by
  have host : ∀ {op b}, hostOperation op b s = .next t → ∃ op b, t = requestOp op b s := fun ho =>
    (hostOperation_cases ho).elim (fun ⟨_, _, ht⟩ => ⟨_, _, ht⟩) fun ⟨_, _, hr, _⟩ =>
      absurd (hp.symm.trans hr) Pc.noConfusion
  have proc : ∀ {c l}, procedure c l s = .next t → ∃ c, t = illegalOperation c s := fun hq =>
    (procedure_cases hq).elim (fun ⟨_, ht⟩ => ⟨_, ht⟩) fun ⟨hn, _⟩ => absurd hp hn
  have resv : ∀ {c}, reservedCode c s = .next t → ∃ c, t = illegalOperation c s := fun hr => ⟨_, (reservedCode_cases hr).2⟩
  unfold decodeRequest at h
  split at h
  case h_1 | h_5 | h_6 | h_7 | h_8 => exact .inr (host h)
  case h_2 | h_3 | h_4 | h_9 | h_10 => exact .inl (proc h)
  all_goals exact .inl (resv h)

theorem invStep_request {s t : State} {rest : List HostAction} {c : OpCode} {o : Operand} (h : IdlesAt s.params s)
    (he : exec (decodeRequest c o) { s with host := rest } = .next t) : InvStep s t := by
  rcases exec_request_cases (s := { s with host := rest }) h.pc he with ⟨c, rfl⟩ | ⟨op, b, rfl⟩
  · exact .answers rest _ rfl h
  · exact invStep_requestOp h rest op b

theorem invStep_of_step {s t : State} (hinv : BlockInv s = true) (h : step s = .next t) : InvStep s t := by
  rcases step_cases h with ⟨-, rfl⟩ | ⟨rest, hf, rfl⟩ | ⟨i, u, hf, he⟩
  · exact .waits
  · exact .reset rest (fetch_blockReset hf)
  rcases (blockInv_cases hinv).2 with hi | ⟨op, k, hk, hs⟩
  · rcases fetch_instr_cases hf with ⟨c, o, rest, -, -, rfl, rfl⟩ | ⟨_, _, _, hp, -⟩
    · exact invStep_request hi he
    · exact absurd (hi.pc.symm.trans hp) Pc.noConfusion
  · obtain ⟨n, hn⟩ := hs.pc_running
    rcases fetch_instr_cases hf with ⟨c, o, rest, hp, -⟩ | ⟨op', k', sub, hp, -, rfl, hat⟩
    · exact absurd (hn.symm.trans hp) Pc.noConfusion
    · cases hn.symm.trans hp
      exact .running hk hs (runningStep_of_exec hp hat he)

/-! ### Registers after an abort, and the poll count -/

theorem timeout_pos {p : Params} (h : paramsValid p = true) {n : Nat} (hn : p.busyTimeoutPolls = some n) : 1 ≤ n := by
  simp only [paramsValid, Bool.and_eq_true] at h
  obtain ⟨-, ht⟩ := h
  simpa [hn, timeoutValid] using ht

section halt
variable {p : Params} {op : HostOp} {k : Nat} {m : MicroOp} {s t : State}

/-- One more HIGH read does not pass the timeout (10_state.md R18). -/
theorem StandsAt.pollsBounded_succ (h : StandsAt p op k s) :
    pollsBounded p.busyTimeoutPolls ((startWait s).pollCnt + 1) = true := by
  unfold pollsBounded
  split
  · rfl
  · next n hn =>
    rw [startWait_pollCnt, decide_eq_true_eq]
    rcases h.pc with hpc | ⟨hpc, -, hb⟩
    · rw [hpc]; exact timeout_pos h.valid hn
    · rw [hpc]; simpa [pollsBelow, hn] using hb

theorem pollCnt_busyPoll (s : State) : (busyPoll s).state.pollCnt = (startWait s).pollCnt
    ∨ (busyPoll s).state.pollCnt = (startWait s).pollCnt + 1 := by
  cases h : s.answer.completes with
  | false => rw [busyPoll_fails s h]; exact .inl (by simp [failEvent, pollBase])
  | true =>
    cases hl : s.answer.busy with
    | low => rw [busyPoll_low s h hl]; exact .inl (by simp [pollBase])
    | high =>
      cases ht : timedOut s.params.busyTimeoutPolls ((pollBase s).pollCnt + 1) with
      | false => rw [busyPoll_high_waits s h hl ht]; exact .inr (by simp [pollBase])
      | true => rw [busyPoll_high_times_out s h hl ht]; exact .inr (by simp [pollBase])

/-- `poll_cnt` stays within the timeout (10_state.md R18). -/
theorem StandsAt.pollCnt_runMicro (h : StandsAt p op k s) (m : MicroOp) :
    pollsBounded p.busyTimeoutPolls (runMicro m s).state.pollCnt = true := by
  by_cases hm : m = .bw
  · subst hm
    have hbw : (runMicro .bw s).state.pollCnt = (busyPoll s).state.pollCnt := by
      simp only [runMicro]; cases busyPoll s <;> simp
    rw [hbw]
    rcases pollCnt_busyPoll s with hc | hc <;> rw [hc]
    · exact pollsBounded_effect h .bw
    · exact h.pollsBounded_succ
  · have hsame : (runMicro m s).state.pollCnt = s.pollCnt := (runMicro_path m s).unwritten State.pollCnt fun u x hu => by
      cases u with
      | startWait | countPoll => exact absurd hu hm
      | _ => simp [Update.apply]
    rw [hsame]
    exact h.pollCnt

/-- The value of `state` before each row of `initOp` (40_init_reset_sync.md R73). -/
theorem StandsAt.state_init (h : StandsAt p .initOp k s) (hk : k < HostOp.initOp.rows) : s.state = initState k :=
  have ⟨_, hs, _⟩ := (opOk_init k s).mp (h.opOk_row hk)
  hs

/-- Of `show` (41_frame.md R92). -/
theorem StandsAt.state_frame (h : StandsAt p op k s) (hk : k < op.rows) (ho : op.streams = true) :
    s.state = if k ≤ 1 then .idle else .busy :=
  have ⟨_, _, _, hs, _⟩ := (opOk_frame ho k s).mp (h.opOk_row hk)
  hs

/-- Of `sleep` (42_sleep_power.md R100). -/
theorem StandsAt.state_sleep (h : StandsAt p .sleepOp k s) (hk : k < HostOp.sleepOp.rows) : s.state = .idle :=
  have ⟨_, _, _, hs, _⟩ := (opOk_sleep k s).mp (h.opOk_row hk)
  hs

/-- Of `powerOff` (42_sleep_power.md R103). -/
theorem StandsAt.state_powerOff (h : StandsAt p .powerOffOp k s) (hk : k < HostOp.powerOffOp.rows) :
    s.state ≠ .poweredOff ∧ s.state ≠ .configured :=
  have ⟨hoff, hconf, _⟩ := (opOk_powerOff k s).mp (h.opOk_row hk)
  ⟨hoff, hconf⟩

/-- No operation runs in POWERED_OFF. -/
theorem StandsAt.ne_poweredOff (h : StandsAt p op k s) (hk : k < op.rows) : s.state ≠ .poweredOff := by
  cases op with
  | initOp => rw [h.state_init hk, initState]; split_ifs <;> decide
  | showOp | clearOp => rw [h.state_frame hk rfl]; split_ifs <;> decide
  | sleepOp => rw [h.state_sleep hk]; decide
  | powerOffOp => exact (h.state_powerOff hk).1

/-- The row at which something is due. -/
theorem Due.exists_row (h : Due p op k m) : ∃ m', Row op k m' ∧ (m = m' ∨ m' = .stream ∧ ∃ b, m = .sd b) := by
  cases h with
  | row hm _ => exact ⟨m, row_of_program hm, .inl rfl⟩
  | byte b hm => exact ⟨.stream, row_of_program hm, .inr ⟨rfl, b, rfl⟩⟩

/-- What is no change of `state` is not due at the last row. -/
theorem Due.lt_of_not_st (h : Due p op k m) (hst : ∀ v, m ≠ .st v) : k + 1 < op.rows := by
  obtain ⟨m', hrow, rfl | ⟨rfl, -⟩⟩ := h.exists_row
  · exact hrow.lt_of_not_st hst
  · exact hrow.lt_of_not_st fun _ => MicroOp.noConfusion

/-- Before a micro-operation that can fail `state` is neither CONFIGURED nor POWERED_OFF (90_conflicts.md C6). -/
theorem StandsAt.state_of_due (h : StandsAt p op k s) (hm : Due p op k m) (hst : ∀ v, m ≠ .st v) :
    s.state ≠ .configured ∧ s.state ≠ .poweredOff := by
  have hk := hm.lt_of_not_st hst
  have hk' := Nat.lt_of_succ_lt hk
  refine ⟨?_, h.ne_poweredOff hk'⟩
  cases op with
  | initOp =>
    rw [h.state_init hk', initState, if_pos (Nat.le_of_lt_succ (Nat.lt_of_succ_lt_succ hk) : k ≤ 28)]
    split_ifs <;> decide
  | showOp | clearOp => rw [h.state_frame hk' rfl]; split_ifs <;> decide
  | sleepOp => rw [h.state_sleep hk']; decide
  | powerOffOp => exact (h.state_powerOff hk').2

theorem FaultReg.record_ne_none {c : Status} (f : FaultReg) (h : c.sticky ≠ .none) : f.record c ≠ .none := by
  cases f with
  | none => exact h
  | _ => exact FaultReg.noConfusion

/-- After a sticky error the invariant asks little of the registers. -/
theorem idleOk_of_fault {s : State} (hf : s.fault ≠ .none) (hc : s.state ≠ .configured) (ho : s.state ≠ .poweredOff) :
    idleOk s = true := by
  unfold idleOk
  split
  · next h => exact absurd h hf
  all_goals simp [hc, ho]

theorem Fails.idlesAt (h : StandsAt p op k s) (hm : Due p op k m) (hst : ∀ v, m ≠ .st v) (hf : Fails s t)
    (hp : t.params = s.params) (hc : pollsBounded p.busyTimeoutPolls t.pollCnt = true) : IdlesAt p t := by
  obtain ⟨u, c, x, hu, hs, -, rfl⟩ := hf.aborted
  obtain ⟨hconf, hoff⟩ := h.state_of_due hm hst
  refine ⟨⟨hp.trans h.params, h.valid, ?_, hc⟩, rfl, idleOk_of_fault (FaultReg.record_ne_none _ hs) ?_ ?_⟩
  · rw [State.abort_byteIdx, hu.byteIdx]; exact h.byteIdx
  · rw [State.abort_state, hu.state]; exact hconf
  · rw [State.abort_state, hu.state]; exact hoff

end halt

end Sys2Proof.Machine
end

section
/-! THE INVARIANT OF THE BLOCK is kept by every step (10_state.md R11, R12, R17 to R19). -/

namespace Sys2Proof.Machine

/-- How a micro-operation stops the sequencer: its event fails, the buffer is rejected, or the wait goes on. -/
inductive Halts (m : MicroOp) (s : State) : State → Prop
  | fails {t : State} (hst : ∀ v, m ≠ .st v) (hchk : m ≠ .chk) (h : Fails s t) : Halts m s t
  | rejects (hm : m = .chk) (r : Response) (hr : r.status.sticky = .none) : Halts m s (s.respond r)
  | waits {t : State} (hm : m = .bw) (h : KeepsWaiting s t) : Halts m s t

/-- The checks of `show` answer with no sticky error (41_frame.md R91). -/
theorem checkBuffer_not_sticky {g : Geometry} {b : Buffer} {r : Response} (h : checkBuffer g b = some r) :
    r.status.sticky = .none := by
  simp only [checkBuffer, checkPlanes, planeOrder] at h
  split_ifs at h <;> cases h <;> rfl

/-- EVERY WAY A MICRO-OPERATION STOPS the sequencer, but for the byte loop. -/
theorem runMicro_halts {m : MicroOp} (s : State) (hm : m ≠ .stream) :
    (runMicro m s).Ends (fun _ => True) (Halts m s) := by
  have event : ∀ {f : Flow}, (∀ v, m ≠ .st v) → m ≠ .chk → f.Ends (Midway s) (Fails s) →
      (f.then fun t => .go t.advance).Ends (fun _ => True) (Halts m s) := fun hst hchk hf =>
    (hf.mono (fun _ ht => ht) fun _ ht => Halts.fails hst hchk ht).then fun _ _ => trivial
  cases m with
  | pw p v => exact event (fun _ => MicroOp.noConfusion) MicroOp.noConfusion (pinWrite_ends p v s)
  | dl => exact event (fun _ => MicroOp.noConfusion) MicroOp.noConfusion (delayHold_ends s)
  | bw =>
    refine ((busyPoll_ends s).mono (fun _ ht => ht) fun t ht => ?_).then fun _ _ => trivial
    exact ht.elim (.fails (fun _ => MicroOp.noConfusion) MicroOp.noConfusion) (.waits rfl)
  | sc o => exact event (fun _ => MicroOp.noConfusion) MicroOp.noConfusion (sendFrame_ends .low o s)
  | sd b => exact event (fun _ => MicroOp.noConfusion) MicroOp.noConfusion (sendFrame_ends .high b s)
  | stream => exact absurd rfl hm
  | br => exact event (fun _ => MicroOp.noConfusion) MicroOp.noConfusion (busRelease_ends s)
  | st v => trivial
  | chk =>
    simp only [runMicro]
    split
    · trivial
    · next r hr => exact .rejects rfl r (checkBuffer_not_sticky hr)

theorem Flow.ends_of_state {P : State → Prop} {f : Flow} (h : P f.state) : f.Ends P P := by
  cases f <;> exact h

theorem Due.ne_stream {p : Params} {op : HostOp} {k : Nat} {m : MicroOp} (h : Due p op k m) : m ≠ .stream := by
  cases h with
  | row _ hs => exact hs
  | byte => exact MicroOp.noConfusion

section halts
variable {p : Params} {op : HostOp} {k : Nat} {m : MicroOp} {s t : State}

/-- A wait that goes on stands at the same row, with its poll loop entered. -/
theorem StandsAt.keepsWaiting (h : StandsAt p op k s) (hm : (program p op)[k]? = some .bw) (hw : KeepsWaiting s t)
    (hc : pollsBounded p.busyTimeoutPolls t.pollCnt = true) : StandsAt p op k t := by
  obtain ⟨n, hn⟩ := h.pc_running
  have hregs : rowRegs op k t = rowRegs op k s := by
    have hk := (row_of_program hm).lt_of_not_st fun _ => MicroOp.noConfusion
    rw [rowRegs_of_lt (Nat.lt_of_succ_lt hk), rowRegs_of_lt (Nat.lt_of_succ_lt hk), hw.eq]
    cases op <;> simp [opOk, loopOk, State.driven, pollBase]
  have hbelow : pollsBelow p.busyTimeoutPolls t.pollCnt = true := by
    have hb := hw.below
    rw [h.params] at hb
    unfold timedOut at hb
    unfold pollsBelow
    split
    · rfl
    · next N hN => simp only [hN, decide_eq_false_iff_not, Nat.not_le] at hb; simpa [hw.eq] using hb
  refine ⟨⟨?_, h.valid, ?_, hc⟩, .inr ⟨?_, hm, hbelow⟩, ?_, hregs ▸ h.regs⟩
  · rw [hw.eq]; simpa using h.params
  · rw [hw.eq]; simpa [pollBase] using h.byteIdx
  · rw [hw.eq]; simp [hn]
  · rw [hw.eq]; simpa [pollBase] using h.fault

/-- A `show` whose buffer is rejected leaves IDLE (41_frame.md R91, 60_exceptions.md R143). -/
theorem StandsAt.rejects (h : StandsAt p op k s) (hm : Row op k .chk) (r : Response) : IdlesAt p (s.respond r) := by
  refine ⟨⟨h.params, h.valid, h.byteIdx, h.pollCnt⟩, rfl, ?_⟩
  cases hm with
  | check ho =>
    obtain ⟨hb, hp, hrst, hs, -, -, hl⟩ := (opOk_frame ho 0 s).mp (h.opOk_row op.rows_pos)
    have hf : s.fault = .none := h.fault.resolve_right fun hop => by rw [hop] at ho; cases ho
    simp [idleOk, calmIdle, hf, hs, hb, hp, hrst, hl]

/-- However a micro-operation stops the sequencer, the invariant holds then. -/
theorem StandsAt.halts (h : StandsAt p op k s) (hm : Due p op k m) (ht : Halts m s t) (hp : t.params = s.params)
    (hc : pollsBounded p.busyTimeoutPolls t.pollCnt = true) (hst : StoreOk t) : BlockInv t = true := by
  cases ht with
  | fails hne _ hf => exact (hf.idlesAt h hm hne hp hc).blockInv hst
  | rejects hchk r _ =>
    cases hm with
    | row hrow _ => subst hchk; exact (h.rejects (row_of_program hrow) r).blockInv hst
    | byte => cases hchk
  | waits hbw hw =>
    cases hm with
    | row hrow _ =>
      subst hbw
      have hk := (row_of_program hrow).lt_of_not_st fun _ => MicroOp.noConfusion
      exact (h.keepsWaiting hrow hw hc).blockInv (Nat.lt_of_succ_lt hk) hst
    | byte => cases hbw

end halts

/-- What is due keeps the store, and the invariant holds where it stops the sequencer. -/
theorem keptBy_blockInv (p : Params) (op : HostOp) : KeptBy p op StoreOk fun t => BlockInv t = true := by
  intro k m s hm hs hstore
  have hk := runMicro_keeps m s
  have hstate := Flow.ends_of_state (P := fun t => StoreOk t ∧ t.params = s.params
      ∧ pollsBounded p.busyTimeoutPolls t.pollCnt = true)
    ⟨hk.storeOk hstore, hk.params, hs.pollCnt_runMicro m⟩
  exact (hstate.and (runMicro_halts s hm.ne_stream)).mono (fun t ht => ht.1.1) fun t ⟨⟨hst, hp, hc⟩, ht⟩ =>
    hs.halts hm ht hp hc hst

/-- After the last row the response OK leaves a state of the invariant. -/
theorem StandsAt.done {p : Params} {op : HostOp} {s : State} (h : StandsAt p op op.rows s) (hs : StoreOk s) :
    BlockInv (s.respond ⟨.ok, .none⟩) = true := by
  have hr : idleOk s = true := (rowRegs_rows op s).symm.trans h.regs
  exact IdlesAt.blockInv ⟨⟨h.params, h.valid, h.byteIdx, h.pollCnt⟩, rfl, hr⟩ ((respond_keeps _ s).storeOk hs)

/-- Taking a request keeps the store: the operand is a snapshot (20_memory.md R46). -/
theorem storeOk_startOp (op : HostOp) (b : Buffer) {s : State} (h : StoreOk s) : StoreOk (startOp op b s) := by
  refine ⟨?_, h.marks⟩
  rw [startOp_operand]
  split
  · exact Memory.snapshot_wf b
  · exact h.operand

/-- A block reset gives the registers of UNPOWERED, and the run begins where the logs are (70_reset_and_hazards.md R170). -/
theorem blockInv_blockReset {s : State} (hv : paramsValid s.params = true) : BlockInv s.blockReset = true := by
  refine IdlesAt.blockInv (p := s.params) ⟨⟨rfl, hv, Nat.zero_le _, pollsBounded_zero _⟩, rfl, ?_⟩
    ⟨Memory.empty_wf, ?_⟩
  · simp [idleOk, calmIdle]
  · simp [runMarksOk]

/-- Settles O41: each completed micro-operation leads from row to row, each failure to `IDLE_PC`, and every step is made of
those, of a block reset or of a response alone. -/
theorem stepKeepsInvariant : Obligations.StepKeepsInvariant := by
  intro s t hinv hstep
  obtain ⟨hstore, -⟩ := blockInv_cases hinv
  have hstore' : ∀ rest, StoreOk { s with host := rest } := fun _ => ⟨hstore.operand, hstore.marks⟩
  cases invStep_of_step hinv hstep with
  | waits => exact hinv
  | reset rest hh => exact blockInv_blockReset ((blockInv_iff s).mp hinv).1
  | answers rest r hr h =>
    exact IdlesAt.blockInv (p := s.params) ⟨⟨h.params, h.valid, h.byteIdx, h.pollCnt⟩, rfl, h.regs⟩
      ((respond_keeps r _).storeOk (hstore' rest))
  | request rest op b hpc ho hs =>
    exact (keptBy_blockInv s.params op).toEnd (k := 0) (fun t ht hst => ht.done hst) (Nat.zero_le _) hs
      (storeOk_startOp op b (hstore' rest))
  | running hk hs h =>
    rcases h.kept (keptBy_blockInv _ _) (fun t ht hst => ht.done hst) hs hstore with ⟨j, hj, ht, hst⟩ | ht
    · exact ht.blockInv hj hst
    · exact ht

end Sys2Proof.Machine
end

section
/-! How `state` changes along a step (10_state.md R11, R12): along the rows of the summary, and not by an abort. -/

namespace Sys2Proof.Machine

/-! ### Changes of `state` -/

/-- Only `state <- v` writes `state`. -/
theorem runMicro_state {m : MicroOp} (hm : ∀ v, m ≠ .st v) (s : State) : (runMicro m s).state.state = s.state :=
  (runMicro_path m s).unwritten State.state fun u x hu => by
    cases u with
    | setState v => exact absurd hu (hm v)
    | _ => simp [Update.apply]

theorem runMicro_st_state (v : SeqState) (s : State) : (runMicro (.st v) s).state.state = v := by
  simp [runMicro]

section edges
variable {p : Params} {op : HostOp} {k : Nat} {m : MicroOp} {s t : State}

/-- Every row that writes `state` is a row of the summary (10_state.md, after R11). -/
theorem StandsAt.edge {v : SeqState} (h : StandsAt p op k s) (hk : k < op.rows) (hm : Row op k (.st v)) :
    StateEdge s.state v := by
  cases hm with
  | powered => rw [h.state_init hk]; exact .powerOn
  | resetDone => rw [h.state_init hk]; exact .resetDone
  | configured => rw [h.state_init hk]; exact .configured
  | ready => rw [h.state_init hk]; exact .ready
  | frameBegins ho => rw [h.state_frame hk ho]; exact .frameFromIdle
  | frameDone ho => rw [h.state_frame hk ho]; exact .frameDone
  | asleep => rw [h.state_sleep hk]; exact .sleepFromIdle
  | off => exact .powerOff _

/-- What is due leaves `state` or writes it along an edge that its row has. -/
theorem StandsAt.due_state (h : StandsAt p op k s) (hm : Due p op k m) : (runMicro m s).state.state = s.state
    ∨ (∃ v, Row op k (.st v) ∧ (runMicro m s).state.state = v) ∧ StateEdge s.state (runMicro m s).state.state := by
  by_cases hst : ∃ v, m = .st v
  · obtain ⟨v, rfl⟩ := hst
    obtain ⟨_, hrow, rfl | ⟨-, b, hb⟩⟩ := hm.exists_row
    · cases hm with
      | row hget _ =>
        have hk := program_length p op ▸ (List.getElem?_eq_some_iff.mp hget).1
        rw [runMicro_st_state]
        exact .inr ⟨⟨v, hrow, rfl⟩, h.edge hk hrow⟩
    · cases hb
  · exact .inl (runMicro_state (fun v hv => hst ⟨v, hv⟩) s)

end edges

/-- A step of a running operation follows the summary. -/
theorem keptBy_stateEdge (p : Params) (op : HostOp) (v : SeqState) :
    KeptBy p op (fun t => Relation.ReflTransGen StateEdge v t.state) fun t => Relation.ReflTransGen StateEdge v t.state := by
  intro k m s hm hs hR
  refine Flow.ends_of_state ?_
  rcases hs.due_state hm with hsame | ⟨-, hedge⟩
  · rwa [hsame]
  · exact hR.tail hedge

/-- Nothing leaves SLEEPING but for POWERED_OFF, and nothing leaves POWERED_OFF. -/
theorem stateEdge_from_off {v w : SeqState} (h : Relation.ReflTransGen StateEdge v w) :
    (v = .sleeping → w = .sleeping ∨ w = .poweredOff) ∧ (v = .poweredOff → w = .poweredOff) := by
  induction h with
  | refl => exact ⟨.inl, id⟩
  | tail _ hedge ih =>
    refine ⟨fun hv => ?_, fun hv => ?_⟩
    · rcases ih.1 hv with rfl | rfl <;> cases hedge <;> exact .inr rfl
    · cases ih.2 hv; cases hedge; rfl

/-- Settles O49: each change of `state` is a row that writes it, and in POWERED_OFF no operation runs. -/
theorem stateFollowsSummary : Obligations.StateFollowsSummary := by
  intro s t hinv hn hstep
  have hpath : Relation.ReflTransGen StateEdge s.state t.state ∧ (s.state = .poweredOff → t.trace = s.trace) := by
    cases invStep_of_step hinv hstep with
    | waits => exact ⟨.refl, fun _ => rfl⟩
    | reset rest hh => simp [State.noReset, hh] at hn
    | answers rest r hr h => exact ⟨.refl, fun _ => rfl⟩
    | request rest op b hpc ho hs =>
      exact ⟨(keptBy_stateEdge s.params op s.state).toEnd (k := 0) (fun _ _ ht => ht) (Nat.zero_le _) hs .refl,
        fun hoff => absurd hoff ho⟩
    | running hk hs h =>
      refine ⟨?_, fun hoff => absurd hoff (hs.ne_poweredOff hk)⟩
      rcases h.kept (keptBy_stateEdge _ _ s.state) (fun _ _ ht => ht) hs .refl with ⟨_, _, _, ht⟩ | ht <;> exact ht
  obtain ⟨hsleep, hoff⟩ := stateEdge_from_off hpath.1
  exact ⟨hpath.1, hsleep, fun hs => ⟨hoff hs, hpath.2 hs⟩⟩

/-! ### Aborts -/

/-- The value of `state` when the micro-operation at row `k` was attempted; `v` is the one at the start of the step
(10_state.md R12, 40_init_reset_sync.md R73, 41_frame.md R92). -/
def stateAttempted (op : HostOp) (k : Nat) (v : SeqState) : SeqState :=
  match op with
  | .initOp => initState k
  | .showOp | .clearOp => .busy
  | .sleepOp | .powerOffOp => v

/-- Whatever sticky error `t` has answered since `s`, `state` is as it was when the event was attempted. -/
def AbortState (s t : State) : Prop :=
  ∀ (r : Response) (op : HostOp) (k : Nat) (sub : Sub), t.responses = s.responses ++ [r] → r.status.sticky ≠ .none →
    r.info.names (.running op k sub) → t.state = stateAttempted op k s.state

/-- On the way of a step that began in `s`: nothing is answered, and a `powerOff` has not written `state` before its end. -/
def OnTheWay (op : HostOp) (s t : State) : Prop :=
  Quiet s t ∧ (op = .powerOffOp → t.state = s.state ∨ t.state = .poweredOff)

section aborts
variable {p : Params} {op : HostOp} {k : Nat} {m : MicroOp} {s t u : State}

/-- Nothing that answers no sticky error has aborted. -/
theorem abortState_of_response {r : Response} (hr : r.status.sticky = .none) (ht : t.responses = s.responses ++ [r]) :
    AbortState s t := fun q _ _ _ hq hs _ => by
  cases List.append_cancel_left (ht.symm.trans hq)
  exact absurd hr hs

theorem abortState_of_quiet (ht : t.responses = s.responses) : AbortState s t := fun q _ _ _ hq _ _ => by
  rw [ht] at hq
  simp at hq

/-- In `show` nothing fails before row 2. -/
theorem Due.two_le (h : Due p op k m) (ho : op.streams = true) (hst : ∀ v, m ≠ .st v) (hchk : m ≠ .chk) : 2 ≤ k := by
  obtain ⟨m', hrow, hm⟩ := h.exists_row
  cases hrow with
  | check _ => rcases hm with rfl | ⟨hm, -⟩ <;> contradiction
  | frameBegins _ =>
    rcases hm with rfl | ⟨hm, -⟩
    · exact absurd rfl (hst _)
    · cases hm
  | frameCommand _ hk | plane _ hk => omega
  | frameWait _ | frameDone _ => decide
  | _ => cases ho

/-- A `powerOff` writes `state` at its end only (42_sleep_power.md R103). -/
theorem Row.powerOff_st {v : SeqState} (h : Row .powerOffOp k (.st v)) : v = .poweredOff := by
  cases h with
  | off => rfl
  | frameBegins ho | frameDone ho => cases ho

/-- An event that fails leaves `state` as it was when it was attempted. -/
theorem StandsAt.abortState (h : StandsAt p op k u) (hs : op = .sleepOp → s.state = .idle) (hm : Due p op k m)
    (hst : ∀ v, m ≠ .st v) (hchk : m ≠ .chk) (hway : OnTheWay op s u) (hf : Fails u t) : AbortState s t := by
  obtain ⟨w, c, x, hw, -, hx, rfl⟩ := hf.aborted
  intro r op' k' sub hr _ hnames
  rw [State.abort_responses, hw.responses, hway.1.2] at hr
  cases List.append_cancel_left hr
  obtain ⟨n, hn⟩ := h.pc_running
  obtain ⟨y, hy⟩ := hw.position hn
  cases (ErrorInfo.names_unique hx hnames).symm.trans hy
  have hk := Nat.lt_of_succ_lt (hm.lt_of_not_st hst)
  rw [State.abort_state, hw.state]
  cases op with
  | initOp => exact h.state_init hk
  | showOp | clearOp =>
    rw [h.state_frame hk rfl, if_neg (Nat.not_le.mpr (hm.two_le rfl hst hchk))]
    rfl
  | sleepOp => exact (h.state_sleep hk).trans (hs rfl).symm
  | powerOffOp => exact (hway.2 rfl).resolve_right (h.state_powerOff hk).1

theorem keptBy_abortState (hs : op = .sleepOp → s.state = .idle) : KeptBy p op (OnTheWay op s) (AbortState s) := by
  intro k m u hm hu hway
  have hquiet := runMicro_quiet m u
  have hstate := Flow.ends_of_state (f := runMicro m u)
    (P := fun t => op = .powerOffOp → t.state = s.state ∨ t.state = .poweredOff) fun hop => by
      rcases hu.due_state hm with hsame | ⟨⟨v, hrow, hv⟩, -⟩
      · rw [hsame]; exact hway.2 hop
      · subst hop; rw [hv, hrow.powerOff_st]; exact .inr rfl
  refine ((hquiet.and hstate).and (runMicro_halts u hm.ne_stream)).mono
    (fun t ht => ⟨hway.1.trans ht.1.1, ht.1.2⟩) fun t ⟨_, ht⟩ => ?_
  cases ht with
  | fails hst hchk hf => exact hu.abortState hs hm hst hchk hway hf
  | rejects _ r hr => exact abortState_of_response hr (by rw [State.respond_responses, hway.1.2])
  | waits _ hw => exact abortState_of_quiet (by rw [hw.eq]; simpa [pollBase] using hway.1.2)

end aborts

/-- Settles O45: an abort writes no `state`, and the invariant says what it is at each row. -/
theorem abortLeavesState : Obligations.AbortLeavesState := by
  intro s t r op k sub hinv hn hstep hr hsticky hnames
  have done : ∀ {op}, ∀ u, StandsAt s.params op op.rows u → OnTheWay op s u → AbortState s (u.respond ⟨.ok, .none⟩) :=
    fun u _ hu => abortState_of_response rfl (by rw [State.respond_responses, hu.1.2])
  have idle : ∀ {op k u}, StandsAt s.params op k u → k < op.rows → op = .sleepOp → u.state = .idle := fun hu hk hop => by
    subst hop; exact hu.state_sleep hk
  have habort : AbortState s t := by
    cases invStep_of_step hinv hstep with
    | waits => exact abortState_of_quiet rfl
    | reset rest hh => simp [State.noReset, hh] at hn
    | answers rest q hq h => exact abortState_of_response hq rfl
    | request rest op b hpc ho hs =>
      exact (keptBy_abortState (idle hs op.rows_pos)).toEnd (k := 0) done (Nat.zero_le _) hs
        ⟨⟨rfl, rfl⟩, fun _ => .inl rfl⟩
    | running hk hs h =>
      rcases h.kept (keptBy_abortState (idle hs hk)) done hs ⟨⟨rfl, rfl⟩, fun _ => .inl rfl⟩ with
        ⟨_, _, _, ht⟩ | ht
      · exact abortState_of_quiet ht.1.2
      · exact ht
  rw [habort r op k sub hr hsticky hnames]
  cases op <;> rfl

end Sys2Proof.Machine
end

section
/-! A complete `initOp`, whatever its HIGH polls (40_init_reset_sync.md R73), and the commands the chip receives from it
(10_state.md R22, 30_encoding.md R55, R60). -/

namespace Sys2Proof.Machine

/-! ### The run of an `initOp` -/

/-- The frames of the configuration commands (40_init_reset_sync.md R73). -/
def configurationFrames (p : Params) : List (Level × Byte) :=
  [(.low, p.opcodes.dataEntryMode), (.high, 0x03#8), (.low, p.opcodes.setXWindow), (.high, 0x00#8),
    (.high, xEnd p.geometry), (.low, p.opcodes.setYWindow), (.high, 0x00#8), (.high, yEndLow p.geometry),
    (.high, yEndHigh p.geometry), (.low, p.opcodes.updateControl), (.high, 0x00#8), (.high, 0x80#8),
    (.low, p.opcodes.setXCounter), (.high, 0x00#8), (.low, p.opcodes.setYCounter), (.high, 0x00#8), (.high, 0x00#8)]

theorem configurationFrames_events (p : Params) :
    ((configurationFrames p).flatMap fun f => frameEvents f.1 f.2) = configurationEvents p := rfl

/-- The events of `initOp` before its first busy-wait. -/
def startEvents (p : Params) : List Event := .pinWrite .pwr .high true :: resetPulse p.tHoldNs

theorem initializeEvents_eq (p : Params) (a b c : Nat) : initializeEvents p a b c
    = startEvents p ++ waitEvents a ++ frameEvents .low p.opcodes.softReset ++ waitEvents b ++ configurationEvents p
      ++ waitEvents c := by
  simp [initializeEvents, startEvents, commandEvents]

/-- The rows of `initOp` from 28, 27, 9, 8, 7 and 6 on. -/
def rowsFrom28 : List MicroOp := [.st .configured, .st .idle]
def rowsFrom27 : List MicroOp := .bw :: rowsFrom28
def rowsFrom9 (p : Params) : List MicroOp := .st .reset :: ((configurationFrames p).map frameOp ++ rowsFrom27)
def rowsFrom8 (p : Params) : List MicroOp := .bw :: rowsFrom9 p
def rowsFrom7 (p : Params) : List MicroOp := .sc (p.opcodes.opcode .softReset) :: rowsFrom8 p
def rowsFrom6 (p : Params) : List MicroOp := .bw :: rowsFrom7 p

theorem runToEnd_append_go {l k : List MicroOp} {s t : State} (h : runList l s = .go t) :
    runToEnd (l ++ k) s = runToEnd k t := by
  rw [runToEnd, runList_append_go h, runToEnd]

section initRun
variable {s : State} {a b c : Nat} {tr : List Event} {v : SeqState} {x z : Pins} {polls : Nat}

/-- What the end of an `initOp` leaves on the way from `s`: all its answers used, the events `tr`, the levels `x` and `z`
of latches and lines. -/
def State.initDone (s : State) (a b c : Nat) (tr : List Event) (x z : Pins) : State :=
  State.respond ⟨.ok, .none⟩ (s.moved (44 + a + b + c) tr .idle x z c (.running .initOp 30 0))

/-- A step at a change of `state` on the way. -/
theorem step_st_moved {n k : Nat} {w : SeqState} (hm : (program s.params .initOp)[k]? = some (.st w))
    (hn : s.noReset = true) : step (s.moved n tr v x z polls (.running .initOp k 0))
      = .next (runToEnd ((program s.params .initOp).drop k) (s.moved n tr v x z polls (.running .initOp k 0))).state :=
  step_st (s := s.moved n tr v x z polls (.running .initOp k 0)) rfl hm hn (operandReady_plain rfl)

/-- From row 28: the two last values of `state`, and the response. -/
theorem reaches_from28 (n : Nat) (hn : s.noReset = true) : ReachesFrom 0 rowsFrom28
    (s.moved n tr v x z polls (.running .initOp 28 0))
    (State.respond ⟨.ok, .none⟩ (s.moved n tr .idle x z polls (.running .initOp 30 0))) := by
  have hrun : (runToEnd rowsFrom28 (s.moved n tr v x z polls (.running .initOp 28 0))).state
      = State.respond ⟨.ok, .none⟩ (s.moved n tr .idle x z polls (.running .initOp 30 0)) := by
    rw [rowsFrom28, runToEnd_cons_go (moved_st _ rfl), runToEnd_cons_go (moved_st _ rfl)]
    rfl
  exact .of_rest (step_st_moved (k := 28) (w := .configured) rfl hn)
    (hrun ▸ Reaches.refl _)

/-- A busy-wait on the way, with `i` HIGH polls. -/
theorem reaches_wait {N n m k : Nat} {l : List MicroOp} {t : State} (i : Nat) (hn : s.noReset = true)
    (hm : (program s.params .initOp)[k]? = some .bw) (hf : s.noFail N) (hN : n + (i + 1) ≤ N) (hw : s.waits n i)
    (ht : ∀ q, s.params.busyTimeoutPolls = some q → i < q)
    (hl : ReachesFrom m l (s.moved (n + (i + 1)) (tr ++ waitEvents i) v x z i (.running .initOp (k + 1) 0)) t) :
    ReachesFrom (m + 1 + i) (.bw :: l) (s.moved n tr v x z polls (.running .initOp k 0)) t := by
  refine .wait (op := .initOp) (k := k) (sub := 0) (polls := 0) i rfl hm hn rfl (hf.moved hN)
    ((s.waits_moved n i tr v x z polls _).mpr hw) (fun q hq => by rw [Nat.zero_add]; exact ht q hq) ?_
  rw [State.moved_waited, Nat.zero_add]
  exact hl

variable (hn : s.noReset = true) (hi : s.initializes a b c)
include hn hi

theorem reaches_from27 : ReachesFrom (1 + c) rowsFrom27
    (s.moved (43 + a + b) tr v x z polls (.running .initOp 27 0))
    (s.initDone a b c (tr ++ waitEvents c) x z) := by
  obtain ⟨hf, -, -, hw, ht⟩ := hi
  have hl := reaches_from28 (s := s) (tr := tr ++ waitEvents c) (v := v) (x := x) (z := z) (polls := c)
    (43 + a + b + (c + 1)) hn
  have hN : 44 + a + b + c = 43 + a + b + (c + 1) := by omega
  rw [hN] at hf
  rw [State.initDone, hN]
  rw [← Nat.zero_add 1]
  exact reaches_wait c hn rfl hf (Nat.le_refl _) hw (fun q hq => (ht q hq).2.2) hl

/-- From row 9: the configuration commands leave `DC` HIGH. -/
theorem reaches_from9 : ReachesFrom (1 + c) (rowsFrom9 s.params)
    (s.moved (9 + a + b) tr v x z polls (.running .initOp 9 0))
    (s.initDone a b c (tr ++ configurationEvents s.params ++ waitEvents c) (x.set .dc .high) (z.set .dc .high)) := by
  have hrun : runToEnd (rowsFrom9 s.params) (s.moved (9 + a + b) tr v x z polls (.running .initOp 9 0))
      = runToEnd rowsFrom27 (s.moved (43 + a + b) (tr ++ configurationEvents s.params) .reset (x.set .dc .high)
          (z.set .dc .high) polls (.running .initOp 27 0)) := by
    have hframes := moved_frames (s := s) (op := .initOp) (k := 10) (n := 9 + a + b) (tr := tr) (w := .reset) (x := x)
      (z := z) (polls := polls) (configurationFrames s.params) hi.1 (by simp [configurationFrames]; omega) rfl
    rw [rowsFrom9, runToEnd_cons_go (moved_st _ rfl), runToEnd_append_go hframes, configurationFrames_events]
    congr 2
    simp [configurationFrames]; omega
  exact .of_rest (step_st_moved (k := 9) (w := .reset) rfl hn)
    (hrun ▸ (reaches_from27 hn hi).1)

/-- From row 8: the wait after `softReset`. -/
theorem reaches_from8 : ReachesFrom (b + c + 2) (rowsFrom8 s.params)
    (s.moved (8 + a) tr v x z polls (.running .initOp 8 0))
    (s.initDone a b c (tr ++ waitEvents b ++ configurationEvents s.params ++ waitEvents c) (x.set .dc .high)
      (z.set .dc .high)) := by
  have hl := reaches_from9 (tr := tr ++ waitEvents b) (v := v) (x := x) (z := z) (polls := b) hn hi
  obtain ⟨hf, -, hw, -, ht⟩ := hi
  rw [show 9 + a + b = 8 + a + (b + 1) by omega] at hl
  rw [show b + c + 2 = 1 + c + 1 + b by omega]
  exact reaches_wait b hn rfl hf (by omega) hw (fun q hq => (ht q hq).2.1) hl

variable (hd : s.params.opcodes.distinct = true)
include hd

/-- From row 7: the command of `softReset`, which leaves `DC` LOW. -/
theorem reaches_from7 : ReachesFrom (b + c + 3) (rowsFrom7 s.params)
    (s.moved (6 + a) tr v x z polls (.running .initOp 7 0))
    (s.initDone a b c (tr ++ frameEvents .low s.params.opcodes.softReset ++ waitEvents b ++ configurationEvents s.params
      ++ waitEvents c) (x.set .dc .high) (z.set .dc .high)) := by
  refine .frame (step_sc (s := s.moved (6 + a) tr v x z polls (.running .initOp 7 0)) (c := .softReset) rfl rfl hd hn)
    (moved_sc _ hi.1 (by omega) rfl) ?_
  rw [show 6 + a + 2 = 8 + a by omega]
  exact reaches_from8 hn hi

/-- From row 6: the wait after `hardReset`. -/
theorem reaches_from6 : ReachesFrom (a + b + c + 4) (rowsFrom6 s.params)
    (s.moved 5 tr v x z polls (.running .initOp 6 0))
    (s.initDone a b c (tr ++ waitEvents a ++ frameEvents .low s.params.opcodes.softReset ++ waitEvents b
      ++ configurationEvents s.params ++ waitEvents c) (x.set .dc .high) (z.set .dc .high)) := by
  have hl := reaches_from7 (tr := tr ++ waitEvents a) (v := v) (x := x) (z := z) (polls := a) hn hi hd
  obtain ⟨hf, hw, -, -, ht⟩ := hi
  rw [show 6 + a = 5 + (a + 1) by omega] at hl
  rw [show a + b + c + 4 = b + c + 3 + 1 + a by omega]
  exact reaches_wait a hn rfl hf (by omega) hw (fun q hq => (ht q hq).1) hl

/-- A complete list, from its first row (40_init_reset_sync.md R73). -/
theorem reaches_initDone (hp : s.pc = .running .initOp 0 0) : Reaches (a + b + c + 4)
    (runToEnd (initOps s.params) s).state
    (s.initDone a b c (initializeEvents s.params a b c) ⟨.high, .high, .high⟩ ⟨.high, .high, .high⟩) := by
  have hf := hi.1
  have hrun : runToEnd (initOps s.params) s = runToEnd (rowsFrom6 s.params) (s.moved 5 (startEvents s.params) .powered
      ⟨.high, .high, s.pins.dc⟩ ⟨.high, .high, s.lines.dc⟩ s.pollCnt (.running .initOp 6 0)) := by
    have hrows : initOps s.params = .pw .pwr .high :: .st .powered :: .pw .rst .low :: .dl :: .pw .rst .high :: .dl
        :: rowsFrom6 s.params := rfl
    rw [hrows]
    conv_lhs => rw [moved_zero hp]
    rw [runToEnd_cons_go (moved_pw _ _ hf (by omega) rfl), runToEnd_cons_go (moved_st _ rfl),
      runToEnd_cons_go (moved_pw _ _ hf (by omega) rfl), runToEnd_cons_go (moved_dl hf (by omega) rfl),
      runToEnd_cons_go (moved_pw _ _ hf (by omega) rfl), runToEnd_cons_go (moved_dl hf (by omega) rfl)]
    rfl
  rw [hrun, initializeEvents_eq]
  exact (reaches_from6 hn hi hd).1

end initRun

theorem distinct_of_paramsValid {p : Params} (h : paramsValid p = true) : p.opcodes.distinct = true := by
  simp only [paramsValid, Bool.and_eq_true] at h
  obtain ⟨⟨⟨-, hd⟩, -⟩, -⟩ := h
  exact hd

theorem noReset_of_head {s : State} (h : s.host.head? ≠ some .blockReset) : s.noReset = true := by
  unfold State.noReset
  split
  · next hh => simp [hh] at h
  · rfl
  · rfl

/-- A request of `initOp`, whatever its operand, starts the list (40_init_reset_sync.md R72, R73). -/
theorem step_request_init {s : State} {o : Operand} {rest : List HostAction} (hp : s.pc = .idle)
    (hh : s.host = .request 0#4 o :: rest) (hv : paramsValid s.params = true) (hs : s.state = .unpowered)
    (hf : s.fault = .none) :
    step s = .next (runToEnd (initOps s.params) (startOp .initOp [] { s with host := rest })).state := by
  have hfetch : fetch s = .instr .opInitialize { s with host := rest } := by simp only [fetch, hh, hp]; rfl
  have hacc : accepted .initOp s.state s.fault = true := by rw [hs, hf]; rfl
  simp only [step, hfetch, exec, execInitialize, hostOperation, hp, hv, requestOp, hacc, if_true]
  rfl

/-- THE RUN OF AN `initOp` whose three busy-waits read HIGH `a`, `b` and `c` times, below the timeout: it ends in IDLE with
the three pins HIGH and the response OK, and has performed the events of 40_init_reset_sync.md R73. -/
theorem run_init {a b c : Nat} {s : State} {o : Operand} {rest : List HostAction} (hp : s.pc = .idle)
    (hh : s.host = .request 0#4 o :: rest) (hrest : rest.head? ≠ some .blockReset) (hv : paramsValid s.params = true)
    (hs : s.state = .unpowered) (hf : s.fault = .none) (hi : s.initializes a b c) :
    ∃ n, n ≤ a + b + c + 5 ∧ Host.Core.run core n s = .next { s.afterAnswers (44 + a + b + c) with
      state := .idle
      pins := ⟨.high, .high, .high⟩
      lines := ⟨.high, .high, .high⟩
      pollCnt := c
      host := rest
      responses := s.responses ++ [⟨.ok, .none⟩]
      trace := s.trace ++ initializeEvents s.params a b c } := by
  have hreach : Reaches (a + b + c + 4) _ _ := reaches_initDone (s := startOp .initOp [] { s with host := rest })
    (noReset_of_head hrest) hi (distinct_of_paramsValid hv) rfl
  obtain ⟨n, hn, hrun⟩ := hreach.step (step_request_init hp hh hv hs hf)
  refine ⟨n, hn, hrun.trans ?_⟩
  simp only [State.initDone, State.respond, State.moved, State.afterAnswers, startOp, HostOp.streams, hp]
  rfl

/-! ### The commands of a wire view -/

/-- A trace that begins with an event that sends nothing. -/
theorem framesOf_cons_noSend {e : Event} (he : ∀ b, e ≠ .busSend b true) (x : Pins) (E : List Event) :
    framesOf (wireView x [] (e :: E)) = framesOf (wireView (x.after false e) [] E) := by
  have hitem : frameItem x e = [] := by
    cases e with
    | busSend b done => cases done with
      | true => exact absurd rfl (he b)
      | false => rfl
    | _ => rfl
  simp [wireView, framesOf_append, framesOf_levelChanges, hitem]

theorem commandsOf_dataFrames (l : List Byte) (F : List Frame) : commandsOf (l.map (mkFrame .high) ++ F) = commandsOf F := by
  induction l with
  | nil => rfl
  | cons b l ih => simpa [commandsOf] using ih

/-- The data frames up to the next command are its arguments (30_encoding.md R55). -/
theorem takeWhile_dataFrames (l : List Byte) {F : List Frame} (hF : ∀ f ∈ F.head?, Frame.dc f = .low) :
    (l.map (mkFrame .high) ++ F).takeWhile (fun g => Frame.dc g == .high) = l.map (mkFrame .high) := by
  induction l with
  | nil =>
    cases F with
    | nil => rfl
    | cons f F => simp [hF f rfl]
  | cons b l ih => simpa using ih

theorem commandsOf_command (o : Byte) (l : List Byte) {F : List Frame} (hF : ∀ f ∈ F.head?, Frame.dc f = .low) :
    commandsOf (commandFrames o l ++ F) = (o, l) :: commandsOf F := by
  simp only [commandFrames, List.cons_append, commandsOf, Frame.dc_mkFrame, Frame.byte_mkFrame, commandsOf_dataFrames,
    takeWhile_dataFrames l hF, List.map_map, Function.comp_def, List.map_id']

/-- Grouping the frames of a list of commands gives the commands back (30_encoding.md R55). -/
theorem commandsOf_commandFrames (q : List (Byte × List Byte)) :
    commandsOf (q.flatMap fun e => commandFrames e.1 e.2) = q := by
  induction q with
  | nil => rfl
  | cons e q ih =>
    rw [List.flatMap_cons, commandsOf_command, ih]
    cases q with
    | nil => simp
    | cons d q => simp [commandFrames]

/-- What a chip-side register was last sent, when each command of the trace is sent at most once (10_state.md R22). -/
theorem lastSent_of_commands {t : CommandTable} (hd : t.distinct = true) {cs : List ChipCommand}
    {args : ChipCommand → List Byte} {E : List Event}
    (h : commandsOf (framesOf (wireView ⟨.low, .low, .low⟩ [] E)) = cs.map fun c => (t.opcode c, args c)) (c : ChipCommand) :
    lastSent t c E = if c ∈ cs then some (args c) else none := by
  have hfind : ∀ l : List ChipCommand, (l.find? fun d => t.opcode d == t.opcode c) = if c ∈ l then some c else none := by
    intro l
    induction l with
    | nil => rfl
    | cons d l ih =>
      by_cases hdc : d = c
      · simp [hdc]
      · have hne : t.opcode d ≠ t.opcode c := fun he => hdc (CommandTable.opcode_injective hd he)
        simp [hne, ih, Ne.symm hdc]
  rw [lastSent, h, ← List.map_reverse, List.find?_map]
  simp only [Function.comp_def, hfind, List.mem_reverse]
  split <;> rfl

/-! ### The commands of an `initOp` -/

/-- The commands an `initOp` sends, in order (40_init_reset_sync.md R73). -/
def initCommands : List ChipCommand :=
  [.softReset, .dataEntryMode, .setXWindow, .setYWindow, .updateControl, .setXCounter, .setYCounter]

theorem framesOf_initializeEvents (p : Params) (a b c : Nat) (x : Pins) :
    framesOf (wireView x [] (initializeEvents p a b c))
      = (initCommands.map fun c => (p.opcodes.opcode c, argumentBytes p.geometry c)).flatMap
          fun e => commandFrames e.1 e.2 := by
  rw [← List.append_nil (initializeEvents p a b c)]
  simp only [initializeEvents, resetPulse, configurationEvents, List.append_assoc, List.cons_append, List.nil_append]
  rw [framesOf_cons_noSend (by simp), framesOf_cons_noSend (by simp), framesOf_cons_noSend (by simp),
    framesOf_cons_noSend (by simp), framesOf_cons_noSend (by simp), framesOf_waitEvents, framesOf_commandEvents,
    framesOf_waitEvents, framesOf_commandEvents, framesOf_commandEvents, framesOf_commandEvents, framesOf_commandEvents,
    framesOf_commandEvents, framesOf_commandEvents, framesOf_waitEvents]
  simp [initCommands, argumentBytes, CommandTable.opcode, wireView, framesOf]

/-- Settles O18: the run performs the events of R73, whose frames group into the seven commands; the others are not sent. -/
theorem initializeCommands : Obligations.InitializeCommands := by
  intro a b c s o rest hp hh hrest hv hs hf ht hi
  obtain ⟨n, -, hrun⟩ := run_init hp hh hrest hv hs hf hi
  refine ⟨n, _, hrun, hp, rfl, ?_⟩
  simp only [ht, List.nil_append]
  have hcommands : ∀ x, commandsOf (framesOf (wireView x [] (initializeEvents s.params a b c)))
      = initCommands.map fun c => (s.params.opcodes.opcode c, argumentBytes s.params.geometry c) := fun x => by
    rw [framesOf_initializeEvents, commandsOf_commandFrames]
  have hlast := lastSent_of_commands (distinct_of_paramsValid hv) (hcommands _)
  exact ⟨hcommands _, hlast .setYWindow, hlast .dataEntryMode, hlast .selectPrimary, hlast .selectAccent, hlast .refresh,
    hlast .deepSleep⟩

end Sys2Proof.Machine
end

section
/-! The layout of pixels in a plane (20_memory.md R32): column and row of a pixel, and byte and bit, give each other. -/

namespace Sys2Proof.Machine

section layout
variable {g : Geometry}

/-- The width of a valid geometry is a whole, positive number of bytes. -/
theorem width_eq_rowBytes (h : geometryValid g = true) : g.width = 8 * rowBytes g ∧ 0 < rowBytes g := by
  obtain ⟨⟨hw, hmin, -⟩, -⟩ := (geometryValid_iff g).mp h
  unfold rowBytes
  omega

theorem pixelByteIndex_eq (x y : Nat) : pixelByteIndex g x y = x / 8 + rowBytes g * y := by
  rw [pixelByteIndex, Nat.shiftRight_eq_div_pow, Nat.add_comm, Nat.mul_comm]

/-- A pixel lies in byte `i` and bit `n` exactly when its row and column are those of the byte and the bit. -/
theorem pixel_in_bit_iff (h : geometryValid g = true) {x y i n : Nat} (hx : x < g.width) (hn : n < 8) :
    pixelByteIndex g x y = i ∧ pixelBitIndex x = n ↔ y = i / rowBytes g ∧ x = 8 * (i % rowBytes g) + (7 - n) := by
  obtain ⟨hw, hpos⟩ := width_eq_rowBytes h
  have hbyte : i / rowBytes g = y ∧ i % rowBytes g = x / 8 ↔ x / 8 + rowBytes g * y = i ∧ x / 8 < rowBytes g :=
    Nat.div_mod_unique hpos
  have hcolumn : x / 8 < rowBytes g := by omega
  rw [pixelByteIndex_eq, pixelBitIndex, ← and_iff_left (a := _ = i) hcolumn, ← hbyte]
  omega

/-- The byte of a pixel of the panel lies in the plane. -/
theorem pixelByteIndex_lt (h : geometryValid g = true) {x y : Nat} (hx : x < g.width) (hy : y < g.height) :
    pixelByteIndex g x y < planeBytes g := by
  obtain ⟨hw, -⟩ := width_eq_rowBytes h
  rw [pixelByteIndex_eq, planeBytes]
  calc x / 8 + rowBytes g * y < rowBytes g * (y + 1) := by rw [Nat.mul_succ]; omega
    _ ≤ rowBytes g * g.height := Nat.mul_le_mul_left _ hy

end layout

/-- Settles O5: the byte of a pixel lies in the plane, and the byte and the bit determine column and row by division by
the bytes of a row. -/
theorem pixelLayout : Obligations.PixelLayout := by
  refine fun g hg => ⟨fun p b l x y hfind hlen hx hy => ?_, fun i n hi hn => ?_⟩
  · have hin : pixelByteIndex g x y < l.length := hlen ▸ pixelByteIndex_lt hg hx hy
    refine ⟨_, List.getElem?_eq_getElem hin, ?_⟩
    rw [pixelAt, memRead_of_find hfind, List.getElem?_eq_getElem hin]
    rfl
  · obtain ⟨hw, hpos⟩ := width_eq_rowBytes hg
    have hcolumn : 8 * (i % rowBytes g) + (7 - n) < g.width := by
      have := Nat.mod_lt i hpos
      omega
    refine ⟨(8 * (i % rowBytes g) + (7 - n), i / rowBytes g), ?_, fun ⟨x, y⟩ ⟨hx, _, hbyte, hbit⟩ => ?_⟩
    · exact ⟨hcolumn, Nat.div_lt_of_lt_mul hi, (pixel_in_bit_iff hg hcolumn hn).mpr ⟨rfl, rfl⟩⟩
    · obtain ⟨rfl, rfl⟩ := (pixel_in_bit_iff hg hx hn).mp ⟨hbyte, hbit⟩
      rfl

end Sys2Proof.Machine
end

section
/-! The operand held (20_memory.md R31, R46): only taking a request of `show` or `clearDisplay` writes it. -/

namespace Sys2Proof.Machine

/-- The operand of `t` is that of `s`, or the snapshot of the buffer that the `show` or `clearDisplay` requested by `i` at
`IDLE_PC` hands over. -/
def KeepsOrTakesOperand (i : Instr) (s t : State) : Prop :=
  t.operand = s.operand
    ∨ s.pc = .idle ∧ ∃ op b, op.streams = true ∧ hostOpOf s i = some (op, b) ∧ t.operand = Memory.snapshot b

theorem exec_keepsOrTakesOperand {i : Instr} {s t : State} (h : exec i s = .next t) : KeepsOrTakesOperand i s t := by
  refine (exec_path h).keeps (P := KeepsOrTakesOperand i s) (fun u x hu hx => ?_) (.inl rfl)
  cases u with
  | start op b =>
    cases ho : op.streams with
    | false => simpa [KeepsOrTakesOperand, Update.apply, ho] using hx
    | true => exact .inr ⟨hu.2, op, b, ho, hu.1, by simp [Update.apply, ho]⟩
  | _ => simpa [KeepsOrTakesOperand, Update.apply] using hx

/-- The requests that hand over a buffer to stream are those of `show`, code 4, and of `clearDisplay`, code 5
(30_encoding.md R51). -/
theorem decodeRequest_streams {c : OpCode} {o : Operand} {s : State} {op : HostOp} {b : Buffer}
    (h : hostOpOf s (decodeRequest c o) = some (op, b)) (ho : op.streams = true) :
    c = 4#4 ∧ b = o.toBuffer ∨ c = 5#4 ∧ b = blank s.params.geometry := by
  unfold decodeRequest at h
  split at h
  case h_5 h4 => cases h; exact .inl ⟨BitVec.eq_of_toNat_eq h4, rfl⟩
  case h_6 h5 => cases h; exact .inr ⟨BitVec.eq_of_toNat_eq h5, rfl⟩
  all_goals cases h <;> cases ho

/-- Settles O51: without a block reset only an instruction writes the operand, and it is then a request of code 4 or 5. -/
theorem bufferIsNeverWritten : Obligations.BufferIsNeverWritten := by
  intro s t hn hs hne
  rcases step_cases hs with ⟨-, rfl⟩ | ⟨rest, hf, -⟩ | ⟨i, u, hf, he⟩
  · exact absurd rfl hne
  · exact absurd ((noReset_eq_false_iff s).mpr ⟨rest, fetch_blockReset hf⟩) (by simp [hn])
  · rcases fetch_instr_cases hf with ⟨c, o, rest, hp, hh, rfl, rfl⟩ | ⟨op, k, sub, hp, -, rfl, -⟩
    · obtain ⟨-, op, b, ho, hop, ht⟩ := (exec_keepsOrTakesOperand he).resolve_left hne
      refine ⟨hp, ?_⟩
      rcases decodeRequest_streams hop ho with ⟨rfl, rfl⟩ | ⟨rfl, rfl⟩
      · exact .inl ⟨o, rest, hh, ht⟩
      · exact .inr ⟨o, rest, hh, ht.trans (Memory.snapshot_blank _)⟩
    · exact absurd (exec_operand he (.inr (by simp [hp]))) hne

end Sys2Proof.Machine
end

section
/-! The latches and lines follow the pin writes on the trace (10_state.md R15, 60_exceptions.md R151), and the logs only
grow (20_memory.md R42). -/

namespace Sys2Proof.Machine

/-! ### Latches and lines follow the trace -/

/-- The trace of `t` goes on that of `s`, and the latches and lines of `t` are those its further events say, for one choice
of which failed writes took effect. -/
def PinsFollowTrace (s t : State) : Prop :=
  ∃ E took, t.trace = s.trace ++ E ∧ took.length = E.length
    ∧ t.pins = s.pins.afterAll took E ∧ t.lines = s.lines.afterAll took E

section follow
variable {s t u : State}

/-- Without a further event, latches and lines stay. -/
theorem PinsFollowTrace.of_eq (ht : t.trace = s.trace) (hp : t.pins = s.pins) (hl : t.lines = s.lines) :
    PinsFollowTrace s t := ⟨[], [], by simpa using ht, rfl, hp, hl⟩

theorem PinsFollowTrace.refl (s : State) : PinsFollowTrace s s := .of_eq rfl rfl rfl

theorem PinsFollowTrace.trans (h : PinsFollowTrace s t) (k : PinsFollowTrace t u) : PinsFollowTrace s u := by
  obtain ⟨E, took, ht, hlen, hp, hl⟩ := h
  obtain ⟨F, took', ku, klen, kp, kl⟩ := k
  refine ⟨E ++ F, took ++ took', ?_, by simp [hlen, klen], ?_, ?_⟩
  · rw [ku, ht, List.append_assoc]
  · rw [kp, hp, Pins.afterAll_append _ _ _ hlen]
  · rw [kl, hl, Pins.afterAll_append _ _ _ hlen]

theorem PinsFollowTrace.then {f : Flow} {k : State → Flow} (hf : PinsFollowTrace s f.state)
    (hk : ∀ t, PinsFollowTrace t (k t).state) : PinsFollowTrace s (f.then k).state := by
  cases f with
  | go t => exact hf.trans (hk t)
  | halt t => exact hf

end follow

theorem drawn_follows (s : State) : PinsFollowTrace s s.drawn := .of_eq (by simp) (by simp) (by simp)

theorem abort_follows (c : Status) (x : ErrorInfo) (s : State) : PinsFollowTrace s (s.abort c x) := .of_eq rfl rfl rfl

theorem advance_follows (s : State) : PinsFollowTrace s s.advance := .of_eq (by simp) (by simp) (by simp)

/-- An event that says no level leaves the levels. -/
theorem emit_follows {e : Event} (he : ∀ x : Pins, x.after false e = x) (s : State) : PinsFollowTrace s (s.emit e) :=
  ⟨[e], [false], rfl, rfl, (he _).symm, (he _).symm⟩

theorem failEvent_follows {e : Event} (he : ∀ x : Pins, x.after false e = x) (s : State) :
    PinsFollowTrace s (failEvent e s).state := (emit_follows he s).trans (abort_follows _ _ _)

/-- A pin write that took effect, completed or not, and its event. -/
theorem setPin_emit_follows (p : Pin) (v : Level) (c : Bool) (s : State) :
    PinsFollowTrace s ((s.setPin p v).emit (.pinWrite p v c)) :=
  ⟨[.pinWrite p v c], [true], rfl, rfl, (Pins.after_took _ p v c).symm, (Pins.after_took _ p v c).symm⟩

theorem pinWrite_follows (p : Pin) (v : Level) (s : State) : PinsFollowTrace s (pinWrite p v s).state := by
  refine (drawn_follows s).trans ?_
  cases h : s.answer.completes with
  | true => rw [pinWrite_completes p v s h]; exact setPin_emit_follows p v true _
  | false =>
    rw [pinWrite_fails p v s h]
    split
    · exact (setPin_emit_follows p v false _).trans (abort_follows _ _ _)
    · exact failEvent_follows (fun _ => rfl) _

theorem busSend_follows (b : Byte) (s : State) : PinsFollowTrace s (busSend b s).state := by
  refine (drawn_follows s).trans ?_
  cases h : s.answer.completes with
  | true => rw [busSend_completes b s h]; exact emit_follows (fun _ => rfl) _
  | false => rw [busSend_fails b s h]; exact failEvent_follows (fun _ => rfl) _

theorem busRelease_follows (s : State) : PinsFollowTrace s (busRelease s).state := by
  have released : PinsFollowTrace s s.drawn.releaseBus := (drawn_follows s).trans (.of_eq rfl rfl rfl)
  cases h : s.answer.completes with
  | true => rw [busRelease_completes s h]; exact released.trans (emit_follows (fun _ => rfl) _)
  | false =>
    rw [busRelease_fails s h]
    refine PinsFollowTrace.trans ?_ (failEvent_follows (fun _ => rfl) _)
    split
    · exact released
    · exact drawn_follows s

theorem delayHold_follows (s : State) : PinsFollowTrace s (delayHold s).state := by
  refine (drawn_follows s).trans ?_
  cases h : s.answer.completes with
  | true => rw [delayHold_elapses s h]; exact emit_follows (fun _ => rfl) _
  | false => rw [delayHold_interrupted s h]; exact (emit_follows (fun _ => rfl) _).trans (abort_follows _ _ _)

theorem busyPoll_follows (s : State) : PinsFollowTrace s (busyPoll s).state := by
  have base : PinsFollowTrace s (pollBase s) := .of_eq (by simp [pollBase]) (by simp [pollBase]) (by simp [pollBase])
  have counted : PinsFollowTrace s ((pollBase s).countPoll.emit (.busyRead (some .high))) :=
    (base.trans (.of_eq rfl rfl rfl)).trans (emit_follows (fun _ => rfl) _)
  cases h : s.answer.completes with
  | false => rw [busyPoll_fails s h]; exact base.trans (failEvent_follows (fun _ => rfl) _)
  | true =>
    cases hl : s.answer.busy with
    | low => rw [busyPoll_low s h hl]; exact base.trans (emit_follows (fun _ => rfl) _)
    | high =>
      cases ht : timedOut s.params.busyTimeoutPolls ((pollBase s).pollCnt + 1) with
      | false => rw [busyPoll_high_waits s h hl ht]; exact counted.trans (.of_eq rfl rfl rfl)
      | true => rw [busyPoll_high_times_out s h hl ht]; exact counted.trans (abort_follows _ _ _)

theorem sendFrame_follows (dc : Level) (b : Byte) (s : State) : PinsFollowTrace s (sendFrame dc b s).state := by
  by_cases h : s.pc.sub = 0
  · rw [sendFrame_start dc b s h]
    exact (pinWrite_follows .dc dc s).then fun t =>
      (PinsFollowTrace.of_eq rfl rfl rfl).trans (busSend_follows b (t.setSub 1))
  · rw [sendFrame_resumed dc b s h]; exact busSend_follows b s

theorem streamBytes_follows (n : Nat) (s : State) : PinsFollowTrace s (streamBytes n s).state := by
  induction n generalizing s with
  | zero => exact .refl s
  | succ n ih => exact (sendFrame_follows .high _ s).then fun t => (advance_follows t).trans (ih _)

theorem runMicro_follows (m : MicroOp) (s : State) : PinsFollowTrace s (runMicro m s).state := by
  cases m with
  | pw p v => exact (pinWrite_follows p v s).then advance_follows
  | dl => exact (delayHold_follows s).then advance_follows
  | bw => exact (busyPoll_follows s).then advance_follows
  | sc o => exact (sendFrame_follows .low o s).then advance_follows
  | sd b => exact (sendFrame_follows .high b s).then advance_follows
  | stream => exact streamBytes_follows _ s
  | br => exact (busRelease_follows s).then advance_follows
  | st v => exact (PinsFollowTrace.of_eq rfl rfl rfl).trans (advance_follows (s.setState v))
  | chk =>
    simp only [runMicro]
    split
    · exact advance_follows s
    · exact .of_eq rfl rfl rfl

theorem runList_follows (l : List MicroOp) (s : State) : PinsFollowTrace s (runList l s).state := by
  induction l generalizing s with
  | nil => exact .refl s
  | cons m l ih => exact (runMicro_follows m s).then ih

theorem runToEnd_follows (l : List MicroOp) (s : State) : PinsFollowTrace s (runToEnd l s).state :=
  (runList_follows l s).then fun _ => .of_eq rfl rfl rfl

theorem exec_follows {i : Instr} {s t : State} (h : exec i s = .next t) : PinsFollowTrace s t := by
  rcases exec_cases h with ⟨c, -, rfl⟩ | ⟨op, b, -, -, -, rfl⟩ | ⟨op, b, k, sub, -, -, -, -, rfl⟩ | rfl
  · exact .of_eq rfl rfl rfl
  · unfold requestOp
    split
    · split
      · exact .of_eq rfl rfl rfl
      · exact (PinsFollowTrace.of_eq rfl rfl rfl).trans (runToEnd_follows _ (startOp op b s))
    · exact .of_eq rfl rfl rfl
  · exact runToEnd_follows _ s
  · exact runList_follows _ s

/-! ### The logs grow -/

/-- Nothing is taken from the trace, the responses or the free draws, and the parameters stay. -/
structure LogsGrow (s t : State) : Prop where
  trace : s.trace <+: t.trace
  responses : s.responses <+: t.responses
  draws : s.draws ≤ t.draws
  params : t.params = s.params

theorem Keeps.logsGrow {s t : State} (h : Keeps s t) : LogsGrow s t := ⟨h.trace, h.responses, h.draws, h.params⟩

theorem LogsGrow.refl (s : State) : LogsGrow s s := (Keeps.refl s).logsGrow

/-- Taking a request writes the operand and the position only, so its logs are those of the run that follows. -/
theorem requestOp_logsGrow (op : HostOp) (b : Buffer) (s : State) : LogsGrow s (requestOp op b s) := by
  unfold requestOp
  split
  · split
    · exact (respond_keeps _ s).logsGrow
    · obtain ⟨ht, hr, hd, hp⟩ := (runToEnd_keeps (program s.params op) (startOp op b s)).logsGrow
      exact ⟨ht, hr, hd, hp⟩
  · exact (respond_keeps _ s).logsGrow

theorem exec_logsGrow {i : Instr} {s t : State} (h : exec i s = .next t) : LogsGrow s t := by
  rcases exec_cases h with ⟨c, -, rfl⟩ | ⟨op, b, -, -, -, rfl⟩ | ⟨op, b, k, sub, -, -, -, -, rfl⟩ | rfl
  · exact (respond_keeps _ s).logsGrow
  · exact requestOp_logsGrow op b s
  · exact (runToEnd_keeps _ s).logsGrow
  · exact (runList_keeps _ s).logsGrow

theorem blockReset_logsGrow (s : State) : LogsGrow s s.blockReset := by
  refine ⟨List.prefix_rfl, List.prefix_rfl, ?_, rfl⟩
  rw [State.blockReset_draws]
  split <;> omega

/-- An instruction is executed in the state of its step, but for the request it has taken from the host's actions. -/
theorem fetch_instr_state {s u : State} {i : Instr} (h : fetch s = .instr i u) : u = { s with host := u.host } := by
  rcases fetch_instr_cases h with ⟨_, _, _, -, -, -, rfl⟩ | ⟨_, _, _, -, -, rfl, -⟩ <;> rfl

/-- Settles O48: an instruction and a block reset only let the logs grow, and every event of an instruction leaves latches
and lines as it says. -/
theorem traceOnlyGrows : Obligations.TraceOnlyGrows := by
  intro s t hs
  suffices h : LogsGrow s t ∧ (s.noReset = true → PinsFollowTrace s t) by
    obtain ⟨⟨ht, hr, hd, hp⟩, hf⟩ := h
    exact ⟨ht, hr, hd, hp, hf⟩
  rcases step_cases hs with ⟨-, rfl⟩ | ⟨rest, hf, rfl⟩ | ⟨i, u, hf, he⟩
  · exact ⟨.refl _, fun _ => .refl _⟩
  · obtain ⟨ht, hr, hd, hp⟩ := blockReset_logsGrow { s with host := rest }
    refine ⟨⟨ht, hr, hd, hp⟩, fun hn => ?_⟩
    exact absurd ((noReset_eq_false_iff s).mpr ⟨rest, fetch_blockReset hf⟩) (by simp [hn])
  · obtain ⟨ht, hr, hd, hp⟩ := exec_logsGrow he
    have hfollow := exec_follows he
    rw [fetch_instr_state hf] at ht hr hd hp hfollow
    exact ⟨⟨ht, hr, hd, hp⟩, fun _ => hfollow⟩

end Sys2Proof.Machine
end

section
/-! Decoding and encoding are inverse to each other (30_encoding.md R51, R54 to R59). -/

namespace Sys2Proof

/-- Settles O2: the round trip of each constructor. -/
theorem decodeOfEncode : Obligations.DecodeOfEncode := by
  intro t i h
  cases i with
  | opInitialize => exact Laws.RoundTrip.opInitialize t h
  | opHardReset => exact Laws.RoundTrip.opHardReset t h
  | opSoftReset => exact Laws.RoundTrip.opSoftReset t h
  | opBusyWait => exact Laws.RoundTrip.opBusyWait t h
  | opShow b => exact Laws.RoundTrip.opShow b t h
  | opClearDisplay => exact Laws.RoundTrip.opClearDisplay t h
  | opSleep => exact Laws.RoundTrip.opSleep t h
  | opPowerOff => exact Laws.RoundTrip.opPowerOff t h
  | opSendCommand o => exact Laws.RoundTrip.opSendCommand o t h
  | opSendData b => exact Laws.RoundTrip.opSendData b t h
  | reserved10 => exact Laws.RoundTrip.reserved10 t h
  | reserved11 => exact Laws.RoundTrip.reserved11 t h
  | reserved12 => exact Laws.RoundTrip.reserved12 t h
  | reserved13 => exact Laws.RoundTrip.reserved13 t h
  | reserved14 => exact Laws.RoundTrip.reserved14 t h
  | reserved15 => exact Laws.RoundTrip.reserved15 t h
  | cmdSoftReset => exact Laws.RoundTrip.cmdSoftReset t h
  | cmdDataEntryMode => exact Laws.RoundTrip.cmdDataEntryMode t h
  | cmdSetXWindow => exact Laws.RoundTrip.cmdSetXWindow t h
  | cmdSetYWindow => exact Laws.RoundTrip.cmdSetYWindow t h
  | cmdUpdateControl => exact Laws.RoundTrip.cmdUpdateControl t h
  | cmdSetXCounter => exact Laws.RoundTrip.cmdSetXCounter t h
  | cmdSetYCounter => exact Laws.RoundTrip.cmdSetYCounter t h
  | cmdSelectPrimary => exact Laws.RoundTrip.cmdSelectPrimary t h
  | cmdSelectAccent => exact Laws.RoundTrip.cmdSelectAccent t h
  | cmdRefresh => exact Laws.RoundTrip.cmdRefresh t h
  | cmdSleep => exact Laws.RoundTrip.cmdSleep t h
  | data b => exact Laws.RoundTrip.data b t h

section frames
variable {t : CommandTable} {f : Frame}

theorem encode_command (t : CommandTable) (c : ChipCommand) : encode t c.instr = .frame (mkFrame .low (t.opcode c)) := by
  cases c <;> rfl

theorem decodeFrame_high (h : Frame.dc f = .high) : decodeFrame t f = .ok (.data (Frame.byte f)) := by
  simp only [decodeFrame, h]

theorem decodeFrame_low_some {c : ChipCommand} (h : Frame.dc f = .low) (hc : t.command? (Frame.byte f) = some c) :
    decodeFrame t f = .ok c.instr := by
  simp only [decodeFrame, h, hc]

theorem decodeFrame_low_none (h : Frame.dc f = .low) (hc : t.command? (Frame.byte f) = none) :
    decodeFrame t f = .error (.unknownOpcode (Frame.byte f)) := by
  simp only [decodeFrame, h, hc]

/-- A frame that is an instruction encodes it (30_encoding.md R54). -/
theorem encode_of_decodeFrame {i : Instr} (hi : decodeFrame t f = .ok i) : encode t i = .frame f := by
  have heta := Frame.eta f
  cases hd : Frame.dc f with
  | high =>
    rw [hd] at heta
    cases (decodeFrame_high hd).symm.trans hi
    rw [encode, heta]
  | low =>
    rw [hd] at heta
    cases hc : t.command? (Frame.byte f) with
    | none => cases (decodeFrame_low_none hd hc).symm.trans hi
    | some c =>
      cases (decodeFrame_low_some hd hc).symm.trans hi
      rw [encode_command, CommandTable.command?_some hc, heta]

/-- The frames that are no instruction are the command frames without an opcode (30_encoding.md R59). -/
theorem decodeFrame_error_iff :
    (∃ e, decodeFrame t f = .error e) ↔ Frame.dc f = .low ∧ Frame.byte f ∉ t.codes := by
  cases hd : Frame.dc f with
  | high => simp [decodeFrame_high hd]
  | low =>
    rw [← CommandTable.command?_none]
    cases hc : t.command? (Frame.byte f) with
    | none => simp [decodeFrame_low_none hd hc]
    | some c => simp [decodeFrame_low_some hd hc]

end frames

/-- Settles O3: a frame is its two fields, and the command table decides what a command frame is. -/
theorem framesDecodeUniquely : Obligations.FramesDecodeUniquely :=
  fun _ _ => ⟨fun _ => encode_of_decodeFrame, decodeFrame_error_iff⟩

/-- Settles O1: each word is a row of the tables of 30_encoding.md R51 and R56, or none. -/
theorem tableWordsDecode : Obligations.TableWordsDecode := by
  refine ⟨?_, ?_, ?_, ?_, ?_, ?_, ?_, ?_, ?_, ?_⟩ <;> rfl

end Sys2Proof
end

section
/-! The argument bytes of the window and the size of a plane (30_encoding.md R61, R62), and the reserved codes (R59). -/

namespace Sys2Proof.Machine

section window
variable {g : Geometry}

/-- The mask of XE drops nothing: the last byte of a row of at most 256 pixels has five bits. -/
theorem xEnd_toNat (h : geometryValid g = true) : (xEnd g).toNat = (g.width - 1) / 8 := by
  obtain ⟨⟨-, -, hw, -⟩, -⟩ := (geometryValid_iff g).mp h
  have hmask : (g.width - 1) / 8 &&& 0x1F = (g.width - 1) / 8 % 32 := Nat.and_two_pow_sub_one_eq_mod _ 5
  rw [xEnd, BitVec.toNat_ofNat, Nat.shiftRight_eq_div_pow, hmask]
  omega

theorem yEndLow_toNat (g : Geometry) : (yEndLow g).toNat = (g.height - 1) % 256 := by
  have hmask : g.height - 1 &&& 0xFF = (g.height - 1) % 256 := Nat.and_two_pow_sub_one_eq_mod _ 8
  rw [yEndLow, BitVec.toNat_ofNat, hmask]
  omega

theorem yEndHigh_toNat (g : Geometry) : (yEndHigh g).toNat = (g.height - 1) / 256 % 2 := by
  have hmask : (g.height - 1) / 256 &&& 0x01 = (g.height - 1) / 256 % 2 := Nat.and_two_pow_sub_one_eq_mod _ 1
  rw [yEndHigh, BitVec.toNat_ofNat, Nat.shiftRight_eq_div_pow, hmask]
  omega

/-- A plane has one bit per pixel (30_encoding.md R62). -/
theorem eight_mul_planeBytes (h : geometryValid g = true) : 8 * planeBytes g = g.width * g.height := by
  rw [(width_eq_rowBytes h).1, planeBytes, Nat.mul_assoc]

/-- A row has at most 32 bytes and a column 512 pixels (10_state.md R18). -/
theorem planeBytes_le (h : geometryValid g = true) : planeBytes g ≤ 16384 := by
  obtain ⟨⟨-, -, hw, -, hh⟩, -⟩ := (geometryValid_iff g).mp h
  have hrow : rowBytes g ≤ 32 := Nat.div_le_div_right (c := 8) hw
  exact Nat.mul_le_mul hrow hh

end window

/-- Settles O4: each mask is a remainder, which leaves a number within the bounds of a valid geometry. -/
theorem windowBytesExact : Obligations.WindowBytesExact := by
  intro g hg
  obtain ⟨⟨-, hmin, hw, hpos, hh⟩, -⟩ := (geometryValid_iff g).mp hg
  have hplane : 0 < planeBytes g := Nat.mul_pos (width_eq_rowBytes hg).2 hpos
  rw [xEnd_toNat hg, yEndLow_toNat, yEndHigh_toNat]
  refine ⟨rfl, ?_, ?_, ?_, eight_mul_planeBytes hg, hplane, planeBytes_le hg⟩ <;> omega

theorem reservedCode_idle {s : State} (c : OpCode) (hp : s.pc = .idle) :
    reservedCode c s = .next { s with responses := s.responses ++ [⟨.illegalOperation, .code c⟩] } := by
  simp only [reservedCode, hp, illegalOperation, State.respond]

/-- Settles O12: every reserved code answers IllegalOperation at `IDLE_PC`. -/
theorem reservedCodesAnswer : Obligations.ReservedCodesAnswer := fun _ hp =>
  ⟨reservedCode_idle _ hp, reservedCode_idle _ hp, reservedCode_idle _ hp, reservedCode_idle _ hp,
    reservedCode_idle _ hp, reservedCode_idle _ hp⟩

end Sys2Proof.Machine
end

section
/-! The frames a step emits (30_encoding.md R54, R59): a running operation drives `DC` before each byte, so its frames are
those its rows name, whatever levels a view of the trace begins with. -/

namespace Sys2Proof.Machine

/-! ### The events of a micro-operation -/

theorem pinWrite_trace (p : Pin) (v : Level) (s : State) :
    ∃ c, (pinWrite p v s).state.trace = s.trace ++ [.pinWrite p v c] := by
  cases h : s.answer.completes with
  | true => exact ⟨true, by simp [pinWrite_completes p v s h]⟩
  | false => refine ⟨false, ?_⟩; rw [pinWrite_fails p v s h]; split <;> simp [failEvent]

theorem busSend_trace (b : Byte) (s : State) : ∃ c, (busSend b s).state.trace = s.trace ++ [.busSend b c] := by
  cases h : s.answer.completes with
  | true => exact ⟨true, by simp [busSend_completes b s h]⟩
  | false => exact ⟨false, by simp [busSend_fails b s h, failEvent]⟩

theorem busRelease_trace (s : State) : ∃ c, (busRelease s).state.trace = s.trace ++ [.busRelease c] := by
  cases h : s.answer.completes with
  | true => exact ⟨true, by simp [busRelease_completes s h]⟩
  | false => refine ⟨false, ?_⟩; rw [busRelease_fails s h]; split <;> simp [failEvent]

theorem delayHold_trace (s : State) : ∃ c, (delayHold s).state.trace = s.trace ++ [.delay s.params.tHoldNs c] := by
  cases h : s.answer.completes with
  | true => exact ⟨true, by simp [delayHold_elapses s h]⟩
  | false => exact ⟨false, by simp [delayHold_interrupted s h]⟩

theorem busyPoll_trace (s : State) : ∃ v, (busyPoll s).state.trace = s.trace ++ [.busyRead v] := by
  cases h : s.answer.completes with
  | false => exact ⟨none, by simp [busyPoll_fails s h, failEvent, pollBase]⟩
  | true =>
    cases hl : s.answer.busy with
    | low => exact ⟨some .low, by simp [busyPoll_low s h hl, pollBase]⟩
    | high =>
      refine ⟨some .high, ?_⟩
      cases ht : timedOut s.params.busyTimeoutPolls ((pollBase s).pollCnt + 1) with
      | false => rw [busyPoll_high_waits s h hl ht]; simp [pollBase]
      | true => rw [busyPoll_high_times_out s h hl ht]; simp [pollBase]

/-- A frame writes `DC` first, and sends its byte only when that write has completed (43_primitives.md R110, R111). -/
theorem sendFrame_trace (dc : Level) (b : Byte) {s : State} (hs : s.pc.sub = 0) :
    (sendFrame dc b s).state.trace = s.trace ++ [.pinWrite .dc dc false]
      ∨ ∃ c, (sendFrame dc b s).state.trace = s.trace ++ [.pinWrite .dc dc true, .busSend b c] := by
  rw [sendFrame_start dc b s hs]
  cases h : s.answer.completes with
  | true =>
    rw [pinWrite_completes _ _ s h]
    obtain ⟨c, hc⟩ := busSend_trace b (((s.drawn.setPin .dc dc).emit (.pinWrite .dc dc true)).setSub 1)
    exact .inr ⟨c, by simpa using hc⟩
  | false => rw [pinWrite_fails _ _ s h]; left; split <;> simp [failEvent]

theorem then_advance_trace (f : Flow) : (f.then fun t => .go t.advance).state.trace = f.state.trace := by
  cases f with
  | go t => exact State.advance_trace t
  | halt t => rfl

/-! ### The frames of the events since a state -/

/-- The wire view of a trace in two parts, whatever list says which failed writes took effect. -/
theorem wireView_append_drop (x : Pins) (took : List Bool) (E F : List Event) :
    wireView x took (E ++ F) = wireView x took E ++ wireView (x.afterAll took E) (took.drop E.length) F := by
  induction E generalizing x took with
  | nil => rfl
  | cons e E ih =>
    simp only [List.cons_append, wireView, ih, List.append_assoc, List.length_cons, List.drop_tail]
    rfl

/-- The frames of the events since `s` all satisfy `A`, in every wire view of them. -/
def Sends (A : Frame → Prop) (s t : State) : Prop :=
  ∃ E, t.trace = s.trace ++ E ∧ ∀ x took, ∀ f ∈ framesOf (wireView x took E), A f

section sends
variable {A : Frame → Prop} {s t u : State}

theorem Sends.of_noSend {E : List Event} (ht : t.trace = s.trace ++ E) (hE : ∀ b, Event.busSend b true ∉ E) :
    Sends A s t :=
  ⟨E, ht, fun x took f hf => by rw [framesOf_wireView_noSend hE] at hf; exact absurd hf List.not_mem_nil⟩

theorem Sends.of_trace_eq (h : t.trace = s.trace) : Sends A s t :=
  .of_noSend (E := []) (by simpa using h) fun _ => List.not_mem_nil

theorem Sends.trans (h : Sends A s t) (k : Sends A t u) : Sends A s u := by
  obtain ⟨E, hE, hA⟩ := h
  obtain ⟨F, hF, kA⟩ := k
  refine ⟨E ++ F, by rw [hF, hE, List.append_assoc], fun x took f hf => ?_⟩
  rw [wireView_append_drop, framesOf_append, List.mem_append] at hf
  exact hf.elim (hA x took f) (kA _ _ f)

/-- The frame of a byte has the level that `DC` was driven to before it (43_primitives.md R112). -/
theorem framesOf_sendEvents (x : Pins) (took : List Bool) (dc : Level) (b : Byte) (c : Bool) :
    framesOf (wireView x took [.pinWrite .dc dc true, .busSend b c]) = if c then [mkFrame dc b] else [] := by
  cases c <;> simp [wireView, framesOf_append, framesOf_levelChanges, frameItem, Pins.after, Pins.set, framesOf]

theorem sendFrame_sends {dc : Level} {b : Byte} (hA : A (mkFrame dc b)) (hs : s.pc.sub = 0) :
    Sends A s (sendFrame dc b s).state := by
  rcases sendFrame_trace dc b hs with ht | ⟨c, ht⟩
  · exact .of_noSend ht (by simp)
  · refine ⟨_, ht, fun x took f hf => ?_⟩
    rw [framesOf_sendEvents] at hf
    cases c with
    | true => rwa [List.mem_singleton.mp hf]
    | false => exact absurd hf List.not_mem_nil

/-- The frames of a micro-operation are the one it names. -/
theorem runMicro_sends {m : MicroOp} (hm : m ≠ .stream) (hs : s.pc.sub = 0 ∨ m = .bw)
    (hsc : ∀ o, m = .sc o → A (mkFrame .low o)) (hsd : ∀ b, m = .sd b → A (mkFrame .high b)) :
    Sends A s (runMicro m s).state := by
  have event : ∀ {f : Flow}, Sends A s f.state → Sends A s (f.then fun t => .go t.advance).state := fun {f} hf =>
    hf.trans (.of_trace_eq (then_advance_trace f))
  cases m with
  | pw p v => obtain ⟨c, hc⟩ := pinWrite_trace p v s; exact event (.of_noSend hc (by simp))
  | dl => obtain ⟨c, hc⟩ := delayHold_trace s; exact event (.of_noSend hc (by simp))
  | bw => obtain ⟨v, hv⟩ := busyPoll_trace s; exact event (.of_noSend hv (by simp))
  | br => obtain ⟨c, hc⟩ := busRelease_trace s; exact event (.of_noSend hc (by simp))
  | sc o => exact event (sendFrame_sends (hsc o rfl) (hs.resolve_right MicroOp.noConfusion))
  | sd b => exact event (sendFrame_sends (hsd b rfl) (hs.resolve_right MicroOp.noConfusion))
  | stream => exact absurd rfl hm
  | st v => exact .of_trace_eq (State.advance_trace _)
  | chk =>
    simp only [runMicro]
    split
    · exact .of_trace_eq (State.advance_trace s)
    · exact .of_trace_eq rfl

end sends

/-! ### The frames of a step -/

/-- Every command that a list sends is one of the table. -/
theorem opcode_mem_of_program {p : Params} {op : HostOp} {k : Nat} {o : Byte} (h : (program p op)[k]? = some (.sc o)) :
    o ∈ p.opcodes.codes := by
  have hmem := List.mem_of_getElem? h
  have hc : ∃ c, o = p.opcodes.opcode c := by
    cases op with
    | initOp =>
      simp [program, initOps, hardResetOps, softResetOps, configurationOps, commandOps, argumentBytes] at hmem
      rcases hmem with ho | ho | ho | ho | ho | ho | ho <;> exact ⟨_, ho⟩
    | showOp | clearOp =>
      simp [program, showOps] at hmem
      rcases hmem with ho | ho | ho <;> exact ⟨_, ho⟩
    | sleepOp => simp [program, sleepOps, commandOps, argumentBytes] at hmem; exact ⟨_, hmem⟩
    | powerOffOp => simp [program, powerOffOps] at hmem
  obtain ⟨c, rfl⟩ := hc
  exact p.opcodes.opcode_mem c

/-- A command frame has its byte from the command table. -/
def InTable (t : CommandTable) (f : Frame) : Prop := Frame.dc f = .low → Frame.byte f ∈ t.codes

theorem Due.opcode_mem {p : Params} {op : HostOp} {k : Nat} {o : Byte} (h : Due p op k (.sc o)) : o ∈ p.opcodes.codes := by
  cases h with
  | row hm _ => exact opcode_mem_of_program hm

theorem StandsAt.sub_of_due {p : Params} {op : HostOp} {k : Nat} {m : MicroOp} {s : State} (h : StandsAt p op k s)
    (hm : Due p op k m) : s.pc.sub = 0 ∨ m = .bw := by
  cases hm with
  | row hrow _ => exact h.sub_eq_zero hrow
  | byte _ hrow => exact .inl ((h.sub_eq_zero hrow).resolve_right MicroOp.noConfusion)

theorem keptBy_sends (p : Params) (op : HostOp) (s : State) :
    KeptBy p op (Sends (InTable p.opcodes) s) (Sends (InTable p.opcodes) s) := by
  intro k m u hm hu hsent
  refine Flow.ends_of_state (hsent.trans (runMicro_sends hm.ne_stream (hu.sub_of_due hm) ?_ ?_))
  · rintro o rfl -
    rw [Frame.byte_mkFrame]
    exact hm.opcode_mem
  · intro b _ hlow
    rw [Frame.dc_mkFrame] at hlow
    cases hlow

/-- Settles O47: the frames of a step are those of the rows it performs, whose commands are of the table. -/
theorem commandFramesAreInTable : Obligations.CommandFramesAreInTable := by
  intro s t hinv hstep
  suffices h : Sends (InTable s.params.opcodes) s t from h
  cases invStep_of_step hinv hstep with
  | waits | reset | answers => exact .of_trace_eq rfl
  | request rest op b hpc ho hs =>
    exact (keptBy_sends s.params op s).toEnd (k := 0) (fun _ _ ht => ht) (Nat.zero_le _) hs (.of_trace_eq rfl)
  | running hk hs h =>
    rcases h.kept (keptBy_sends _ _ s) (fun _ _ ht => ht) hs (.of_trace_eq rfl) with ⟨_, _, _, ht⟩ | ht <;> exact ht

end Sys2Proof.Machine
end

section
/-! A step answers exactly when it ends its operation (30_encoding.md R50, R53). -/

namespace Sys2Proof.Machine

/-- What a step that began in `s` leaves: the operation goes on with nothing answered, or it is over with one response. -/
def AnswersOnce (s t : State) : Prop :=
  t.pc ≠ .idle ∧ t.responses = s.responses ∨ t.pc = .idle ∧ ∃ r, t.responses = s.responses ++ [r]

theorem answersOnce_respond {s u : State} (r : Response) (h : u.responses = s.responses) : AnswersOnce s (u.respond r) :=
  .inr ⟨rfl, r, by rw [State.respond_responses, h]⟩

section once
variable {p : Params} {op : HostOp} {k : Nat} {s t : State}

theorem StandsAt.answersOnce (h : StandsAt p op k t) (hr : t.responses = s.responses) : AnswersOnce s t := by
  obtain ⟨n, hn⟩ := h.pc_running
  exact .inl ⟨by rw [hn]; exact Pc.noConfusion, hr⟩

/-- A running operation answers nothing while its micro-operations complete, and once where it stops. -/
theorem keptBy_answersOnce (p : Params) (op : HostOp) (s : State) :
    KeptBy p op (fun t => t.responses = s.responses) (AnswersOnce s) := by
  intro k m u hm hu hr
  refine ((runMicro_quiet m u).and (runMicro_halts u hm.ne_stream)).mono (fun t ht => ht.1.2.trans hr) fun t ⟨_, ht⟩ => ?_
  cases ht with
  | fails _ _ hf =>
    obtain ⟨w, c, x, hw, -, -, rfl⟩ := hf.aborted
    exact .inr ⟨rfl, ⟨c, x⟩, by rw [State.abort_responses, hw.responses, hr]⟩
  | rejects _ r _ => exact answersOnce_respond r hr
  | waits _ hw =>
    obtain ⟨n, hn⟩ := hu.pc_running
    exact .inl ⟨by simp [hw.eq, hn], by simpa [hw.eq, pollBase] using hr⟩

end once

/-- At `IDLE_PC` the oldest request is executed (40_init_reset_sync.md R72). -/
theorem step_request {s : State} {c : OpCode} {o : Operand} {rest : List HostAction} (hp : s.pc = .idle)
    (hh : s.host = .request c o :: rest) : step s = exec (decodeRequest c o) { s with host := rest } := by
  have hf : fetch s = .instr (decodeRequest c o) { s with host := rest } := by simp only [fetch, hh, hp]; rfl
  simp only [step, hf]

/-- A step that takes a request shortens the host's actions, so one that changes nothing at `IDLE_PC` has waited. -/
theorem host_eq_nil_of_step_self {s : State} (hp : s.pc = .idle) (hn : s.noReset = true) (h : step s = .next s) :
    s.host = [] := by
  rcases hh : s.host with _ | ⟨⟨c, o⟩ | _, rest⟩
  · rfl
  · rw [step_request hp hh] at h
    obtain ⟨-, hhost, -⟩ := exec_keeps_outside h
    exact absurd (hh.symm.trans hhost) (List.cons_ne_self _ _)
  · simp [State.noReset, hh] at hn

/-- Settles O53: a step runs its operation until it stops, and answers where it ends. -/
theorem oneResponsePerOperation : Obligations.OneResponsePerOperation := by
  intro s t hinv hn hstep
  have done : ∀ {op : HostOp} (u : State), StandsAt s.params op op.rows u → u.responses = s.responses →
      AnswersOnce s (u.respond ⟨.ok, .none⟩) := fun _ _ hu => answersOnce_respond _ hu
  have honce : t = s ∨ AnswersOnce s t := by
    cases invStep_of_step hinv hstep with
    | waits => exact .inl rfl
    | reset rest hh => simp [State.noReset, hh] at hn
    | answers rest r hr h => exact .inr (answersOnce_respond r rfl)
    | request rest op b hpc ho hs =>
      exact .inr ((keptBy_answersOnce s.params op s).toEnd (k := 0) done (Nat.zero_le _) hs rfl)
    | running hk hs h =>
      rcases h.kept (keptBy_answersOnce _ _ s) done hs rfl with ⟨_, _, ht, hr⟩ | ht
      · exact .inr (ht.answersOnce hr)
      · exact .inr ht
  rcases honce with rfl | ⟨hpc, hr⟩ | ⟨hpc, hr⟩
  · exact ⟨fun _ => rfl, fun hpc hwait => absurd ⟨hpc, host_eq_nil_of_step_self hpc hn hstep⟩ hwait⟩
  · exact ⟨fun _ => hr, fun hidle => absurd hidle hpc⟩
  · exact ⟨fun hrun => absurd hpc hrun, fun _ _ => hr⟩

end Sys2Proof.Machine
end

section
/-! Which instruction a step executes: the host's request at `IDLE_PC`, or what stands at the position
(40_init_reset_sync.md R70 to R72). -/

namespace Sys2Proof.Machine

/-- Settles O9: a request always decodes, to the instruction of its code. -/
theorem stepRunsRequest : Obligations.StepRunsRequest := by
  intro s c o rest i hp hh hd
  cases hd
  exact step_request hp hh

/-- What the position holds is executed. -/
theorem step_of_fetchRunning {s : State} {op : HostOp} {k sub : Nat} {i : Instr} (hp : s.pc = .running op k sub)
    (hn : s.noReset = true) (hf : fetchRunning op k s = .instr i s) : step s = exec i s := by
  rw [step, fetch_of_noReset hp hn, hf]

/-- The frame of a data byte always decodes. -/
theorem ofEncoded_data (b : Byte) (s : State) :
    Fetched.ofEncoded (.frame (mkFrame .high b)) s = .instr (.data b) s := by
  simp only [Fetched.ofEncoded, decode, decodeFrame_data]

/-- Settles O10: each kind of micro-operation is one branch of what a running operation fetches. -/
theorem stepRunsPosition : Obligations.StepRunsPosition := by
  intro s op k sub m hp hn hm
  have run : ∀ {i}, fetchRunning op k s = .instr i s → step s = exec i s := step_of_fetchRunning hp hn
  cases m with
  | sc o => exact fun i hi => run (by simp only [fetchRunning, hm, Fetched.ofEncoded, hi])
  | sd b => exact run (by simp only [fetchRunning, hm, ofEncoded_data])
  | stream =>
    exact fun b hb hr => run (by simp only [fetchRunning, hm, hb, State.nextByte?, hr, ofEncoded_data, if_true])
  | pw p v =>
    refine run ?_
    simp only [fetchRunning, hm, atHardReset, Bool.and_eq_true, beq_iff_eq]
    split <;> rfl
  | bw | dl | br | st _ | chk => exact run (by simp only [fetchRunning, hm])

end Sys2Proof.Machine
end

section
/-! How an event that fails on the way of an operation aborts it (60_exceptions.md R145, R146, R150, R151), and the
failures of `hardReset` (40_init_reset_sync.md R77). -/

namespace Sys2Proof.Machine

/-- `fault` keeps the first sticky error (60_exceptions.md R150 (3)). -/
theorem FaultReg.record_eq (f : FaultReg) (c : Status) : f.record c = if f = .none then c.sticky else f := by
  cases f <;> rfl

/-- The registers an abort writes (60_exceptions.md R150). -/
theorem State.abort_eq (c : Status) (info : ErrorInfo) (s : State) : s.abort c info
    = { s with
        fault := if s.fault = .none then c.sticky else s.fault
        pc := .idle
        responses := s.responses ++ [⟨c, info⟩] } := by
  rw [← FaultReg.record_eq]; rfl

theorem runList_cons_halt {m : MicroOp} {s t : State} (h : runMicro m s = .halt t) (l : List MicroOp) :
    runList (m :: l) s = .halt t := by
  rw [runList_cons, h, Flow.then_halt]

/-- Inside an operation a procedure performs its micro-operations in place (40_init_reset_sync.md R71 (b)). -/
theorem procedure_running {s : State} {op : HostOp} {k sub : Nat} (hp : s.pc = .running op k sub) (c : OpCode)
    (l : List MicroOp) : procedure c l s = .next (runList l s).state := by
  simp only [procedure, hp]

section fails
variable {s : State} {op : HostOp} {k sub : Nat}

/-- A failed pin write: the pin has the old or the new level (60_exceptions.md R151). -/
theorem runMicro_pw_fails (p : Pin) (v : Level) (hc : s.answer.completes = false) (hp : s.pc = .running op k sub)
    (ho : op.streams = false) (hw : inBusyWait op k = false) :
    runMicro (.pw p v) s = .halt ((s.moved 1 [.pinWrite p v false] s.state
        (s.pins.set p (if s.answer.took then v else s.pins.get p))
        (s.lines.set p (if s.answer.took then v else s.lines.get p)) s.pollCnt s.pc).abort .transportFailure
      (.event (.pinWrite p v false) (.running op k (.event sub)))) := by
  have hpos := s.position_event hp (inByteLoop_plain op k ho) hw
  simp only [runMicro, pinWrite_fails p v s hc]
  cases s.answer.took with
  | true =>
    simp only [failEvent, Flow.then_halt, if_true, State.setPin_position, State.drawn_position, hpos]
    simp [State.moved, State.drawn_eq, State.afterAnswers, State.emit, State.setPin]
  | false =>
    simp only [failEvent, Flow.then_halt, Bool.false_eq_true, if_false, State.drawn_position, hpos]
    simp [State.moved, State.drawn_eq, State.afterAnswers, State.emit, Pins.set_get]

/-- An interrupted hold (60_exceptions.md R146). -/
theorem runMicro_dl_interrupted (hc : s.answer.completes = false) (hp : s.pc = .running op k sub)
    (ho : op.streams = false) (hw : inBusyWait op k = false) :
    runMicro .dl s = .halt ((s.moved 1 [.delay s.params.tHoldNs false] s.state s.pins s.lines s.pollCnt s.pc).abort
      .interrupted (.position (.running op k (.event sub)))) := by
  have hpos := s.position_event hp (inByteLoop_plain op k ho) hw
  simp only [runMicro, delayHold_interrupted s hc, Flow.then_halt, hpos]
  simp [State.moved, State.drawn_eq, State.afterAnswers, State.emit]

variable {n : Nat} {tr : List Event} {w : SeqState} {x z : Pins} {polls : Nat}

theorem moved_pw_fails (p : Pin) (v : Level) (hc : (s.answerAt n).completes = false) (ho : op.streams = false)
    (hw : inBusyWait op k = false) :
    runMicro (.pw p v) (s.moved n tr w x z polls (.running op k sub))
      = .halt ((s.moved (n + 1) (tr ++ [.pinWrite p v false]) w
          (x.set p (if (s.answerAt n).took then v else x.get p)) (z.set p (if (s.answerAt n).took then v else z.get p))
          polls (.running op k sub)).abort .transportFailure
        (.event (.pinWrite p v false) (.running op k (.event sub)))) := by
  rw [runMicro_pw_fails p v (by rw [State.answer_moved, hc]) rfl ho hw, State.moved_moved, State.answer_moved]
  rfl

theorem moved_dl_interrupted (hc : (s.answerAt n).completes = false) (ho : op.streams = false)
    (hw : inBusyWait op k = false) :
    runMicro .dl (s.moved n tr w x z polls (.running op k sub))
      = .halt ((s.moved (n + 1) (tr ++ [.delay s.params.tHoldNs false]) w x z polls (.running op k sub)).abort .interrupted
        (.position (.running op k (.event sub)))) := by
  rw [runMicro_dl_interrupted (by rw [State.answer_moved, hc]) rfl ho hw, State.moved_moved]
  rfl

end fails

/-- `hardReset` where it is called. -/
theorem exec_hardReset {s : State} {op : HostOp} {k : Nat} (hp : s.pc = .running op k 0) : exec .opHardReset s
    = .next (runList hardResetOps (s.moved 0 [] s.state s.pins s.lines s.pollCnt (.running op k 0))).state := by
  rw [← moved_zero hp]
  exact procedure_running hp _ _

/-- Settles O28: the interrupted hold aborts, after the events before it. -/
theorem hardResetInterrupted : Obligations.HardResetInterrupted := by
  intro s hp
  rw [exec_hardReset hp, hardResetOps]
  refine ⟨fun h hc => ?_, fun h hc => ?_⟩
  · have hf := h.noFail
    rw [runList_cons_go (moved_pw _ _ hf (by omega) rfl), runList_cons_halt (moved_dl_interrupted hc rfl rfl),
      State.abort_eq]
    rfl
  · have hf := h.noFail
    rw [runList_cons_go (moved_pw _ _ hf (by omega) rfl), runList_cons_go (moved_dl hf (by omega) rfl),
      runList_cons_go (moved_pw _ _ hf (by omega) rfl), runList_cons_halt (moved_dl_interrupted hc rfl rfl),
      State.abort_eq]
    rfl

/-- Settles O58: the failed write aborts, after the events before it. -/
theorem hardResetPinWriteFails : Obligations.HardResetPinWriteFails := by
  intro s hp
  rw [exec_hardReset hp, hardResetOps]
  refine ⟨fun hc => ?_, fun hf hc => ?_⟩
  · rw [runList_cons_halt (moved_pw_fails _ _ hc rfl rfl), State.abort_eq]
    rfl
  · rw [runList_cons_go (moved_pw _ _ hf (by omega) rfl), runList_cons_go (moved_dl hf (by omega) rfl),
      runList_cons_halt (moved_pw_fails _ _ hc rfl rfl), State.abort_eq]
    rfl

end Sys2Proof.Machine
end

section
/-! One turn of `busyWait` (40_init_reset_sync.md R80, R81, 60_exceptions.md R147, R152). -/

namespace Sys2Proof.Machine

section poll
variable {s : State} {op : HostOp} {k sub polls : Nat}

theorem pollBase_eq (hp : s.pc = .running op k sub) (hq : polls = if sub = 0 then 0 else s.pollCnt) :
    pollBase s = { s.afterAnswers 1 with pollCnt := polls } := by
  subst hq
  by_cases hs : sub = 0 <;> simp [pollBase, startWait, State.drawn_eq, State.afterAnswers, hp, hs]

/-- A HIGH read that reaches the timeout (40_init_reset_sync.md R81): it is counted, and the position has that count. -/
theorem runMicro_bw_times_out (hp : s.pc = .running op k sub) (hw : inBusyWait op k = true)
    (hq : polls = if sub = 0 then 0 else s.pollCnt) (hc : s.answer.completes = true) (hb : s.answer.busy = .high) {n : Nat}
    (hn : s.params.busyTimeoutPolls = some n) (ht : n ≤ polls + 1) :
    runMicro .bw s = .halt ((s.polled polls s.pc).abort .busyTimeout
      (.position (.running op k (.polls (polls + 1))))) := by
  have hbase := pollBase_eq hp hq
  have hout : timedOut s.params.busyTimeoutPolls ((pollBase s).pollCnt + 1) = true := by
    rw [hn, hbase]; exact decide_eq_true ht
  have hpos : (pollBase s).countPoll.position = .running op k (.polls (polls + 1)) := by
    rw [State.position_wait (n := sub) _ (by simpa using hp) hw, hbase]; rfl
  simp only [runMicro, busyPoll_high_times_out s hc hb hout, Flow.then_halt, hpos]
  rw [hbase]
  rfl

/-- A failed read is not counted (60_exceptions.md R152). -/
theorem runMicro_bw_fails (hp : s.pc = .running op k sub) (hw : inBusyWait op k = true)
    (hq : polls = if sub = 0 then 0 else s.pollCnt) (hc : s.answer.completes = false) :
    runMicro .bw s = .halt ((s.moved 1 [.busyRead none] s.state s.pins s.lines polls s.pc).abort .transportFailure
      (.event (.busyRead none) (.running op k (.polls polls)))) := by
  have hbase := pollBase_eq hp hq
  have hpos : (pollBase s).position = .running op k (.polls polls) := by
    rw [State.position_wait (n := sub) _ (by simpa using hp) hw, hbase]
  simp only [runMicro, busyPoll_fails s hc, failEvent, Flow.then_halt, hpos]
  rw [hbase]
  rfl

end poll

theorem exec_busyWait {s : State} {op : HostOp} {k sub : Nat} (hp : s.pc = .running op k sub) :
    exec .opBusyWait s = .next (runMicro .bw s).state := by
  rw [← runList_single]
  exact procedure_running hp _ _

/-- Settles O30: the four outcomes of a read, each a lemma about `BW`. -/
theorem busyWaitPolls : Obligations.BusyWaitPolls := by
  intro s op k sub polls hp hm hq
  have hw := inBusyWait_of_bw hm
  rw [exec_busyWait hp, State.answerAt_zero]
  refine ⟨fun hc hb => ?_, fun hc hb ht => ?_, fun n hc hb hn ht => ?_, fun hc => ?_⟩
  · rw [runMicro_bw_waited hp hm hq hc hb]
    rfl
  · rw [runMicro_bw_stays hp hq hc hb ht]
    rfl
  · rw [runMicro_bw_times_out hp hw hq hc hb hn ht, State.abort_eq]
    rfl
  · rw [runMicro_bw_fails hp hw hq hc, State.abort_eq]
    rfl

end Sys2Proof.Machine
end

section
/-! `hardReset`, `softReset` and `initOp` when no event fails (40_init_reset_sync.md R73, R74, R76, R78). -/

namespace Sys2Proof.Machine

section smooth
variable {s : State} {op : HostOp} {k sub N n : Nat} {tr : List Event} {w : SeqState} {x z : Pins} {polls : Nat}

/-- A busy-wait whose first read is LOW. -/
theorem moved_bw_smooth (h : s.smooth N) (hn : n + 1 ≤ N) (ho : op.streams = false) :
    runMicro .bw (s.moved n tr w x z polls (.running op k 0))
      = .go (s.moved (n + 1) (tr ++ waitEvents 0) w x z 0 (.running op (k + 1) 0)) :=
  moved_bw h.noFail hn (h n hn).2 ho

/-- A complete `hardReset` on the way (40_init_reset_sync.md R76). -/
theorem moved_hardReset (h : s.smooth N) (hn : n + 5 ≤ N) (ho : op.streams = false) :
    runList hardResetOps (s.moved n tr w x z polls (.running op k sub))
      = .go (s.moved (n + 5) (tr ++ (resetPulse s.params.tHoldNs ++ waitEvents 0)) w (x.set .rst .high)
          (z.set .rst .high) 0 (.running op (k + 5) 0)) := by
  have hf := h.noFail
  rw [hardResetOps, runList_cons_go (moved_pw _ _ hf (by omega) ho), runList_cons_go (moved_dl hf (by omega) ho),
    runList_cons_go (moved_pw _ _ hf (by omega) ho), runList_cons_go (moved_dl hf (by omega) ho),
    runList_cons_go (moved_bw_smooth h (by omega) ho)]
  simp [resetPulse]

/-- A complete `softReset` on the way (40_init_reset_sync.md R78). -/
theorem moved_softReset (h : s.smooth N) (hn : n + 3 ≤ N) (ho : op.streams = false) :
    runList (softResetOps s.params) (s.moved n tr w x z polls (.running op k 0))
      = .go (s.moved (n + 3) (tr ++ (commandEvents s.params.opcodes.softReset [] ++ waitEvents 0)) w (x.set .dc .low)
          (z.set .dc .low) 0 (.running op (k + 2) 0)) := by
  have hops : softResetOps s.params = [.sc s.params.opcodes.softReset, .bw] := rfl
  rw [hops, runList_cons_go (moved_sc _ h.noFail (by omega) ho), runList_cons_go (moved_bw_smooth h (by omega) ho)]
  simp [commandEvents]

/-- From row 9 of `initOp`: the configuration commands, a wait, and the end (40_init_reset_sync.md R73). -/
theorem moved_rowsFrom9 (h : s.smooth N) (hn : n + 35 ≤ N) :
    runList (rowsFrom9 s.params) (s.moved n tr w x z polls (.running .initOp 9 0))
      = .go (s.moved (n + 35) (tr ++ (configurationEvents s.params ++ waitEvents 0)) .idle (x.set .dc .high)
          (z.set .dc .high) 0 (.running .initOp 30 0)) := by
  have hframes := moved_frames (op := .initOp) (k := 10) (n := n) (tr := tr) (w := .reset) (x := x) (z := z)
    (polls := polls) (configurationFrames s.params) h.noFail (by simp [configurationFrames]; omega) rfl
  rw [rowsFrom9, runList_cons_go (moved_st _ rfl), runList_append_go hframes, configurationFrames_events, rowsFrom27,
    runList_cons_go (moved_bw_smooth h (by simp [configurationFrames]; omega) rfl), rowsFrom28,
    runList_cons_go (moved_st _ rfl), runList_cons_go (moved_st _ rfl), List.append_assoc]
  rfl

/-- The list of `initOp` when no event fails and every busy read is LOW (40_init_reset_sync.md R73). -/
theorem runList_initOps_smooth (h : s.smooth 44) (hp : s.pc = .running .initOp 0 0) : runList (initOps s.params) s
    = .go (s.moved 44 (initializeEvents s.params 0 0 0) .idle ⟨.high, .high, .high⟩ ⟨.high, .high, .high⟩ 0
        (.running .initOp 30 0)) := by
  have hrows : initOps s.params = .pw .pwr .high :: .st .powered
      :: (hardResetOps ++ (softResetOps s.params ++ rowsFrom9 s.params)) := rfl
  rw [hrows]
  conv_lhs => arg 2; rw [moved_zero hp]
  rw [runList_cons_go (moved_pw _ _ h.noFail (by omega) rfl), runList_cons_go (moved_st _ rfl),
    runList_append_go (moved_hardReset h (by omega) rfl), runList_append_go (moved_softReset h (by omega) rfl),
    moved_rowsFrom9 h (by omega)]
  simp [initializeEvents]

end smooth

/-- Settles O27: a complete `hardReset` from index 2. -/
theorem hardResetCompletes : Obligations.HardResetCompletes := by
  intro s hp h
  rw [exec_hardReset hp, moved_hardReset h (by omega) rfl, List.append_assoc]
  rfl

/-- Settles O29: a complete `softReset` from index 7. -/
theorem softResetCompletes : Obligations.SoftResetCompletes := by
  intro s hp h
  have hexec : exec .opSoftReset s
      = .next (runList (softResetOps s.params) (s.moved 0 [] s.state s.pins s.lines s.pollCnt s.pc)).state := by
    rw [hp, ← moved_zero hp]
    exact procedure_running hp _ _
  rw [hexec, hp, moved_softReset h (by omega) rfl, List.append_assoc]
  rfl

/-- An accepted request runs the list of its operation (40_init_reset_sync.md R72). -/
theorem exec_accepted {i : Instr} {s : State} {op : HostOp} {b : Buffer} (hi : hostOpOf s i = some (op, b))
    (hp : s.pc = .idle) (hv : paramsValid s.params = true) (ha : accepted op s.state s.fault = true)
    (ho : ¬ (op = .powerOffOp ∧ s.state = .poweredOff)) :
    exec i s = .next (runToEnd (program s.params op) (startOp op b s)).state := by
  rw [exec_eq_hostOperation hi]
  simp only [hostOperation, hp, hv, requestOp, ha, ho, if_true, if_false]

/-- Settles O16: the request is accepted, and its list completes. -/
theorem initializeCompletes : Obligations.InitializeCompletes := by
  intro s hp hv hs hf h
  have hlist : runList (program s.params .initOp) (startOp .initOp [] s) = _ :=
    runList_initOps_smooth (s := startOp .initOp [] s) h rfl
  have hacc : accepted .initOp s.state s.fault = true := by rw [hs, hf]; rfl
  rw [exec_accepted (op := .initOp) rfl hp hv hacc (by simp), runToEnd, hlist]
  simp only [startOp, State.moved, State.respond, State.afterAnswers, Flow.then_go, Flow.state_halt, hp]
  rfl

/-- Settles O54: the run of an accepted request, whatever its HIGH polls. -/
theorem initializeEndsWhenBusyFalls : Obligations.InitializeEndsWhenBusyFalls :=
  fun _ _ _ _ _ _ hp hh hrest hv hs hf hi => run_init hp hh hrest hv hs hf hi

/-- Settles O17: the run performs the events of R73, whose frames are those of the seven commands. -/
theorem initializeFrames : Obligations.InitializeFrames := by
  intro a b c s rest hp hh hrest hv hs hf hi
  obtain ⟨n, -, hrun⟩ := run_init hp hh hrest hv hs hf hi
  refine ⟨n, _, initializeEvents s.params a b c, hrun, hp, rfl, rfl, ?_⟩
  rw [framesOf_initializeEvents]
  refine ⟨rfl, ?_, ?_⟩ <;> simp [initCommands, argumentBytes, commandFrames]

end Sys2Proof.Machine
end

section
/-! A bitmap byte of the byte loop, and a complete `show` or `clearDisplay` (41_frame.md R90 to R95). -/

namespace Sys2Proof.Machine

/-! ### A bitmap byte -/

/-- What a data frame leaves whose two events complete, before the position advances (43_primitives.md R111). -/
def State.byteSent (s : State) (op : HostOp) (k : Nat) (b : Byte) : State :=
  { s.afterAnswers 2 with
    pins := { s.pins with dc := .high }
    lines := { s.lines with dc := .high }
    pc := .running op k 1
    trace := s.trace ++ frameEvents .high b }

theorem exec_data_noFail {s : State} {op : HostOp} {k : Nat} (b : Byte) (hp : s.pc = .running op k 0) (h : s.noFail 2) :
    exec (.data b) s = .next (s.byteSent op k b).advance := by
  have hexec : exec (.data b) s = .next (runMicro (.sd b) s).state := rfl
  have hsub : s.pc.sub = 0 := by rw [hp]; rfl
  rw [hexec, runMicro, sendData, sendFrame_noFail .high b s h hsub, hp]
  rfl

/-- Settles O37: the position advances after a byte to the next index, or after the last one to the next row. -/
theorem byteLoopAdvances : Obligations.ByteLoopAdvances := by
  intro s op k b ho hk hp h
  have hstreams : op.streams = true := by rcases ho with rfl | rfl <;> rfl
  have hloop : inByteLoop op k = true := by rcases hk with rfl | rfl <;> simp [inByteLoop, hstreams]
  have hnext := fun hlt => (s.byteSent op k b).advance_byte (sub := 1) rfl hloop hlt
  have hlast := fun hle => (s.byteSent op k b).advance_last (sub := 1) rfl hloop hle
  rw [exec_data_noFail b hp h.noFail]
  refine ⟨s.position_byte hp hloop, fun hlt => ⟨_, rfl, ?_, ?_⟩, fun hend hrow => ?_, fun hend hrow => ?_⟩
  · rw [hnext hlt]
    exact State.position_byte _ rfl hloop
  · rw [hnext hlt, ← hp]
    rfl
  · subst hrow
    rw [hlast hend.ge, ← hend]
    simp [State.enter, State.byteSent, frameEvents, hstreams, inByteLoop]
  · subst hrow
    rw [hlast hend.ge, ← hend]
    simp [State.enter, State.byteSent, frameEvents, inByteLoop]

/-! ### The rows of `show` -/

/-- The last two rows of `show`: the closing busy-wait, and IDLE. -/
def closingRows : List MicroOp := [.bw, .st .idle]

/-- Both operations that stream have the list of `show` (41_frame.md R94). -/
theorem program_of_streams {op : HostOp} (ho : op.streams = true) (p : Params) : program p op = showOps p := by
  cases op with
  | showOp | clearOp => rfl
  | _ => cases ho

theorem closing_bw {op : HostOp} (ho : op.streams = true) (p : Params) : (program p op)[7]? = some .bw := by
  rw [program_of_streams ho]; rfl

/-! ### A complete `show` -/

/-- The premises of a complete `show` or `clearDisplay` on the registers and the buffer (41_frame.md R90, R91). -/
structure FrameReady (s : State) (b : Buffer) (primary accent : List Byte) : Prop where
  pc : s.pc = .idle
  valid : paramsValid s.params = true
  state : s.state = .idle ∨ s.state = .configured
  fault : s.fault = .none
  findPrimary : bufFind .primary b = some primary
  lengthPrimary : primary.length = planeBytes s.params.geometry
  findAccent : bufFind .accent b = some accent
  lengthAccent : accent.length = planeBytes s.params.geometry

/-- They do not speak of the host's actions. -/
theorem FrameReady.withHost {s : State} {b : Buffer} {primary accent : List Byte} (h : FrameReady s b primary accent)
    (rest : List HostAction) : FrameReady { s with host := rest } b primary accent :=
  ⟨h.pc, h.valid, h.state, h.fault, h.findPrimary, h.lengthPrimary, h.findAccent, h.lengthAccent⟩

/-- What the frames of a `show` requested in `s` leave, rows 0 to 6 (41_frame.md R92). -/
def State.framed (s : State) (op : HostOp) (primary accent : List Byte) : State :=
  { s.afterAnswers (4 * planeBytes s.params.geometry + 6) with
    state := .busy
    pins := { s.pins with dc := .low }
    lines := { s.lines with dc := .low }
    pc := .running op 7 0
    planeIdx := 1
    byteIdx := planeBytes s.params.geometry
    operand := [(.primary, primary), (.accent, accent)]
    trace := s.trace ++ (commandEvents s.params.opcodes.selectPrimary primary
      ++ commandEvents s.params.opcodes.selectAccent accent ++ commandEvents s.params.opcodes.refresh []) }

/-- What a complete `show` requested in `s` leaves, whose closing wait reads HIGH `n` times (41_frame.md R90, R92). -/
def State.shown (s : State) (primary accent : List Byte) (n : Nat) : State :=
  { s.afterAnswers (4 * planeBytes s.params.geometry + 7 + n) with
    state := .idle
    pins := { s.pins with dc := .low }
    lines := { s.lines with dc := .low }
    pc := .idle
    planeIdx := 1
    byteIdx := planeBytes s.params.geometry
    pollCnt := n
    operand := [(.primary, primary), (.accent, accent)]
    responses := s.responses ++ [⟨.ok, .none⟩]
    trace := s.trace ++ showEvents s.params primary accent n }

section closing
variable {s : State} {op : HostOp} {primary accent : List Byte}

/-- The frames of a complete `show` complete. -/
theorem State.shows.frames_noFail {n : Nat} (hs : s.shows n) : s.noFail (4 * planeBytes s.params.geometry + 6) :=
  hs.1.mono (by omega)

theorem State.answerAt_framed (i : Nat) : (s.framed op primary accent).answerAt i
    = s.answerAt (4 * planeBytes s.params.geometry + 6 + i) := State.answerAt_after _ i s

theorem State.answer_framed : (s.framed op primary accent).answer
    = s.answerAt (4 * planeBytes s.params.geometry + 6) := by
  rw [← State.answerAt_zero, State.answerAt_framed, Nat.add_zero]

/-- The last row: `state <- IDLE`, and the response OK. -/
theorem runToEnd_ready {u : State} {sub : Nat} (hp : u.pc = .running op 8 sub) : (runToEnd [.st .idle] u).state
    = { u with state := .idle, pc := .idle, responses := u.responses ++ [⟨.ok, .none⟩] } := by
  have hrow : runMicro (.st .idle) u = .go (State.enter op 9 (u.setState .idle)) := by
    rw [← State.advance_next (u.setState .idle) (sub := sub) hp (by simp [inByteLoop])]
    rfl
  rw [runToEnd_cons_go hrow]
  simp [runToEnd, State.respond, State.enter, State.setState, inByteLoop]

/-- After the frames, `n` HIGH polls and a LOW one, the last row completes the `show`. -/
theorem runToEnd_ready_framed (n : Nat) :
    (runToEnd [.st .idle] ((s.framed op primary accent).waited n 0 (.running op 8 0))).state = s.shown primary accent n := by
  have hcount : 4 * planeBytes s.params.geometry + 7 + n = 4 * planeBytes s.params.geometry + 6 + (n + 1) := by omega
  rw [runToEnd_ready rfl, State.shown, hcount, ← State.afterAnswers_add]
  simp [State.waited, State.framed, State.afterAnswers, showEvents]

/-- When the first read is HIGH the request stops there. -/
theorem runToEnd_closing_high {n : Nat} (hs : s.shows (n + 1)) :
    (runToEnd closingRows (s.framed op primary accent)).state = (runMicro .bw (s.framed op primary accent)).state := by
  obtain ⟨hf, ⟨hhigh, -⟩, ht⟩ := hs
  have hstays := runMicro_bw_stays (s := s.framed op primary accent) (polls := 0) rfl rfl
    (by rw [State.answer_framed]; exact hf _ (by omega)) (by rw [State.answer_framed]; exact hhigh 0 (Nat.succ_pos n))
    (fun m hm => Nat.lt_of_le_of_lt (by omega) (ht m hm))
  rw [closingRows, runToEnd, runList_cons_halt hstays, hstays]
  rfl

variable (ho : op.streams = true)
include ho

/-- The closing rows when the first read is LOW. -/
theorem runToEnd_closing_low (hc : (s.answerAt (4 * planeBytes s.params.geometry + 6)).completes = true)
    (hb : (s.answerAt (4 * planeBytes s.params.geometry + 6)).busy = .low) :
    (runToEnd closingRows (s.framed op primary accent)).state = s.shown primary accent 0 := by
  have hwait := runMicro_bw_waited (s := s.framed op primary accent) (polls := 0) rfl (closing_bw ho _) rfl
    (by rw [State.answer_framed, hc]) (by rw [State.answer_framed, hb])
  rw [closingRows, runToEnd_cons_go hwait, runToEnd_ready_framed]

/-- The closing busy-wait, one step a poll. -/
theorem run_framed_wait {n : Nat} (hr : s.noReset = true) (hs : s.shows n) :
    Host.Core.run core (n + 1) (s.framed op primary accent)
      = .next ((s.framed op primary accent).waited n 0 (.running op 8 0)) := by
  obtain ⟨hf, ⟨hhigh, hlow⟩, ht⟩ := hs
  refine run_wait n rfl (closing_bw ho s.params) hr rfl (fun i hi => ?_) ⟨fun j hj => ?_, ?_⟩ (fun m hm => ?_)
  · rw [State.answerAt_framed]; exact hf _ (by omega)
  · rw [State.answerAt_framed, Nat.zero_add]; exact hhigh j hj
  · rw [State.answerAt_framed, Nat.zero_add]; exact hlow
  · rw [Nat.zero_add]; exact ht m hm

/-- After the busy-wait the last row is a step of its own. -/
theorem step_framed_waited (n : Nat) (hr : s.noReset = true) :
    step ((s.framed op primary accent).waited n 0 (.running op 8 0)) = .next (s.shown primary accent n) := by
  have hrow : (program s.params op).drop 8 = [.st .idle] := by rw [program_of_streams ho]; rfl
  have hlast : (program s.params op)[8]? = some (.st .idle) := by rw [program_of_streams ho]; rfl
  have hstep := step_st (s := (s.framed op primary accent).waited n 0 (.running op 8 0)) (k := 8) rfl hlast hr
    (by simp [operandReady])
  rw [← runToEnd_ready_framed, ← hrow]
  exact hstep

/-- The closing rows when the first read is HIGH: after the step of the request one step a poll, and one for the last
row. -/
theorem run_closing_busy {n : Nat} (hr : s.noReset = true) (hs : s.shows (n + 1)) :
    Host.Core.run core (n + 2) (runToEnd closingRows (s.framed op primary accent)).state
      = .next (s.shown primary accent (n + 1)) := by
  have hfirst := step_bw (s := s.framed op primary accent) rfl (closing_bw ho s.params) hr rfl
  have hpolls := (run_succ hfirst (n + 1)).symm.trans (run_framed_wait ho hr hs)
  rw [runToEnd_closing_high hs, run_add hpolls 1, run_succ (step_framed_waited ho (n + 1) hr)]
  rfl

end closing

section ready
variable {s : State} {op : HostOp} {b : Buffer} {primary accent : List Byte}

theorem FrameReady.accepted (h : FrameReady s b primary accent) (ho : op.streams = true) :
    accepted op s.state s.fault = true := by
  rw [h.fault]
  cases op with
  | showOp | clearOp => rcases h.state with hs | hs <;> rw [hs] <;> rfl
  | _ => cases ho

/-- A request that is ready streams its frames and goes on with the closing rows, all in one step. -/
theorem FrameReady.exec_eq (h : FrameReady s b primary accent) (ho : op.streams = true) {i : Instr}
    (hi : hostOpOf s i = some (op, b)) (hn : s.noFail (4 * planeBytes s.params.geometry + 6)) :
    exec i s = .next (runToEnd closingRows (s.framed op primary accent)).state := by
  have hsnapshot : Memory.snapshot b = [(.primary, primary), (.accent, accent)] := by
    simp [Memory.snapshot_eq, h.findPrimary, h.findAccent]
  have hstreamed : startOp op b s
      = { s with pc := .running op 0 0, operand := [(.primary, primary), (.accent, accent)] } := by
    rw [startOp, ho, if_pos rfl, hsnapshot]
  have hplane : ∀ p ∈ planeOrder, bufFind p (startOp op b s).operand = bufFind p b := fun p hp => by
    rw [startOp_operand, ho, if_pos rfl, bufFind_snapshot p b hp]
  have hframes := runList_show_frames (s := startOp op b s) ho rfl (planeBytes_pos h.valid)
    ((hplane .primary (by decide)).trans h.findPrimary) h.lengthPrimary ((hplane .accent (by decide)).trans h.findAccent)
    h.lengthAccent hn closingRows
  rw [exec_accepted hi h.pc h.valid (h.accepted ho) (fun hoff => by rw [hoff.1] at ho; cases ho), program_of_streams ho,
    runToEnd]
  refine congrArg (fun f : Flow => Host.Outcome.next (f.then _).state) (hframes.trans ?_)
  rw [hstreamed]
  rfl

/-- A complete `show` whose first busy read is LOW is one step. -/
theorem FrameReady.exec_completes (h : FrameReady s b primary accent) (ho : op.streams = true) {i : Instr}
    (hi : hostOpOf s i = some (op, b)) (hn : s.noFail (4 * planeBytes s.params.geometry + 7))
    (hb : (s.answerAt (4 * planeBytes s.params.geometry + 6)).busy = .low) :
    exec i s = .next (s.shown primary accent 0) := by
  rw [h.exec_eq ho hi (hn.mono (by omega)), runToEnd_closing_low ho (hn _ (by omega)) hb]

end ready

/-- Settles O19: a request whose busy-wait reads LOW at once. -/
theorem showCompletes : Obligations.ShowCompletes := by
  intro s b primary accent hp hv hs hf hb1 hl1 hb2 hl2 h
  rw [FrameReady.exec_completes ⟨hp, hv, hs, hf, hb1, hl1, hb2, hl2⟩ (op := .showOp) rfl rfl h.noFail (h _ (by omega)).2,
    State.shown, ← hp]
  rfl

/-- Settles O21: the same with the two planes of BLANK. -/
theorem clearDisplayCompletes : Obligations.ClearDisplayCompletes := by
  intro s hp hv hs hf h
  have hready : FrameReady s (blank s.params.geometry) _ _ :=
    ⟨hp, hv, hs, hf, bufFind_blank_primary _, List.length_replicate, bufFind_blank_accent _, List.length_replicate⟩
  rw [hready.exec_completes (op := .clearOp) rfl rfl h.noFail (h _ (by omega)).2, State.shown, ← hp]
  rfl

/-! ### The run of a requested `show` -/

section run
variable {s : State} {b : Buffer} {rest : List HostAction} {primary accent : List Byte}

theorem step_request_show (hp : s.pc = .idle) (hh : s.host = .request 4#4 (.buffer b) :: rest) :
    step s = exec (.opShow b) { s with host := rest } := step_request hp hh

/-- THE RUN OF A `show` whose chip is busy for `n + 1` polls: the step of the request, `n` more HIGH polls and a LOW one, and
the last row. -/
theorem run_show_busy {n : Nat} (h : FrameReady s b primary accent)
    (hh : s.host = .request 4#4 (.buffer b) :: rest) (hrest : rest.head? ≠ some .blockReset) (hs : s.shows (n + 1)) :
    Host.Core.run core (n + 3) s = .next ({ s with host := rest }.shown primary accent (n + 1)) := by
  have hexec : exec (.opShow b) { s with host := rest } = _ :=
    (h.withHost rest).exec_eq (op := .showOp) rfl rfl hs.frames_noFail
  rw [run_succ ((step_request_show h.pc hh).trans hexec)]
  exact run_closing_busy (s := { s with host := rest }) rfl (noReset_of_head hrest) hs

/-- A requested `show` ends, whatever number of HIGH polls its busy-wait sees below the timeout. -/
theorem run_show {n : Nat} (h : FrameReady s b primary accent)
    (hh : s.host = .request 4#4 (.buffer b) :: rest) (hrest : rest.head? ≠ some .blockReset) (hs : s.shows n) :
    ∃ k, Host.Core.run core k s = .next ({ s with host := rest }.shown primary accent n) := by
  cases n with
  | zero =>
    obtain ⟨hf, ⟨-, hlow⟩, -⟩ := hs
    have hexec : exec (.opShow b) { s with host := rest } = _ :=
      (h.withHost rest).exec_completes (op := .showOp) rfl rfl hf hlow
    exact ⟨1, run_succ ((step_request_show h.pc hh).trans hexec) 0⟩
  | succ n => exact ⟨n + 3, run_show_busy h hh hrest hs⟩

end run

/-- Settles O32: the run of `n + 3` steps of a `show` without a timeout. -/
theorem showEndsWhenBusyFalls : Obligations.ShowEndsWhenBusyFalls := by
  intro n s b rest primary accent hp hh hrest hv ht hs hf hb1 hl1 hb2 hl2 hc hhigh hlow
  have hshows : s.shows (n + 1) := by
    refine ⟨fun i hi => hc i (by omega), ⟨hhigh, ?_⟩, fun m hm => ?_⟩
    · rw [← hlow]; congr 2; omega
    · rw [ht] at hm; cases hm
  exact ⟨_, run_show_busy ⟨hp, hv, hs, hf, hb1, hl1, hb2, hl2⟩ hh hrest hshows, rfl, rfl, hf, rfl, rfl, rfl, rfl⟩

/-! ### The wire view of a complete `show` -/

theorem framesOf_showEvents (p : Params) (primary accent : List Byte) (n : Nat) (x : Pins) :
    framesOf (wireView x [] (showEvents p primary accent n)) = commandFrames p.opcodes.selectPrimary primary
      ++ commandFrames p.opcodes.selectAccent accent ++ commandFrames p.opcodes.refresh [] := by
  rw [← List.append_nil (showEvents p primary accent n)]
  simp only [showEvents, List.append_assoc]
  rw [framesOf_commandEvents, framesOf_commandEvents, framesOf_commandEvents, framesOf_waitEvents]
  simp [wireView, framesOf]

theorem length_commandEvents (o : Byte) (l : List Byte) : (commandEvents o l).length = 2 * (l.length + 1) := by
  simp [commandEvents, frameEvents, List.length_flatMap]
  omega

/-- A command has one frame with DC LOW, its first. -/
theorem commandFrames_filter_low (o : Byte) (l : List Byte) :
    ((commandFrames o l).filter fun f => Frame.dc f == .low) = [mkFrame .low o] := by
  simp [commandFrames, List.filter_map, Function.comp_def]

/-- Settles O20: the run performs the events of R92, whose frames are those of three commands. -/
theorem showFrames : Obligations.ShowFrames := by
  intro n s b rest primary accent hp hh hrest hv hs hf hb1 hl1 hb2 hl2 hshows
  obtain ⟨k, hrun⟩ := run_show ⟨hp, hv, hs, hf, hb1, hl1, hb2, hl2⟩ hh hrest hshows
  refine ⟨k, _, showEvents s.params primary accent n, hrun, rfl, rfl, rfl, ?_⟩
  rw [framesOf_showEvents]
  refine ⟨rfl, ?_, ?_, ?_⟩
  · simp [commandFrames, hl1, hl2]; omega
  · simp [List.filter_append, commandFrames_filter_low]
  · simp [showEvents, length_commandEvents, waitEvents, hl1, hl2]; omega

end Sys2Proof.Machine
end

section
/-! `clearDisplay` and `show` do the same but for the name in positions (41_frame.md R94): the instructions, a step, a run. -/

namespace Sys2Proof.Machine

/-! ### Outcomes up to the name -/

/-- An outcome with the name of `clearDisplay` read as `show` in the state it leaves. -/
def outcomeAsShow : Host.Outcome State Fault Refusal → Host.Outcome State Fault Refusal
  | .next s => .next s.asShow
  | .fault r => .fault r
  | .refused r => .refused r

theorem sameAsShow_iff (x y : Host.Outcome State Fault Refusal) : sameAsShow x y ↔ outcomeAsShow x = outcomeAsShow y := by
  cases x <;> cases y <;> simp [sameAsShow, outcomeAsShow]

@[simp] theorem Pc.asShow_eq_idle (p : Pc) : p.asShow = .idle ↔ p = .idle := by cases p <;> simp

theorem HostOp.asShow_eq_powerOff (op : HostOp) : op.asShow = .powerOffOp ↔ op = .powerOffOp := by cases op <;> decide

theorem accepted_asShow (op : HostOp) (v : SeqState) (f : FaultReg) : accepted op.asShow v f = accepted op v f := by
  cases op <;> rfl

theorem atHardReset_asShow (op : HostOp) (k : Nat) : atHardReset op.asShow k = atHardReset op k := by cases op <;> rfl

theorem operandReady_asShow (op : HostOp) (k : Nat) (s : State) :
    operandReady op.asShow k s.asShow = operandReady op k s := by
  unfold operandReady
  rw [HostOp.asShow_streams, inByteLoop_asShow]
  rfl

theorem State.asShow_noReset (s : State) : s.asShow.noReset = s.noReset := rfl

theorem hostOpOf_asShow (s : State) (i : Instr) : hostOpOf s.asShow i = hostOpOf s i := by cases i <;> rfl

/-! ### Instructions -/

section instr
variable {s : State} {op : HostOp} {b : Buffer} {i : Instr}

theorem asShow_startOp (op : HostOp) (b : Buffer) (s : State) :
    (startOp op b s).asShow = startOp op.asShow b s.asShow := by
  simp [startOp, State.asShow]

/-- A request does the same under either name. -/
theorem asShow_requestOp (op : HostOp) (b : Buffer) (s : State) :
    (requestOp op b s).asShow = requestOp op.asShow b s.asShow := by
  unfold requestOp
  simp only [State.asShow_state, State.asShow_fault, accepted_asShow, HostOp.asShow_eq_powerOff]
  split
  · split
    · exact State.asShow_respond _ s
    · rw [← Flow.asShow_state, asShow_runToEnd, asShow_startOp, State.asShow_params, program_asShow]
  · exact State.asShow_respond _ s

/-- A host operation as a request. -/
theorem asShow_hostOperation_idle (hp : s.pc = .idle) (op : HostOp) (b : Buffer) :
    outcomeAsShow (hostOperation op b s) = hostOperation op.asShow b s.asShow := by
  have hp' : s.asShow.pc = .idle := by rw [State.asShow_pc, hp]; rfl
  simp only [hostOperation, hp, hp', State.asShow_params, ← asShow_requestOp]
  split <;> rfl

/-- A host operation that goes on from its position looks at no buffer but the one it holds. -/
theorem asShow_hostOperation_running {k sub : Nat} (hp : s.pc = .running op k sub) (b b' : Buffer) :
    outcomeAsShow (hostOperation op b s) = hostOperation op.asShow b' s.asShow := by
  have hp' : s.asShow.pc = .running op.asShow k sub := by rw [State.asShow_pc, hp, Pc.asShow_running]
  simp only [hostOperation, hp, hp', State.asShow_params, program_asShow, operandReady_asShow, ← asShow_runToEnd,
    Flow.asShow_state, if_true]
  split
  · split <;> rfl
  · rfl

/-- An instruction that is no host operation does the same under either name: it has no name of its own. -/
theorem asShow_exec_of_not_host (h : hostOpOf s i = none) : outcomeAsShow (exec i s) = exec i s.asShow := by
  have frame : ∀ m, outcomeAsShow (emitFrame m s) = emitFrame m s.asShow := fun m => by
    rw [emitFrame, outcomeAsShow, ← Flow.asShow_state, asShow_runMicro]; rfl
  have illegal : ∀ c, (illegalOperation c s).asShow = illegalOperation c s.asShow := fun c => State.asShow_respond _ s
  have proc : ∀ c l, outcomeAsShow (procedure c l s) = procedure c l s.asShow := fun c l => by
    cases hp : s.pc <;> simp [procedure, hp, outcomeAsShow, illegal, ← asShow_runList, Flow.asShow_state]
  have resv : ∀ c, outcomeAsShow (reservedCode c s) = reservedCode c s.asShow := fun c => by
    cases hp : s.pc <;> simp [reservedCode, hp, outcomeAsShow, illegal]
  cases i with
  | opInitialize | opShow _ | opClearDisplay | opSleep | opPowerOff => cases h
  | opHardReset | opSoftReset | opBusyWait | opSendCommand _ | opSendData _ => exact proc _ _
  | reserved10 | reserved11 | reserved12 | reserved13 | reserved14 | reserved15 => exact resv _
  | _ => exact frame _

theorem asShow_exec_request (hp : s.pc = .idle) (hi : hostOpOf s i = some (op, b)) :
    outcomeAsShow (exec i s) = hostOperation op.asShow b s.asShow := by
  rw [exec_eq_hostOperation hi, asShow_hostOperation_idle hp]

/-- The rest of the running operation. -/
theorem asShow_exec_rest {k sub : Nat} (hp : s.pc = .running op k sub) :
    outcomeAsShow (exec (op.instr s.operand) s) = exec (op.asShow.instr s.operand) s.asShow := by
  obtain ⟨b, hb⟩ := hostOpOf_instr s op s.operand
  obtain ⟨b', hb'⟩ := hostOpOf_instr s.asShow op.asShow s.operand
  rw [exec_eq_hostOperation hb, exec_eq_hostOperation hb', asShow_hostOperation_running hp b b']

/-- At `IDLE_PC` an instruction does the same in two states that are the same but for the name. -/
theorem exec_sameAsShow {t : State} (h : s.asShow = t.asShow) (hs : s.pc = .idle) (ht : t.pc = .idle) (i : Instr) :
    outcomeAsShow (exec i s) = outcomeAsShow (exec i t) := by
  have hhost : hostOpOf s i = hostOpOf t i := by rw [← hostOpOf_asShow, h, hostOpOf_asShow]
  cases hi : hostOpOf s i with
  | none => rw [asShow_exec_of_not_host hi, asShow_exec_of_not_host (hhost ▸ hi), h]
  | some e => rw [asShow_exec_request hs hi, asShow_exec_request ht (hhost ▸ hi), h]

end instr

/-! ### Steps -/

/-- What a step does with what it has fetched in `s`. -/
def Fetched.perform (s : State) : Fetched → Host.Outcome State Fault Refusal
  | .wait => .next s
  | .blockReset rest => .next (State.blockReset { s with host := rest })
  | .instr i t => exec i t
  | .fault r => .fault r
  | .undecodable e => .refused (.undecodable e)

theorem step_eq_perform (s : State) : step s = (fetch s).perform s := by
  unfold step
  cases fetch s <;> rfl

theorem hostOpOf_of_decodeFrame {t : CommandTable} {f : Frame} {i : Instr} (h : decodeFrame t f = .ok i) (s : State) :
    hostOpOf s i = none := by
  have he := encode_of_decodeFrame h
  cases i with
  | opInitialize | opShow _ | opClearDisplay | opSleep | opPowerOff => cases he
  | _ => rfl

theorem asShow_perform_frame (f : Frame) (s : State) :
    outcomeAsShow ((Fetched.ofEncoded (.frame f) s).perform s)
      = (Fetched.ofEncoded (.frame f) s.asShow).perform s.asShow := by
  simp only [Fetched.ofEncoded, decode, State.asShow_params]
  cases hd : decodeFrame s.params.opcodes f with
  | error e => rfl
  | ok i => exact asShow_exec_of_not_host (hostOpOf_of_decodeFrame hd s)

/-- The position is executed the same under either name, row by row. -/
theorem asShow_perform_running {s : State} {op : HostOp} {k sub : Nat} (hp : s.pc = .running op k sub) :
    outcomeAsShow ((fetchRunning op k s).perform s) = (fetchRunning op.asShow k s.asShow).perform s.asShow := by
  have rest := asShow_exec_rest hp
  have frame := fun f => asShow_perform_frame f s
  have hbyte : s.asShow.nextByte? = s.nextByte? := rfl
  simp only [fetchRunning, State.asShow_params, program_asShow, State.asShow_byteIdx, atHardReset_asShow, hbyte,
    State.asShow_operand]
  cases hm : (program s.params op)[k]? with
  | none => rfl
  | some m =>
    cases m with
    | sc o => exact frame _
    | sd b => exact frame _
    | stream =>
      dsimp only
      split
      · cases hb : s.nextByte? with
        | none => rfl
        | some b => exact frame _
      · rfl
    | bw => exact asShow_exec_of_not_host (i := .opBusyWait) rfl
    | pw p v =>
      dsimp only
      split
      · exact asShow_exec_of_not_host (i := .opHardReset) rfl
      · exact rest
    | dl | br | st _ | chk => exact rest

theorem asShow_step_running {s : State} {op : HostOp} {k sub : Nat} (hp : s.pc = .running op k sub)
    (hn : s.noReset = true) : outcomeAsShow (step s) = step s.asShow := by
  have hp' : s.asShow.pc = .running op.asShow k sub := by rw [State.asShow_pc, hp, Pc.asShow_running]
  rw [step_eq_perform, step_eq_perform, fetch_of_noReset hp hn, fetch_of_noReset hp' hn, asShow_perform_running hp]

theorem step_waits {s : State} (hp : s.pc = .idle) (hh : s.host = []) : step s = .next s := by
  have hf : fetch s = .wait := by simp only [fetch, hh, hp]
  rw [step_eq_perform, hf]; rfl

theorem step_blockReset {s : State} {rest : List HostAction} (hh : s.host = .blockReset :: rest) :
    step s = .next (State.blockReset { s with host := rest }) := by
  have hf : fetch s = .blockReset rest := by simp only [fetch, hh]
  rw [step_eq_perform, hf]; rfl

theorem State.asShow_withHost (rest : List HostAction) {s t : State} (h : s.asShow = t.asShow) :
    ({ s with host := rest } : State).asShow = ({ t with host := rest } : State).asShow :=
  congrArg (fun u : State => { u with host := rest }) h

/-- A running operation goes on the same in two states that are the same but for the name. -/
theorem step_sameAsShow_running {s t : State} (h : s.asShow = t.asShow) (hs : s.pc ≠ .idle) (hn : s.noReset = true) :
    outcomeAsShow (step s) = outcomeAsShow (step t) := by
  have hpc : s.pc.asShow = t.pc.asShow := congrArg State.pc h
  have hnt : t.noReset = true := (congrArg State.noReset h).symm.trans hn
  cases hp : s.pc with
  | idle => exact absurd hp hs
  | running op k sub =>
    cases hq : t.pc with
    | idle => simp [hp, hq] at hpc
    | running op' k' sub' => rw [asShow_step_running hp hn, asShow_step_running hq hnt, h]

/-- Settles O56: a block reset, a wait, a request and the position of a running operation, each is the same under either
name. -/
theorem stepRespectsShowName : Obligations.StepRespectsShowName := by
  intro s t h
  rw [sameAsShow_iff]
  have hhost : t.host = s.host := (congrArg State.host h).symm
  have hpc : s.pc.asShow = t.pc.asShow := congrArg State.pc h
  have hidle : s.pc = .idle → t.pc = .idle := fun hs => by rwa [hs, Pc.asShow_idle, eq_comm, Pc.asShow_eq_idle] at hpc
  rcases hh : s.host with _ | ⟨⟨c, o⟩ | _, rest⟩
  case cons.blockReset =>
    rw [step_blockReset hh, step_blockReset (hhost.trans hh), outcomeAsShow, outcomeAsShow, State.asShow_blockReset,
      State.asShow_blockReset, State.asShow_withHost rest h]
  case nil =>
    by_cases hs : s.pc = .idle
    · rw [step_waits hs hh, step_waits (hidle hs) (hhost.trans hh), outcomeAsShow, outcomeAsShow, h]
    · exact step_sameAsShow_running h hs (by rw [State.noReset, hh])
  case cons.request =>
    by_cases hs : s.pc = .idle
    · rw [step_request hs hh, step_request (hidle hs) (hhost.trans hh)]
      exact exec_sameAsShow (State.asShow_withHost rest h) hs (hidle hs) _
    · exact step_sameAsShow_running h hs (by rw [State.noReset, hh])

/-! ### Runs -/

theorem run_succ_sameAsShow {n : Nat} {s t : State} (h : sameAsShow (step s) (step t))
    (hrun : ∀ u v : State, u.asShow = v.asShow → sameAsShow (Host.Core.run core n u) (Host.Core.run core n v)) :
    sameAsShow (Host.Core.run core (n + 1) s) (Host.Core.run core (n + 1) t) := by
  cases hs : step s <;> cases ht : step t <;> rw [hs, ht] at h
  case next.next u v => rw [run_succ hs, run_succ ht]; exact hrun u v h
  case fault.fault r q => rw [run_succ_fault hs, run_succ_fault ht]; exact h
  case refused.refused r q => rw [run_succ_refused hs, run_succ_refused ht]; exact h
  all_goals exact h.elim

/-- Two states that are the same but for the name run the same but for the name. -/
theorem run_sameAsShow (n : Nat) (s t : State) (h : s.asShow = t.asShow) :
    sameAsShow (Host.Core.run core n s) (Host.Core.run core n t) := by
  induction n generalizing s t with
  | zero => exact h
  | succ n ih => exact run_succ_sameAsShow (stepRespectsShowName s t h) ih

/-! ### What a request whose checks pass answers -/

/-- `t` has no MissingPlane and no BadPlaneLength among its answers since `s`. -/
def NoCheckAnswer (s t : State) : Prop :=
  ∀ r ∈ t.responses, r ∈ s.responses ∨ (r.status ≠ .missingPlane ∧ r.status ≠ .badPlaneLength)

theorem noCheckAnswer_of_eq {s t : State} (h : t.responses = s.responses) : NoCheckAnswer s t := fun _ hr => .inl (h ▸ hr)

theorem noCheckAnswer_snoc {s t : State} {r : Response} (h : t.responses = s.responses ++ [r])
    (hr : r.status ≠ .missingPlane ∧ r.status ≠ .badPlaneLength) : NoCheckAnswer s t := fun q hq => by
  rw [h, List.mem_append, List.mem_singleton] at hq
  rcases hq with hq | rfl
  · exact .inl hq
  · exact .inr hr

/-- A sticky error is neither of the two. -/
theorem AnswersSticky.noCheckAnswer {s t : State} (h : AnswersSticky s t) : NoCheckAnswer s t := by
  obtain ⟨c, x, hc, -, hr⟩ := h
  exact noCheckAnswer_snoc hr ⟨fun h => hc (congrArg Status.sticky h), fun h => hc (congrArg Status.sticky h)⟩

theorem Quiet.noCheckAnswer {s u t : State} (h : Quiet s u) (k : NoCheckAnswer u t) : NoCheckAnswer s t :=
  fun r hr => h.2 ▸ k r hr

/-- Only the checks answer with one of the two: an event fails with a sticky error, and a wait that goes on answers
nothing. -/
theorem runMicro_noCheckAnswer {m : MicroOp} (hc : m ≠ .chk) (hst : m ≠ .stream) (s : State) :
    (runMicro m s).Ends (Quiet s) (NoCheckAnswer s) := by
  refine ((runMicro_quiet m s).and (runMicro_halts s hst)).mono (fun _ ht => ht.1) fun t ⟨_, ht⟩ => ?_
  cases ht with
  | fails _ _ hf => exact hf.answersSticky.noCheckAnswer
  | rejects hchk => exact absurd hchk hc
  | waits _ hw => exact noCheckAnswer_of_eq (by simp [hw.eq, pollBase])

theorem streamBytes_noCheckAnswer (n : Nat) {s u : State} (h : Quiet s u) :
    (streamBytes n u).Ends (Quiet s) (NoCheckAnswer s) := by
  induction n generalizing u with
  | zero => exact h
  | succ n ih =>
    have hbyte := runMicro_noCheckAnswer (m := .sd u.nextByte) MicroOp.noConfusion MicroOp.noConfusion u
    rw [streamBytes_succ]
    exact (hbyte.mono (fun _ ht => h.trans ht) fun _ ht => h.noCheckAnswer ht).then fun t ht => ih ht

theorem runToEnd_noCheckAnswer {l : List MicroOp} (hl : .chk ∉ l) (s : State) : NoCheckAnswer s (runToEnd l s).state := by
  induction l generalizing s with
  | nil => exact noCheckAnswer_snoc rfl ⟨by decide, by decide⟩
  | cons m l ih =>
    rw [List.mem_cons, not_or] at hl
    have hm : (runMicro m s).Ends (Quiet s) (NoCheckAnswer s) := by
      by_cases hst : m = .stream
      · subst hst; exact streamBytes_noCheckAnswer _ ⟨rfl, rfl⟩
      · exact runMicro_noCheckAnswer (Ne.symm hl.1) hst s
    cases hr : runMicro m s with
    | go t =>
      rw [hr] at hm
      rw [runToEnd_cons_go hr]
      exact Quiet.noCheckAnswer hm (ih hl.2 t)
    | halt t =>
      rw [hr] at hm
      rw [runToEnd, runList_cons_halt hr]
      exact hm

/-- A request whose buffer passes the checks never answers that it does not (41_frame.md R91, R94). -/
theorem requestOp_noCheckAnswer {op : HostOp} {b : Buffer} {s : State} (ho : op.streams = true)
    (hb : checkBuffer s.params.geometry b = none) : NoCheckAnswer s (requestOp op b s) := by
  have hpass : runMicro .chk (startOp op b s) = .go (startOp op b s).advance := by
    simp only [runMicro, startOp_params, startOp_operand, ho, if_true, checkBuffer_snapshot, hb]
  unfold requestOp
  split
  · split
    · exact noCheckAnswer_snoc rfl ⟨by decide, by decide⟩
    · rw [program_of_streams ho, showOps, runToEnd_cons_go hpass]
      refine Quiet.noCheckAnswer (u := (startOp op b s).advance) ⟨by simp, by simp⟩ (runToEnd_noCheckAnswer ?_ _)
      simp
  · exact noCheckAnswer_snoc rfl ⟨by simp, by simp⟩

theorem exec_request {i : Instr} {s : State} {op : HostOp} {b : Buffer} (hi : hostOpOf s i = some (op, b))
    (hp : s.pc = .idle) (hv : paramsValid s.params = true) : exec i s = .next (requestOp op b s) := by
  rw [exec_eq_hostOperation hi]
  simp only [hostOperation, hp, hv, if_true]

theorem checkBuffer_blank (g : Geometry) : checkBuffer g (blank g) = none :=
  (checkBuffer_none g _).mpr ⟨_, _, bufFind_blank_primary g, List.length_replicate, bufFind_blank_accent g,
    List.length_replicate⟩

/-- A request of `clearDisplay` is one of `show` with BLANK, but for the name. -/
theorem exec_clear_eq_show {s : State} (hp : s.pc = .idle) :
    outcomeAsShow (exec .opClearDisplay s) = outcomeAsShow (exec (.opShow (blank s.params.geometry)) s) := by
  rw [asShow_exec_request (op := .clearOp) hp rfl, asShow_exec_request (op := .showOp) hp rfl]
  rfl

/-- Settles O22: both are the same request but for the name, and from there on two runs are the same. -/
theorem clearDisplayIsShowBlank : Obligations.ClearDisplayIsShowBlank := by
  refine ⟨fun s hp hv => ⟨_, _, exec_request rfl hp hv, exec_request rfl hp hv, ?_, ?_⟩, fun n s rest hp => ?_⟩
  · rw [asShow_requestOp, asShow_requestOp]; rfl
  · exact requestOp_noCheckAnswer rfl (checkBuffer_blank _)
  · refine run_succ_sameAsShow ?_ (run_sameAsShow n)
    rw [sameAsShow_iff, step_request (s := { s with host := .request 5#4 .absent :: rest }) hp rfl,
      step_request (s := { s with host := .request 4#4 (.buffer (blank s.params.geometry)) :: rest }) hp rfl]
    exact exec_clear_eq_show (s := { s with host := rest }) hp

end Sys2Proof.Machine
end

section
/-! `sleep` and `powerOff` (42_sleep_power.md R100, R103 to R105): how they complete, and how a `powerOff` stops at an event
that fails. -/

namespace Sys2Proof.Machine

/-- The start of an operation that streams nothing: no event yet, and the position at its first row. -/
theorem startOp_moved (op : HostOp) (b : Buffer) (s : State) (ho : op.streams = false) :
    startOp op b s = s.moved 0 [] s.state s.pins s.lines s.pollCnt (.running op 0 0) := by
  simp [startOp, State.moved, State.afterAnswers, ho]

/-! ### The bus release -/

section release
variable {s : State} {op : HostOp} {k sub : Nat}

/-- A failed bus release: `bus_owned` has the old value or is 0 (60_exceptions.md R151). -/
theorem runMicro_br_fails (hc : s.answer.completes = false) (hp : s.pc = .running op k sub)
    (ho : op.streams = false) (hw : inBusyWait op k = false) :
    runMicro .br s = .halt (State.abort .transportFailure (.event (.busRelease false) (.running op k (.event sub)))
      { s.moved 1 [.busRelease false] s.state s.pins s.lines s.pollCnt s.pc with
        busOwned := if s.answer.took then false else s.busOwned }) := by
  have hpos := s.position_event hp (inByteLoop_plain op k ho) hw
  simp only [runMicro, busRelease_fails s hc]
  cases s.answer.took with
  | true =>
    simp only [failEvent, Flow.then_halt, if_true, State.releaseBus_position, State.drawn_position, hpos]
    simp [State.moved, State.drawn_eq, State.afterAnswers, State.emit, State.releaseBus]
  | false =>
    simp only [failEvent, Flow.then_halt, Bool.false_eq_true, if_false, State.drawn_position, hpos]
    simp [State.moved, State.drawn_eq, State.afterAnswers, State.emit]

variable {N n : Nat} {tr : List Event} {w : SeqState} {x z : Pins} {polls : Nat}

theorem moved_br (h : s.noFail N) (hn : n + 1 ≤ N) (ho : op.streams = false) :
    runMicro .br (s.moved n tr w x z polls (.running op k sub))
      = .go { s.moved (n + 1) (tr ++ [.busRelease true]) w x z polls (.running op (k + 1) 0) with busOwned := false } := by
  rw [runMicro_br_noFail (h.moved hn) rfl ho, State.moved_moved]
  rfl

theorem moved_br_fails (hc : (s.answerAt n).completes = false) (ho : op.streams = false)
    (hw : inBusyWait op k = false) :
    runMicro .br (s.moved n tr w x z polls (.running op k sub))
      = .halt (State.abort .transportFailure (.event (.busRelease false) (.running op k (.event sub)))
          { s.moved (n + 1) (tr ++ [.busRelease false]) w x z polls (.running op k sub) with
            busOwned := if (s.answerAt n).took then false else s.busOwned }) := by
  rw [runMicro_br_fails (by rw [State.answer_moved, hc]) rfl ho hw, State.moved_moved, State.answer_moved]
  rfl

end release

/-! ### `sleep` -/

/-- The list of `sleep` when no event fails (42_sleep_power.md R100). -/
theorem moved_sleepOps {s : State} {x z : Pins} {w : SeqState} {polls : Nat} (h : s.noFail 4) :
    runList (sleepOps s.params) (s.moved 0 [] w x z polls (.running .sleepOp 0 0))
      = .go (s.moved 4 (commandEvents s.params.opcodes.deepSleep [0x01#8]) .sleeping (x.set .dc .high) (z.set .dc .high)
          polls (.running .sleepOp 3 0)) := by
  have hframes := moved_frames (op := .sleepOp) (k := 0) (n := 0) (tr := []) (w := w) (x := x) (z := z) (polls := polls)
    [(.low, s.params.opcodes.deepSleep), (.high, 0x01#8)] h (Nat.le_refl 4) rfl
  rw [sleepOps, commandOps_frames]
  exact (runList_append_go hframes _).trans (runList_cons_go (moved_st .sleeping rfl) [])

/-- Settles O23: the request is accepted, and its list completes. -/
theorem sleepCompletes : Obligations.SleepCompletes := by
  intro s hp hv hs hf h
  have hacc : accepted .sleepOp s.state s.fault = true := by rcases hs with hs | hs <;> rw [hs, hf] <;> rfl
  rw [exec_accepted (op := .sleepOp) rfl hp hv hacc (by simp), startOp_moved _ _ _ rfl, runToEnd, program,
    moved_sleepOps h.noFail]
  simp only [Flow.then_go, Flow.state_halt, State.respond, State.moved, State.afterAnswers, hp]
  rfl

/-! ### `powerOff` -/

/-- In POWERED_OFF a `powerOff` answers at once (42_sleep_power.md R104). -/
theorem exec_powerOff_poweredOff {s : State} (hp : s.pc = .idle) (hv : paramsValid s.params = true)
    (hs : s.state = .poweredOff) :
    exec .opPowerOff s = .next { s with responses := s.responses ++ [⟨.ok, .none⟩] } := by
  have hacc : accepted .powerOffOp s.state s.fault = true := rfl
  rw [exec_request (op := .powerOffOp) rfl hp hv, requestOp, if_pos hacc, if_pos ⟨rfl, hs⟩, State.respond, ← hp]

section powerOff
variable {s : State}

/-- In any other state a `powerOff` runs its list, whatever `fault` holds (42_sleep_power.md R103). -/
theorem exec_powerOff_runs (hp : s.pc = .idle) (hv : paramsValid s.params = true) (hs : s.state ≠ .poweredOff) :
    exec .opPowerOff s = .next (runToEnd powerOffOps
      (s.moved 0 [] s.state s.pins s.lines s.pollCnt (.running .powerOffOp 0 0))).state := by
  rw [exec_accepted (op := .powerOffOp) rfl hp hv rfl fun h => hs h.2, startOp_moved _ _ _ rfl]
  rfl

/-- The list of a `powerOff` stops with an abort, and so does the request (42_sleep_power.md R105 (c)). -/
theorem exec_powerOff_aborts {t : State} {c : Status} {info : ErrorInfo} (hp : s.pc = .idle)
    (hv : paramsValid s.params = true) (hs : s.state ≠ .poweredOff)
    (h : runList powerOffOps (s.moved 0 [] s.state s.pins s.lines s.pollCnt (.running .powerOffOp 0 0))
      = .halt (t.abort c info)) :
    exec .opPowerOff s = .next { t with
      fault := if t.fault = .none then c.sticky else t.fault
      pc := s.pc
      responses := t.responses ++ [⟨c, info⟩] } := by
  rw [exec_powerOff_runs hp hv hs, runToEnd, h, State.abort_eq, hp]
  rfl

/-- The three pin writes of `powerOff` (42_sleep_power.md R103). -/
theorem moved_powerOffPins {x z : Pins} {w : SeqState} {polls : Nat} (h : s.noFail 3) :
    runList powerOffOps (s.moved 0 [] w x z polls (.running .powerOffOp 0 0))
      = runList [.br, .st .poweredOff] (s.moved 3
          [.pinWrite .pwr .low true, .pinWrite .dc .low true, .pinWrite .rst .low true] w ⟨.low, .low, .low⟩
          ⟨.low, .low, .low⟩ polls (.running .powerOffOp 3 0)) := by
  rw [powerOffOps, runList_cons_go (moved_pw _ _ h (by omega) rfl), runList_cons_go (moved_pw _ _ h (by omega) rfl),
    runList_cons_go (moved_pw _ _ h (by omega) rfl)]
  rfl

end powerOff

/-- Settles O24: after the pin writes the release completes, and the last row writes `state`. -/
theorem powerOffCompletes : Obligations.PowerOffCompletes := by
  intro s hp hv hs h
  have hf := h.noFail
  rw [exec_powerOff_runs hp hv hs, runToEnd, moved_powerOffPins (hf.mono (by omega)),
    runList_cons_go (moved_br hf (by omega) rfl), runList_cons_go (runMicro_st_plain .poweredOff rfl rfl), runList_nil]
  simp [State.moved, State.respond, State.afterAnswers, hp]

/-- Settles O25: the second `powerOff` finds POWERED_OFF, where it only answers. -/
theorem powerOffIdempotent : Obligations.PowerOffIdempotent :=
  ⟨fun _ hp hv hs => exec_powerOff_poweredOff hp hv hs, fun s hp hv hs h =>
    ⟨_, _, powerOffCompletes s hp hv hs h, exec_powerOff_poweredOff hp hv rfl, rfl, rfl, rfl, List.append_assoc _ _ _, rfl⟩⟩

/-- Settles O26: after the pin writes the failed release aborts. -/
theorem powerOffReleaseFails : Obligations.PowerOffReleaseFails := by
  intro s hp hv hs h hc
  refine ⟨_, if (s.answerAt 3).took then false else s.busOwned, exec_powerOff_aborts hp hv hs
    ((moved_powerOffPins h.noFail).trans (runList_cons_halt (moved_br_fails hc rfl rfl) _)), ?_, rfl⟩
  cases (s.answerAt 3).took with
  | true => exact .inr rfl
  | false => exact .inl rfl

/-- Settles O57: the failed write aborts, after the writes before it. -/
theorem powerOffPinWriteFails : Obligations.PowerOffPinWriteFails := by
  intro s hp hv hs
  refine ⟨fun hc => ?_, fun hf hc => ?_, fun hf hc => ?_⟩
  · rw [exec_powerOff_aborts hp hv hs (runList_cons_halt (moved_pw_fails .pwr .low hc rfl rfl) _)]
    rfl
  · rw [exec_powerOff_aborts hp hv hs ((runList_cons_go (moved_pw .pwr .low hf (by omega) rfl) _).trans
      (runList_cons_halt (moved_pw_fails .dc .low hc rfl rfl) _))]
    rfl
  · rw [exec_powerOff_aborts hp hv hs ((runList_cons_go (moved_pw .pwr .low hf (by omega) rfl) _).trans
      ((runList_cons_go (moved_pw .dc .low hf (by omega) rfl) _).trans
        (runList_cons_halt (moved_pw_fails .rst .low hc rfl rfl) _)))]
    rfl

end Sys2Proof.Machine
end

section
/-! The two bus primitives and the frames made of them (43_primitives.md R110, R111): they complete, or an event of theirs
fails and aborts the operation (60_exceptions.md R145, R150, R151). -/

namespace Sys2Proof.Machine

section frame
variable {s : State} {op : HostOp} {k : Nat}

/-! ### The two events -/

/-- A pin write that fails, at any position: the pin has the old or the new level (60_exceptions.md R151). -/
theorem pinWrite_aborts (p : Pin) (v : Level) (hc : s.answer.completes = false) : pinWrite p v s
    = .halt ((s.moved 1 [.pinWrite p v false] s.state (s.pins.set p (if s.answer.took then v else s.pins.get p))
        (s.lines.set p (if s.answer.took then v else s.lines.get p)) s.pollCnt s.pc).abort .transportFailure
      (.event (.pinWrite p v false) s.position)) := by
  rw [pinWrite_fails p v s hc]
  cases s.answer.took with
  | true =>
    simp only [failEvent, if_true, State.setPin_position, State.drawn_position]
    rw [State.drawn_eq]
    rfl
  | false =>
    simp only [failEvent, Bool.false_eq_true, if_false, State.drawn_position, Pins.set_get]
    rw [State.drawn_eq]
    rfl

/-- A completed pin write, before the position advances. -/
theorem pinWrite_goes (p : Pin) (v : Level) (hc : s.answer.completes = true) : pinWrite p v s
    = .go (s.moved 1 [.pinWrite p v true] s.state (s.pins.set p v) (s.lines.set p v) s.pollCnt s.pc) := by
  rw [pinWrite_completes p v s hc, State.drawn_eq]
  rfl

theorem busSend_aborts (b : Byte) (hc : s.answer.completes = false) : busSend b s
    = .halt ((s.moved 1 [.busSend b false] s.state s.pins s.lines s.pollCnt s.pc).abort .transportFailure
      (.event (.busSend b false) s.position)) := by
  rw [busSend_fails b s hc, failEvent, State.drawn_position, State.drawn_eq]
  rfl

/-! ### The frame -/

/-- A frame as a micro-operation, `SC` or `SD` by its level of DC: its two events, then the advance. -/
def frameStep (dc : Level) (b : Byte) (s : State) : Flow := (sendFrame dc b s).then fun t => .go t.advance

theorem runMicro_sc (o : Byte) (s : State) : runMicro (.sc o) s = frameStep .low o s := rfl
theorem runMicro_sd (b : Byte) (s : State) : runMicro (.sd b) s = frameStep .high b s := rfl

theorem exec_sendCommand (o : Byte) (hp : s.pc = .running op k 0) :
    exec (.opSendCommand o) s = .next (frameStep .low o s).state := by
  rw [← runMicro_sc, ← runList_single]
  exact procedure_running hp _ _

theorem exec_sendData (b : Byte) (hp : s.pc = .running op k 0) :
    exec (.opSendData b) s = .next (frameStep .high b s).state := by
  rw [← runMicro_sd, ← runList_single]
  exact procedure_running hp _ _

theorem exec_frame {i : Instr} {dc : Level} {b : Byte}
    (hi : (∃ c : ChipCommand, i = c.instr ∧ dc = .low ∧ b = s.params.opcodes.opcode c) ∨ (i = .data b ∧ dc = .high)) :
    exec i s = .next (frameStep dc b s).state := by
  rcases hi with ⟨c, rfl, rfl, rfl⟩ | ⟨rfl, rfl⟩
  · exact exec_command c s
  · rfl

/-- A complete frame. -/
theorem frameStep_noFail (dc : Level) (b : Byte) (hp : s.pc = .running op k 0) (h : s.noFail 2) :
    frameStep dc b s = .go (s.moved 2 (frameEvents dc b) s.state (s.pins.set .dc dc) (s.lines.set .dc dc) s.pollCnt
      (.running op k 1)).advance := by
  have hsub : s.pc.sub = 0 := by rw [hp]; rfl
  rw [frameStep, sendFrame_noFail dc b s h hsub, hp]
  rfl

/-- A failed pin write: the byte is not sent. -/
theorem frameStep_pinWrite_fails (dc : Level) (b : Byte) (hp : s.pc = .running op k 0)
    (hc : (s.answerAt 0).completes = false) : frameStep dc b s
    = .halt ((s.moved 1 [.pinWrite .dc dc false] s.state
        (s.pins.set .dc (if (s.answerAt 0).took then dc else s.pins.dc))
        (s.lines.set .dc (if (s.answerAt 0).took then dc else s.lines.dc)) s.pollCnt s.pc).abort .transportFailure
      (.event (.pinWrite .dc dc false) s.position)) := by
  have hsub : s.pc.sub = 0 := by rw [hp]; rfl
  rw [State.answerAt_zero] at hc ⊢
  rw [frameStep, sendFrame_start dc b s hsub, pinWrite_aborts .dc dc hc]
  rfl

/-- A failed send: DC has been driven, and the position is that of the send. -/
theorem frameStep_send_fails (dc : Level) (b : Byte) (hp : s.pc = .running op k 0)
    (h0 : (s.answerAt 0).completes = true) (h1 : (s.answerAt 1).completes = false) : frameStep dc b s
    = .halt ((s.moved 2 [.pinWrite .dc dc true, .busSend b false] s.state (s.pins.set .dc dc) (s.lines.set .dc dc)
        s.pollCnt (.running op k 1)).abort .transportFailure
      (.event (.busSend b false) (State.position { s with pc := .running op k 1 }))) := by
  have hsub : s.pc.sub = 0 := by rw [hp]; rfl
  rw [State.answerAt_zero] at h0
  have hsend : sendFrame dc b s = busSend b (s.moved 1 [.pinWrite .dc dc true] s.state (s.pins.set .dc dc)
      (s.lines.set .dc dc) s.pollCnt (.running op k 1)) := by
    rw [sendFrame_start dc b s hsub, pinWrite_goes .dc dc h0, hp]
    rfl
  rw [frameStep, hsend, busSend_aborts b (by rw [State.answer_moved, h1]), State.moved_moved]
  rfl

end frame

/-- Settles O33: each procedure is its one frame, which completes. -/
theorem busPrimitivesComplete : Obligations.BusPrimitivesComplete := by
  intro s op k b hp h
  rw [exec_sendCommand b hp, exec_sendData b hp, frameStep_noFail .low b hp h.noFail, frameStep_noFail .high b hp h.noFail]
  exact ⟨rfl, rfl⟩

/-- Settles O38: an instruction that is a frame aborts at the event that fails. -/
theorem failedFramesAbort : Obligations.FailedFramesAbort := by
  intro s op k i dc b hp hi
  rw [exec_frame hi]
  refine ⟨fun hc => ?_, fun h0 h1 => ?_, fun ho hk => ?_⟩
  · rw [frameStep_pinWrite_fails dc b hp hc, Flow.state_halt, State.abort_eq]
    rfl
  · rw [frameStep_send_fails dc b hp h0 h1, Flow.state_halt, State.abort_eq]
    rfl
  · have hloop : inByteLoop op k = true := by rcases ho with rfl | rfl <;> rcases hk with rfl | rfl <;> rfl
    exact ⟨s.position_byte hp hloop, State.position_byte _ rfl hloop⟩

end Sys2Proof.Machine
end

section
/-! The place of one event in the wire view (43_primitives.md R112). -/

namespace Sys2Proof.Machine

/-- What one event adds to the wire view, from levels `x` of the lines. -/
def eventView (x : Pins) (took : Bool) (e : Event) : List WireItem :=
  levelChanges x (x.after took e) ++ frameItem x e

/-- The view of a trace around one of its events. -/
theorem wireView_around (x : Pins) {took : List Bool} {E : List Event} (h : took.length = E.length) (a : Bool)
    (l : List Bool) (e : Event) (F : List Event) :
    wireView x (took ++ a :: l) (E ++ e :: F)
      = wireView x took E
        ++ (eventView (x.afterAll took E) a e ++ wireView ((x.afterAll took E).after a e) l F) :=
  wireView_append x (a :: l) (e :: F) h

/-- An event that changes no level and makes no frame does not show. -/
theorem wireView_skip (x : Pins) {took : List Bool} {E : List Event} (h : took.length = E.length) {a : Bool} (l : List Bool)
    {e : Event} (F : List Event) (ha : (x.afterAll took E).after a e = x.afterAll took E)
    (hf : frameItem (x.afterAll took E) e = []) :
    wireView x (took ++ a :: l) (E ++ e :: F) = wireView x (took ++ l) (E ++ F) := by
  rw [wireView_around x h, wireView_append x l F h, eventView, ha, hf, levelChanges_self]
  rfl

/-- A redundant write, whatever its outcome. -/
theorem Pins.after_redundant (x : Pins) (a : Bool) {p : Pin} {v : Level} (c : Bool) (hv : x.get p = v) :
    x.after a (.pinWrite p v c) = x := by
  rw [Pins.after, ← hv, Pins.set_get, ite_self]

/-- A failed write that took effect shows as the completed one (60_exceptions.md R151). -/
theorem eventView_took (x : Pins) (a : Bool) (p : Pin) (v : Level) :
    eventView x true (.pinWrite p v false) = eventView x a (.pinWrite p v true) := rfl

theorem eventView_pwr (x : Pins) (a : Bool) {v : Level} (hv : x.pwr ≠ v) :
    eventView x a (.pinWrite .pwr v true) = [.power v] := by
  simp [eventView, Pins.after_completed, levelChanges, frameItem, hv.symm]

theorem eventView_rst (x : Pins) (a : Bool) {v : Level} (hv : x.rst ≠ v) :
    eventView x a (.pinWrite .rst v true) = [.reset v] := by
  simp [eventView, Pins.after_completed, levelChanges, frameItem, hv.symm]

theorem eventView_dc (x : Pins) (a : Bool) (v : Level) : eventView x a (.pinWrite .dc v true) = [] := by
  simp [eventView, Pins.after_completed, levelChanges, frameItem]

theorem eventView_send (x : Pins) (a : Bool) (b : Byte) :
    eventView x a (.busSend b true) = [.frame (mkFrame x.dc b)] := by
  simp [eventView, Pins.after, frameItem]

/-- Settles O59: the view of a trace in the three parts around the event, and what that event adds to it. -/
theorem wireViewShowsLevelChanges : Obligations.WireViewShowsLevelChanges := by
  intro x took E F a l h
  refine ⟨fun p v c hv => ?_, fun v hv => ?_, fun v hv => ?_, fun v => ?_, fun b => ?_, fun p v => ⟨?_, ?_⟩,
    fun e he => ?_⟩
  · exact wireView_skip x h l F (Pins.after_redundant _ a c hv) rfl
  · rw [wireView_around x h, eventView_pwr _ a hv]
    rfl
  · rw [wireView_around x h, eventView_rst _ a hv]
    rfl
  · rw [wireView_around x h, eventView_dc]
    rfl
  · rw [wireView_around x h, eventView_send]
    rfl
  · rw [wireView_around x h, wireView_around x h, eventView_took _ a]
    rfl
  · exact wireView_skip x h l F (Pins.after_failed _ p v) rfl
  · rcases he with ⟨v, rfl⟩ | ⟨c, rfl⟩ | ⟨n, c, rfl⟩ | ⟨b, rfl⟩ <;> exact wireView_skip x h l F rfl rfl

end Sys2Proof.Machine
end

section
/-! The chip commands and the data frame as single frames, and a command with its arguments as a run of one step a frame
(44_chip_commands.md R119 to R131). -/

namespace Sys2Proof.Machine

/-- Past the byte loops an operation enters a row by its position alone (10_state.md R18). -/
theorem State.advance_pastLoops (s : State) {op : HostOp} {k sub : Nat} (hp : s.pc = .running op k sub)
    (hk : op.streams = true → 6 ≤ k) : s.advance = { s with pc := .running op (k + 1) 0 } := by
  cases ho : op.streams with
  | false => exact s.advance_plain hp ho
  | true =>
    obtain ⟨n, rfl⟩ := Nat.exists_eq_add_of_le' (hk ho)
    rw [s.advance_next hp (by simp [inByteLoop])]
    simp [State.enter, inByteLoop]

section rows
variable {s : State} {op : HostOp} {k : Nat}

theorem runMicro_frameOp (f : Level × Byte) (s : State) : runMicro (frameOp f) s = frameStep f.1 f.2 s := by
  obtain ⟨dc, b⟩ := f
  cases dc <;> rfl

/-- A complete frame past the byte loops, with the advance to the next row. -/
theorem frameStep_moved (f : Level × Byte) (hp : s.pc = .running op k 0) (hk : op.streams = true → 6 ≤ k)
    (h : s.noFail 2) : frameStep f.1 f.2 s = .go (s.moved 2 (frameEvents f.1 f.2) s.state (s.pins.set .dc f.1)
      (s.lines.set .dc f.1) s.pollCnt (.running op (k + 1) 0)) := by
  rw [frameStep_noFail f.1 f.2 hp h, State.advance_pastLoops (sub := 1) _ rfl hk]
  rfl

/-- The block can send the frame: its byte is a command's opcode where `DC` is LOW (30_encoding.md R59). -/
def FrameKnown (t : CommandTable) (f : Level × Byte) : Prop := f.1 = .low → ∃ c, f.2 = t.opcode c

/-- At a frame's row a step is that frame. -/
theorem step_frameOp {f : Level × Byte} (hp : s.pc = .running op k 0) (hn : s.noReset = true)
    (hd : s.params.opcodes.distinct = true) (hf : FrameKnown s.params.opcodes f)
    (hm : (program s.params op)[k]? = some (frameOp f)) : step s = .next (frameStep f.1 f.2 s).state := by
  rw [← runMicro_frameOp]
  obtain ⟨dc, b⟩ := f
  cases dc with
  | low =>
    obtain ⟨c, rfl⟩ := hf rfl
    exact step_sc hp hm hd hn
  | high =>
    have hfetch : fetchRunning op k s = .instr (.data b) s := by
      rw [fetchRunning, hm]
      exact ofEncoded_data b s
    exact step_of_fetchRunning hp hn hfetch

/-- The rows from `k` on that begin a list: row `k`, and the rest from the next one on. -/
theorem getElem?_and_prefix_of_cons {m : MicroOp} {l rows : List MicroOp} (h : m :: l <+: rows.drop k) :
    rows[k]? = some m ∧ l <+: rows.drop (k + 1) := by
  obtain ⟨rest, hdrop, hrest⟩ := List.cons_prefix_iff.mp h
  rw [← List.head?_drop, ← List.tail_drop, hdrop]
  exact ⟨rfl, hrest⟩

/-- Rows that are frames past the byte loops, one step a row: the run of as many steps performs their events. -/
theorem run_frames (l : List (Level × Byte)) {s : State} {k : Nat} (hp : s.pc = .running op k 0)
    (hk : op.streams = true → 6 ≤ k) (hn : s.noReset = true) (hd : s.params.opcodes.distinct = true)
    (hl : ∀ f ∈ l, FrameKnown s.params.opcodes f) (hrows : l.map frameOp <+: (program s.params op).drop k)
    (h : s.noFail (2 * l.length)) : Host.Core.run core l.length s
      = .next (s.moved (2 * l.length) (l.flatMap fun f => frameEvents f.1 f.2) s.state
        (s.pins.set .dc (dcAfter s.pins.dc l)) (s.lines.set .dc (dcAfter s.lines.dc l)) s.pollCnt
        (.running op (k + l.length) 0)) := by
  induction l generalizing s k with
  | nil => exact congrArg _ (by simp [State.moved, State.afterAnswers, dcAfter, ← hp])
  | cons f l ih =>
    have hlen : 2 + 2 * l.length ≤ 2 * (f :: l).length := by simp only [List.length_cons]; omega
    obtain ⟨hm, hrest⟩ := getElem?_and_prefix_of_cons hrows
    have hstep := step_frameOp hp hn hd (hl f List.mem_cons_self) hm
    rw [frameStep_moved f hp hk (h.mono (by omega))] at hstep
    have hrun := ih (s := s.moved 2 (frameEvents f.1 f.2) s.state (s.pins.set .dc f.1) (s.lines.set .dc f.1) s.pollCnt
      (.running op (k + 1) 0)) rfl (fun ho => (hk ho).trans k.le_succ) hn hd
      (fun g hg => hl g (List.mem_cons_of_mem f hg)) hrest (h.moved hlen)
    have hevents : 2 * (l.length + 1) = 2 + 2 * l.length := by omega
    have hrow : k + (l.length + 1) = k + 1 + l.length := by omega
    rw [List.length_cons, run_succ hstep, Flow.state_go, hrun, State.moved_moved, hevents, hrow]
    rfl

end rows

/-- The bytes of a command with its arguments, as frames (30_encoding.md R55, R56). -/
def commandRows (p : Params) (c : ChipCommand) : List (Level × Byte) :=
  (.low, p.opcodes.opcode c) :: (argumentBytes p.geometry c).map fun b => (.high, b)

theorem commandRows_known (p : Params) (c : ChipCommand) : ∀ f ∈ commandRows p c, FrameKnown p.opcodes f := by
  intro f hf hlow
  rcases List.mem_cons.mp hf with rfl | harg
  · exact ⟨c, rfl⟩
  · obtain ⟨b, -, rfl⟩ := List.mem_map.mp harg
    exact absurd hlow Level.noConfusion

theorem commandRows_events (p : Params) (c : ChipCommand) : ((commandRows p c).flatMap fun f => frameEvents f.1 f.2)
    = commandEvents (p.opcodes.opcode c) (argumentBytes p.geometry c) := by
  simp only [commandRows, commandEvents, List.flatMap_cons, List.flatMap_map]

/-- A command's frames are the rows from where its operation emits it (40_init_reset_sync.md R73, 41_frame.md R92,
42_sleep_power.md R100). -/
theorem commandRows_prefix (p : Params) (c : ChipCommand) :
    (commandRows p c).map frameOp <+: (program p (commandPosition c).1).drop (commandPosition c).2 := by
  rw [commandRows, ← commandOps_frames]
  refine ⟨(program p (commandPosition c).1).drop ((commandPosition c).2 + (commandOps p c).length), ?_⟩
  cases c <;> rfl

/-- The commands that are no plane select: all but those with bitmap bytes (30_encoding.md R56). -/
def selectFree : List ChipCommand :=
  [.softReset, .dataEntryMode, .setXWindow, .setYWindow, .updateControl, .setXCounter, .setYCounter, .refresh, .deepSleep]

theorem selectFree_pastLoops :
    ∀ c ∈ selectFree, (commandPosition c).1.streams = true → 6 ≤ (commandPosition c).2 := by decide

/-- Settles O34: the data frame is one frame, which completes. -/
theorem dataFrameCompletes : Obligations.DataFrameCompletes :=
  fun _ _ _ b hp h => exec_data_noFail b hp h.noFail

/-- Settles O35: each of the eleven is the frame of its own opcode, which completes. -/
theorem chipCommandsComplete : Obligations.ChipCommandsComplete := by
  intro s op k i o hp h hmem
  have hall : (i, o) ∈ ChipCommand.all.map fun c => (c.instr, s.params.opcodes.opcode c) := hmem
  obtain ⟨c, -, ⟨⟩⟩ := List.mem_map.mp hall
  rw [exec_frame (.inl ⟨c, rfl, rfl, rfl⟩), frameStep_noFail .low _ hp h.noFail]
  rfl

/-- Settles O36: the command's frames are rows past the byte loops, one step each. -/
theorem commandsCarryTheirArguments : Obligations.CommandsCarryTheirArguments := by
  intro s c args hp hn hv hmem h
  have hall : (c, args) ∈ selectFree.map fun c => (c, argumentBytes s.params.geometry c) := hmem
  obtain ⟨c, hc, ⟨⟩⟩ := List.mem_map.mp hall
  have hlen : (commandRows s.params c).length = (argumentBytes s.params.geometry c).length + 1 := by simp [commandRows]
  have hrun := run_frames (commandRows s.params c) hp (selectFree_pastLoops c hc) hn (distinct_of_paramsValid hv)
    (commandRows_known s.params c) (commandRows_prefix s.params c) (hlen ▸ h.noFail)
  rw [hlen, commandRows_events] at hrun
  exact ⟨_, hrun, rfl, rfl, rfl, rfl⟩

end Sys2Proof.Machine
end

section
/-! Requests that are rejected with nothing else changed (60_exceptions.md R141 to R144, R152). -/

namespace Sys2Proof.Machine

/-- A procedure's code is no request (30_encoding.md R51, R59). -/
theorem procedure_idle {s : State} (c : OpCode) (l : List MicroOp) (hp : s.pc = .idle) :
    procedure c l s = .next { s with responses := s.responses ++ [⟨.illegalOperation, .code c⟩] } := by
  simp only [procedure, hp, illegalOperation, State.respond]

/-- The codes of the five procedures and the six reserved ones (30_encoding.md R51, R59). -/
theorem code_of_not_hostOperation : ∀ c : OpCode,
    c.toNat ≠ 0 → c.toNat ≠ 4 → c.toNat ≠ 5 → c.toNat ≠ 6 → c.toNat ≠ 7 →
      c ∈ [1#4, 2#4, 3#4, 8#4, 9#4] ∨ c ∈ [10#4, 11#4, 12#4, 13#4, 14#4, 15#4] := by decide

/-- Settles O11: any other code is that of a procedure or a reserved one. -/
theorem procedureAndReservedCodes : Obligations.ProcedureAndReservedCodes := by
  intro s c o hp h0 h4 h5 h6 h7
  have hc := code_of_not_hostOperation c h0 h4 h5 h6 h7
  simp only [List.mem_cons, List.not_mem_nil, or_false] at hc
  rcases hc with (rfl | rfl | rfl | rfl | rfl) | rfl | rfl | rfl | rfl | rfl | rfl
  iterate 5 exact procedure_idle _ _ hp
  all_goals exact reservedCode_idle _ hp

/-- Settles O13: the acceptance condition fails, for whichever of its two tests. -/
theorem rejectedRequests : Obligations.RejectedRequests := by
  intro s b hp hv
  refine ⟨fun h => exec_rejected (op := .initOp) rfl hp hv ?_, fun h => ?_⟩
  · rcases h with hs | hf
    · simp [accepted, hs]
    · exact not_accepted_of_fault _ hf (by decide)
  · have hframe : (s.state.framesAllowed && s.fault == .none) = false := by
      rcases h with ⟨hi, hc⟩ | hf
      · simp [SeqState.framesAllowed, hi, hc]
      · simp [hf]
    exact ⟨exec_rejected (op := .showOp) rfl hp hv hframe, exec_rejected (op := .clearOp) rfl hp hv hframe,
      exec_rejected (op := .sleepOp) rfl hp hv hframe⟩

/-! ### The checks of `show` -/

section checks
variable {g : Geometry} {b : Buffer} {l k : List Byte}

theorem checkBuffer_no_primary (h : bufFind .primary b = none) :
    checkBuffer g b = some ⟨.missingPlane, .plane .primary⟩ := by
  simp [checkBuffer, checkPlanes, planeOrder, bufHas, h]

theorem checkBuffer_primary_length (h : bufFind .primary b = some l) (hl : l.length ≠ planeBytes g) :
    checkBuffer g b = some ⟨.badPlaneLength, .plane .primary⟩ := by
  simp [checkBuffer, checkPlanes, planeOrder, bufHas, bufLen, h, hl]

theorem checkBuffer_no_accent (h : bufFind .primary b = some l) (hl : l.length = planeBytes g)
    (ha : bufFind .accent b = none) : checkBuffer g b = some ⟨.missingPlane, .plane .accent⟩ := by
  simp [checkBuffer, checkPlanes, planeOrder, bufHas, bufLen, h, hl, ha]

theorem checkBuffer_accent_length (h : bufFind .primary b = some l) (hl : l.length = planeBytes g)
    (ha : bufFind .accent b = some k) (hk : k.length ≠ planeBytes g) :
    checkBuffer g b = some ⟨.badPlaneLength, .plane .accent⟩ := by
  simp [checkBuffer, checkPlanes, planeOrder, bufHas, bufLen, h, hl, ha, hk]

end checks

/-- A `show` whose checks fail answers with the failing test and does nothing more (41_frame.md R91). -/
theorem exec_show_rejects {s : State} {b : Buffer} {r : Response} (hp : s.pc = .idle) (hv : paramsValid s.params = true)
    (hs : s.state = .idle ∨ s.state = .configured) (hf : s.fault = .none)
    (hr : checkBuffer s.params.geometry b = some r) :
    exec (.opShow b) s = .next { s with operand := Memory.snapshot b, responses := s.responses ++ [r] } := by
  have hacc : accepted .showOp s.state s.fault = true := by rcases hs with hs | hs <;> rw [hs, hf] <;> rfl
  have hchk : runMicro .chk (startOp .showOp b s) = .halt ((startOp .showOp b s).respond r) := by
    have hsnap : checkBuffer s.params.geometry (startOp .showOp b s).operand = some r :=
      (checkBuffer_snapshot _ b).trans hr
    simp only [runMicro, startOp_params, hsnap]
  rw [exec_accepted (op := .showOp) rfl hp hv hacc (by simp), program, showOps, runToEnd, runList_cons, hchk]
  simp only [Flow.then_halt, Flow.state_halt, State.respond, startOp, HostOp.streams, if_true, hp]

/-- Settles O15: each clause says which test is the first to fail. -/
theorem badBuffersRejected : Obligations.BadBuffersRejected := by
  intro s b hp hv hs hf
  have rejects : ∀ {r}, checkBuffer s.params.geometry b = some r →
      ∃ m, exec (.opShow b) s = .next { s with operand := m, responses := s.responses ++ [r] } :=
    fun hr => ⟨_, exec_show_rejects hp hv hs hf hr⟩
  exact ⟨fun h => rejects (checkBuffer_no_primary h), fun l h hl => rejects (checkBuffer_primary_length h hl),
    fun l h hl ha => rejects (checkBuffer_no_accent h hl ha),
    fun l k h hl ha hk => rejects (checkBuffer_accent_length h hl ha hk)⟩

end Sys2Proof.Machine
end

section
/-! A busy line that stays HIGH without a timeout (60_exceptions.md R148, 93_implementation_defined.md U4). -/

namespace Sys2Proof.Machine

/-- What `n` HIGH reads of a busy-wait leave whose poll loop has been entered. -/
def State.hung (n : Nat) (s : State) : State :=
  { s.afterAnswers n with
    pollCnt := s.pollCnt + n
    trace := s.trace ++ List.replicate n (.busyRead (some .high)) }

theorem State.hung_zero (s : State) : s.hung 0 = s := by
  simp [State.hung, State.afterAnswers]

theorem State.hung_hung (m n : Nat) (s : State) : (s.hung m).hung n = s.hung (m + n) := by
  simp only [State.hung, State.afterAnswers, List.drop_drop, List.length_drop, List.append_assoc,
    List.replicate_append_replicate, State.mk.injEq, true_and]
  omega

section hang
variable {s : State} {op : HostOp} {k : Nat}

/-- Each HIGH read is a step that only counts it. -/
theorem step_bw_hangs (hp : s.pc = .running op k 1) (hm : (program s.params op)[k]? = some .bw)
    (ht : s.params.busyTimeoutPolls = none) (hn : s.noReset = true) (hc : s.answer.completes = true)
    (hb : s.answer.busy = .high) : step s = .next (s.hung 1) := by
  rw [step_bw hp hm hn (runMicro_bw_stays (polls := s.pollCnt) hp rfl hc hb fun n hN => absurd (ht.symm.trans hN) nofun),
    ← hp]
  rfl

theorem run_hangs (n : Nat) (hp : s.pc = .running op k 1) (hm : (program s.params op)[k]? = some .bw)
    (ht : s.params.busyTimeoutPolls = none) (hn : s.noReset = true)
    (h : ∀ i, i < n → (s.answerAt i).completes = true ∧ (s.answerAt i).busy = .high) :
    Host.Core.run core n s = .next (s.hung n) := by
  induction n generalizing s with
  | zero => rw [State.hung_zero]; rfl
  | succ n ih =>
    obtain ⟨hc, hb⟩ := h 0 (Nat.succ_pos n)
    rw [State.answerAt_zero] at hc hb
    have hrest : ∀ i, i < n →
        ((s.hung 1).answerAt i).completes = true ∧ ((s.hung 1).answerAt i).busy = .high := fun i hi => by
      have hi' : (s.hung 1).answerAt i = s.answerAt (1 + i) := s.answerAt_after 1 i
      rw [hi']
      exact h _ (by omega)
    rw [run_succ (step_bw_hangs hp hm ht hn hc hb), ih (s := s.hung 1) hp hm ht hn hrest, State.hung_hung, Nat.add_comm 1]

end hang

/-- A run that is not over has no result and is not clean (70_reset_and_hazards.md R187). -/
theorem State.unended {s : State} (h : s.runOver = false) : s.runResult = none ∧ s.clean = false := by
  simp [State.runResult, State.clean, h]

/-- Settles O31: `n` steps are `n` HIGH reads, and the operation still runs. -/
theorem highBusyLineHangs : Obligations.HighBusyLineHangs := by
  intro n s op k hp hm ht hn h
  have hover : (s.hung n).runOver = false := State.runOver_running hp
  exact ⟨_, run_hangs n hp hm ht hn h, rfl, hover, State.unended hover⟩

end Sys2Proof.Machine
end

section
/-! The pin writes of `initOp` that fail (60_exceptions.md R145, R150, R151). -/

namespace Sys2Proof.Machine

/-- The list of an accepted `initOp` stops with an abort, and so does the request (60_exceptions.md R150). -/
theorem exec_init_aborts {s t : State} {c : Status} {info : ErrorInfo} (hp : s.pc = .idle)
    (hv : paramsValid s.params = true) (hs : s.state = .unpowered) (hf : s.fault = .none)
    (h : runList (initOps s.params) (s.moved 0 [] s.state s.pins s.lines s.pollCnt (.running .initOp 0 0))
      = .halt (t.abort c info)) (ht : t.fault = s.fault) :
    exec .opInitialize s
      = .next { t with fault := c.sticky, pc := s.pc, responses := t.responses ++ [⟨c, info⟩] } := by
  have hacc : accepted .initOp s.state s.fault = true := by rw [hs, hf]; rfl
  rw [exec_accepted (op := .initOp) rfl hp hv hacc (by simp), startOp_moved _ _ _ rfl, runToEnd, program, h,
    State.abort_eq, if_pos (ht.trans hf), hp]
  rfl

/-- The first two rows of `initOp`: PWR is HIGH, and `state` is POWERED (40_init_reset_sync.md R73). -/
theorem moved_initPower {s : State} {N : Nat} {w : SeqState} {x z : Pins} {polls : Nat} (h : s.noFail N) (hN : 1 ≤ N) :
    runList (initOps s.params) (s.moved 0 [] w x z polls (.running .initOp 0 0))
      = runList ((initOps s.params).drop 2) (s.moved 1 [.pinWrite .pwr .high true] .powered (x.set .pwr .high)
          (z.set .pwr .high) polls (.running .initOp 2 0)) :=
  (runList_cons_go (moved_pw .pwr .high h hN rfl) _).trans (runList_cons_go (moved_st .powered rfl) _)

/-- Settles O55: the failed write aborts, after the events before it. -/
theorem initializePinWriteFails : Obligations.InitializePinWriteFails := by
  intro s hp hv hs hf
  refine ⟨fun hc => ?_, fun hn hc => ?_, fun hn hc => ?_⟩
  · rw [exec_init_aborts hp hv hs hf (runList_cons_halt (moved_pw_fails .pwr .high hc rfl rfl) _) rfl]
    rfl
  · rw [exec_init_aborts hp hv hs hf ((moved_initPower hn (by omega)).trans
      (runList_cons_halt (moved_pw_fails .rst .low hc rfl rfl) _)) rfl]
    rfl
  · rw [exec_init_aborts hp hv hs hf ((moved_initPower hn (by omega)).trans
      ((runList_cons_go (moved_pw .rst .low hn (by omega) rfl) _).trans
        ((runList_cons_go (moved_dl hn (by omega) rfl) _).trans
          (runList_cons_halt (moved_pw_fails .rst .high hc rfl rfl) _)))) rfl]
    rfl

end Sys2Proof.Machine
end

section
/-! Every step from a state of the invariant answers a next state (40_init_reset_sync.md R71, 60_exceptions.md R148). -/

namespace Sys2Proof.Machine

/-- At `IDLE_PC` every instruction answers under valid parameters. -/
theorem exec_idle_answers (i : Instr) {s : State} (hp : s.pc = .idle) (hv : paramsValid s.params = true) :
    ∃ t, exec i s = .next t := by
  have host : ∀ {op b}, hostOpOf s i = some (op, b) → ∃ t, exec i s = .next t := fun hi =>
    ⟨_, exec_request hi hp hv⟩
  cases i with
  | opInitialize | opShow _ | opClearDisplay | opSleep | opPowerOff => exact host rfl
  | opHardReset | opSoftReset | opBusyWait | opSendCommand _ | opSendData _ => exact ⟨_, procedure_idle _ _ hp⟩
  | reserved10 | reserved11 | reserved12 | reserved13 | reserved14 | reserved15 => exact ⟨_, reservedCode_idle _ hp⟩
  | _ => exact ⟨_, rfl⟩

section running
variable {p : Params} {op : HostOp} {k sub : Nat} {s : State}

/-- A running operation goes on from any position of its list whose bytes are there. -/
theorem exec_resumes (b : Buffer) (hp : s.pc = .running op k sub) (hk : k < op.rows) (hr : operandReady op k s = true) :
    exec (op.instr b) s = .next (runToEnd ((program s.params op).drop k) s).state := by
  obtain ⟨b', hi⟩ := hostOpOf_instr s op b
  rw [exec_eq_hostOperation hi]
  simp only [hostOperation, hp, program_length, hk, hr, if_true]

/-- In the byte loop the next byte is there (20_memory.md R31): the checks of `show` have passed. -/
theorem InLoop.nextByte (h : InLoop op k s) : ∃ b, memRead (planeAt s.planeIdx) s.byteIdx s.operand = some b := by
  obtain ⟨-, -, -, -, hck, -, -⟩ := (opOk_frame h.streams k s).mp h.regs
  have hrow := h.row
  obtain ⟨l, m, hl, hllen, hm, hmlen⟩ := (checkBuffer_none _ _).mp (hck.resolve_left (by omega))
  have read : ∀ {q : PlaneId} {c : List Byte}, bufFind q s.operand = some c →
      c.length = planeBytes s.params.geometry → ∃ b, memRead q s.byteIdx s.operand = some b := fun hf hlen =>
    ⟨_, (memRead_of_find hf _).trans (List.getElem?_eq_getElem (hlen ▸ h.byteIdx))⟩
  unfold planeAt
  split
  · exact read hl hllen
  · exact read hm hmlen

/-- The operand of a running `show` is ready at every row, as the invariant says. -/
theorem StandsAt.operandReady (h : StandsAt p op k s) (hk : k < op.rows) : operandReady op k s = true := by
  cases ho : op.streams with
  | false => exact operandReady_plain ho
  | true =>
    obtain ⟨-, -, -, -, hck, hl, -⟩ := (opOk_frame ho k s).mp (h.opOk_row hk)
    rcases hck with rfl | hck
    · simp [Machine.operandReady]
    · simp only [loopOk, Bool.and_eq_true] at hl
      obtain ⟨-, hbyte⟩ := hl
      simp [Machine.operandReady, ho, hck, inByteLoop, -Bool.not_or, hbyte]

/-- At every row a step answers. -/
theorem StandsAt.step_answers (h : StandsAt s.params op k s) (hk : k < op.rows) (hn : s.noReset = true) :
    ∃ t, step s = .next t := by
  obtain ⟨sub, hp⟩ := h.pc_running
  have hm : (program s.params op)[k]? = some _ := List.getElem?_eq_getElem (program_length _ op ▸ hk)
  have hrun := stepRunsPosition s op k sub _ hp hn hm
  have rest : ∃ t, exec (op.instr s.operand) s = .next t := ⟨_, exec_resumes _ hp hk (h.operandReady hk)⟩
  generalize (program s.params op)[k]'_ = m at hm hrun
  cases m with
  | sc o =>
    obtain ⟨c, -, rfl⟩ := List.mem_map.mp (opcode_mem_of_program hm)
    exact ⟨_, step_sc hp hm (distinct_of_paramsValid h.valid) hn⟩
  | sd b => exact ⟨_, hrun⟩
  | stream =>
    have hin := h.in_loop hm
    obtain ⟨b, hb⟩ := hin.nextByte
    exact ⟨_, hrun b hin.byteIdx hb⟩
  | bw => exact ⟨_, step_bw hp hm hn rfl⟩
  | pw q v =>
    rw [hrun]
    split
    · exact ⟨_, procedure_running hp _ _⟩
    · exact rest
  | dl | br | st _ | chk => exact hrun ▸ rest

end running

/-- Settles O42: at `IDLE_PC` every request answers, and at every row of an operation what stands there. -/
theorem stepNeverStops : Obligations.StepNeverStops := by
  intro s hinv
  by_cases hn : s.noReset = true
  · rcases (blockInv_cases hinv).2 with hi | ⟨op, k, hk, hs⟩
    · rcases hh : s.host with _ | ⟨⟨c, o⟩ | _, rest⟩
      · exact ⟨_, step_waits hi.pc hh⟩
      · rw [step_request hi.pc hh]
        exact exec_idle_answers _ hi.pc hi.valid
      · exact ⟨_, step_blockReset hh⟩
    · exact hs.step_answers hk hn
  · obtain ⟨rest, hh⟩ := (noReset_eq_false_iff s).mp (Bool.eq_false_iff.mpr hn)
    exact ⟨_, step_blockReset hh⟩

end Sys2Proof.Machine
end

section
/-! What a step can have answered: sticky errors are recorded (60_exceptions.md R150), and only the holds of `hardReset` are
interrupted (60_exceptions.md R146, R161). -/

namespace Sys2Proof.Machine

/-- Whatever one response `t` has given more than `s`, `P` holds of it and of `t`. -/
def Answers (P : Response → State → Prop) (s t : State) : Prop :=
  ∀ r, t.responses = s.responses ++ [r] → P r t

section answers
variable {P : Response → State → Prop} {s t u : State}

/-- Nothing answered meets every `P`. -/
theorem Answers.of_silent (h : t.responses = s.responses) : Answers P s t := fun r hr => by
  rw [h] at hr; simp at hr

theorem Answers.of_response {r : Response} (h : t.responses = s.responses ++ [r]) (hP : P r t) : Answers P s t :=
  fun q hq => by cases List.append_cancel_left (h.symm.trans hq); exact hP

/-- What is answered after a silent beginning. -/
theorem Answers.from (h : u.responses = s.responses) (k : Answers P u t) : Answers P s t := fun r hr => k r (h ▸ hr)

end answers

/-! ### Sticky errors are recorded -/

/-- A sticky answer stands in `fault`, which was `f`, and the block is ready (60_exceptions.md R150 (3) to (5)). -/
def Recorded (f : FaultReg) (r : Response) (t : State) : Prop :=
  r.status.sticky ≠ .none → t.pc = .idle ∧ t.fault = f.record r.status

theorem recorded_of_not_sticky {f : FaultReg} {r : Response} (t : State) (h : r.status.sticky = .none) : Recorded f r t :=
  fun hs => absurd h hs

/-- However a micro-operation stops the sequencer, a sticky error it answers is recorded. -/
theorem Halts.recorded {m : MicroOp} {s t : State} (h : Halts m s t) : Answers (Recorded s.fault) s t := by
  cases h with
  | fails _ _ hf =>
    obtain ⟨u, c, x, hu, -, -, rfl⟩ := hf.aborted
    exact .of_response (r := ⟨c, x⟩) (by rw [State.abort_responses, hu.responses]) fun _ =>
      ⟨rfl, by rw [State.abort_fault, hu.fault]⟩
  | rejects _ r hr => exact .of_response (State.respond_responses r s) (recorded_of_not_sticky _ hr)
  | waits _ hw => exact .of_silent (by simp [hw.eq, pollBase])

/-- What has stopped after a quiet beginning has recorded what it answers. -/
theorem Quiet.recorded {s t u : State} (h : Quiet s u) (k : Answers (Recorded u.fault) u t) :
    Answers (Recorded s.fault) s t := h.1 ▸ k.from h.2

/-- From the states that are quiet since `s`, a micro-operation stays quiet or records what it answers. -/
theorem runMicro_recorded_plain {m : MicroOp} (hm : m ≠ .stream) {s u : State} (h : Quiet s u) :
    (runMicro m u).Ends (Quiet s) (Answers (Recorded s.fault) s) :=
  ((runMicro_quiet m u).and (runMicro_halts u hm)).mono (fun _ ht => h.trans ht.1) fun _ ht => h.recorded ht.2.recorded

theorem streamBytes_recorded (n : Nat) {s u : State} (h : Quiet s u) :
    (streamBytes n u).Ends (Quiet s) (Answers (Recorded s.fault) s) := by
  induction n generalizing u with
  | zero => exact h
  | succ n ih =>
    rw [streamBytes_succ]
    exact (runMicro_recorded_plain MicroOp.noConfusion h).then fun _ ht => ih ht

theorem runMicro_recorded (m : MicroOp) {s u : State} (h : Quiet s u) :
    (runMicro m u).Ends (Quiet s) (Answers (Recorded s.fault) s) := by
  by_cases hm : m = .stream
  · subst hm; exact streamBytes_recorded _ h
  · exact runMicro_recorded_plain hm h

theorem runList_recorded (l : List MicroOp) {s u : State} (h : Quiet s u) :
    (runList l u).Ends (Quiet s) (Answers (Recorded s.fault) s) :=
  runList_ends l (fun m _ hu => runMicro_recorded m hu) h

theorem runToEnd_recorded (l : List MicroOp) {s u : State} (h : Quiet s u) :
    Answers (Recorded s.fault) s (runToEnd l u).state :=
  ((runList_recorded l h).then (P' := fun _ => False) (k := fun t => .halt (t.respond ⟨.ok, .none⟩)) fun t ht =>
    .of_response (by rw [State.respond_responses, ht.2]) (recorded_of_not_sticky _ rfl)).state.resolve_left id

/-- A response that is no sticky error. -/
theorem respond_recorded {s : State} {r : Response} (hr : r.status.sticky = .none) :
    Answers (Recorded s.fault) s (s.respond r) := .of_response (State.respond_responses r s) (recorded_of_not_sticky _ hr)

/-- An instruction records a sticky error it answers with. -/
theorem exec_recorded {i : Instr} {s t : State} (h : exec i s = .next t) : Answers (Recorded s.fault) s t := by
  rcases exec_cases h with ⟨c, -, rfl⟩ | ⟨op, b, -, -, -, rfl⟩ | ⟨op, b, k, sub, -, -, -, -, rfl⟩ | rfl
  · exact respond_recorded rfl
  · unfold requestOp
    split
    · split
      · exact respond_recorded rfl
      · exact runToEnd_recorded _ ⟨rfl, rfl⟩
    · exact respond_recorded rfl
  · exact runToEnd_recorded _ ⟨rfl, rfl⟩
  · exact (runList_recorded _ ⟨rfl, rfl⟩).state.elim (fun ht => .of_silent ht.2) id

/-- Settles O44: a step answers by one instruction, which records a sticky error where it stops. -/
theorem stickyErrorsAreRecorded : Obligations.StickyErrorsAreRecorded := by
  intro s t r hn hstep hr hsticky
  rw [← FaultReg.record_eq]
  suffices h : Answers (Recorded s.fault) s t from h r hr hsticky
  rcases step_cases hstep with ⟨-, rfl⟩ | ⟨rest, hf, -⟩ | ⟨i, u, hf, he⟩
  · exact .of_silent rfl
  · simp [State.noReset, fetch_blockReset hf] at hn
  · have hu : Quiet s u := by
      rcases fetch_instr_cases hf with ⟨_, _, _, -, -, -, rfl⟩ | ⟨_, _, _, -, -, rfl, -⟩ <;> exact ⟨rfl, rfl⟩
    exact hu.recorded (exec_recorded he)

/-! ### Only holds are interrupted -/

/-- A flow stops without an answer Interrupted, if it stops. -/
def Flow.Uninterrupted (s : State) (f : Flow) : Prop :=
  f.Ends (fun _ => True) (Answers (fun r _ => r.status ≠ .interrupted) s)

section interrupted
variable {s u : State}

theorem Flow.uninterrupted_halt {t : State} {c : Status} {x : ErrorInfo} (h : t.responses = s.responses ++ [⟨c, x⟩])
    (hc : c ≠ .interrupted) : (Flow.halt t).Uninterrupted s :=
  Answers.of_response (P := fun r _ => r.status ≠ .interrupted) h hc

theorem Flow.uninterrupted_silent {t : State} (h : t.responses = s.responses) : (Flow.halt t).Uninterrupted s :=
  Answers.of_silent (P := fun r _ => r.status ≠ .interrupted) h

/-- An event that fails is answered with TransportFailure (60_exceptions.md R145). -/
theorem failEvent_uninterrupted (e : Event) (h : u.responses = s.responses) : (failEvent e u).Uninterrupted s :=
  Flow.uninterrupted_halt (congrArg (· ++ [_]) h) (by decide)

theorem pinWrite_uninterrupted (p : Pin) (v : Level) (s : State) : (pinWrite p v s).Uninterrupted s := by
  cases h : s.answer.completes with
  | true => rw [pinWrite_completes p v s h]; trivial
  | false =>
    rw [pinWrite_fails p v s h]
    split
    · exact failEvent_uninterrupted _ (by simp)
    · exact failEvent_uninterrupted _ (by simp)

theorem busSend_uninterrupted (b : Byte) (s : State) : (busSend b s).Uninterrupted s := by
  cases h : s.answer.completes with
  | true => rw [busSend_completes b s h]; trivial
  | false => rw [busSend_fails b s h]; exact failEvent_uninterrupted _ (by simp)

theorem busRelease_uninterrupted (s : State) : (busRelease s).Uninterrupted s := by
  cases h : s.answer.completes with
  | true => rw [busRelease_completes s h]; trivial
  | false =>
    rw [busRelease_fails s h]
    split
    · exact failEvent_uninterrupted _ (by simp)
    · exact failEvent_uninterrupted _ (by simp)

theorem sendFrame_uninterrupted (dc : Level) (b : Byte) (s : State) : (sendFrame dc b s).Uninterrupted s := by
  by_cases h : s.pc.sub = 0
  · rw [sendFrame_start dc b s h]
    exact ((pinWrite_ends .dc dc s).and (pinWrite_uninterrupted .dc dc s)).mono (fun _ ht => ht) (fun _ ht => ht.2)
      |>.then fun t ht => (busSend_uninterrupted b _).mono (fun _ hu => hu) fun _ hu => hu.from ht.1.responses
  · rw [sendFrame_resumed dc b s h]; exact busSend_uninterrupted b s

/-- A poll that stops has read HIGH, or its read has failed (60_exceptions.md R147, R152). -/
theorem busyPoll_uninterrupted (s : State) : (busyPoll s).Uninterrupted s := by
  have hbase := (Midway.pollBase s).responses
  cases h : s.answer.completes with
  | false => rw [busyPoll_fails s h]; exact failEvent_uninterrupted _ hbase
  | true =>
    cases hl : s.answer.busy with
    | low => rw [busyPoll_low s h hl]; trivial
    | high =>
      cases ht : timedOut s.params.busyTimeoutPolls ((pollBase s).pollCnt + 1) with
      | false => rw [busyPoll_high_waits s h hl ht]; exact Flow.uninterrupted_silent hbase
      | true =>
        rw [busyPoll_high_times_out s h hl ht]
        exact Flow.uninterrupted_halt (congrArg (· ++ [_]) hbase) (by decide)

/-- A hold that stops has been interrupted at its position (60_exceptions.md R146). -/
theorem delayHold_stops (s : State) :
    (delayHold s).Ends (fun _ => True) (Answers (fun r _ => r.info = .position s.position) s) := by
  cases h : s.answer.completes with
  | true => rw [delayHold_elapses s h]; trivial
  | false =>
    rw [delayHold_interrupted s h]
    exact Answers.of_response (P := fun r _ => r.info = .position s.position)
      (r := ⟨.interrupted, .position s.position⟩) (congrArg (· ++ [_]) s.drawn_responses) rfl

/-- An answer Interrupted to `m`, which began in `s`: `m` is a hold, and `info` is its position. -/
def HoldAt (m : MicroOp) (s : State) (r : Response) (_ : State) : Prop :=
  r.status = .interrupted → m = .dl ∧ r.info = .position s.position

/-- ONLY A HOLD IS INTERRUPTED, of all micro-operations (60_exceptions.md R146, R161). -/
theorem runMicro_holdAt {m : MicroOp} (s : State) (hm : m ≠ .stream) :
    (runMicro m s).Ends (fun _ => True) (Answers (HoldAt m s) s) := by
  have event : ∀ {f : Flow}, f.Uninterrupted s →
      (f.then fun t => .go t.advance).Ends (fun _ => True) (Answers (HoldAt m s) s) := fun hf =>
    (hf.mono (fun _ ht => ht) fun _ ht r hr hi => absurd hi (ht r hr)).then fun _ _ => trivial
  cases m with
  | pw p v => exact event (pinWrite_uninterrupted p v s)
  | dl => exact ((delayHold_stops s).mono (fun _ ht => ht) fun _ ht r hr _ => ⟨rfl, ht r hr⟩).then fun _ _ => trivial
  | bw => exact event (busyPoll_uninterrupted s)
  | sc o => exact event (sendFrame_uninterrupted .low o s)
  | sd b => exact event (sendFrame_uninterrupted .high b s)
  | stream => exact absurd rfl hm
  | br => exact event (busRelease_uninterrupted s)
  | st v => trivial
  | chk =>
    simp only [runMicro]
    split
    · trivial
    · next r hr =>
      refine .of_response (State.respond_responses r s) fun hi => ?_
      have hsticky := checkBuffer_not_sticky hr
      rw [hi] at hsticky
      cases hsticky

end interrupted

/-- The holds stand at indices 3 and 5 of `initOp` (40_init_reset_sync.md R73). -/
theorem Row.hold {op : HostOp} {k : Nat} (h : Row op k .dl) : op = .initOp ∧ (k = 3 ∨ k = 5) := by
  cases h with
  | holdLow => exact ⟨rfl, .inl rfl⟩
  | holdHigh => exact ⟨rfl, .inr rfl⟩

/-- An answer Interrupted names one of the two holds of `hardReset`, inside `initOp`. -/
def NamesHold (r : Response) (_ : State) : Prop :=
  r.status = .interrupted → ∃ k sub, (k = 3 ∨ k = 5) ∧ r.info = .position (.running .initOp k sub)

/-- A running operation answers Interrupted at no other row. -/
theorem keptBy_namesHold (p : Params) (op : HostOp) (s : State) :
    KeptBy p op (fun t => t.responses = s.responses) (Answers NamesHold s) := by
  intro k m u hm hu hr
  refine ((runMicro_quiet m u).and (runMicro_holdAt u hm.ne_stream)).mono (fun t ht => ht.1.2.trans hr) fun t ht =>
    .from hr fun r hresp hi => ?_
  obtain ⟨rfl, hinfo⟩ := ht.2 r hresp hi
  cases hm with
  | row hrow _ =>
    obtain ⟨rfl, hk⟩ := (row_of_program hrow).hold
    obtain ⟨n, hn⟩ := hu.pc_running
    obtain ⟨x, hx⟩ := (Midway.refl u).position hn
    exact ⟨k, x, hk, hinfo.trans (congrArg _ hx)⟩

/-- Settles O52: a step runs the rows of its operation, of which only two are holds. -/
theorem onlyHoldsAreInterrupted : Obligations.OnlyHoldsAreInterrupted := by
  intro s t r hinv hstep hr hi
  suffices h : Answers NamesHold s t from h r hr hi
  have done : ∀ {op : HostOp} (u : State), StandsAt s.params op op.rows u → u.responses = s.responses →
      Answers NamesHold s (u.respond ⟨.ok, .none⟩) := fun u _ hu =>
    .of_response (r := ⟨.ok, .none⟩) (by rw [State.respond_responses, hu]) nofun
  cases invStep_of_step hinv hstep with
  | waits | reset => exact .of_silent rfl
  | answers rest q hq h =>
    exact .of_response rfl fun hint => by rw [hint] at hq; cases hq
  | request rest op b hpc ho hs => exact (keptBy_namesHold s.params op s).toEnd (k := 0) done (Nat.zero_le _) hs rfl
  | running hk hs h =>
    rcases h.kept (keptBy_namesHold _ _ s) done hs rfl with ⟨_, _, _, ht⟩ | ht
    · exact .of_silent ht
    · exact ht

end Sys2Proof.Machine
end

section
/-! Block reset, and waiting at `IDLE_PC` (70_reset_and_hazards.md R170). -/

namespace Sys2Proof.Machine

theorem State.resetExpected_iff (s : State) :
    s.resetExpected = true ↔ s.state = .poweredOff ∨ s.trace.length = s.run.events := by
  simp [State.resetExpected]

/-- Settles O7: each register is a field of the reset state, and the block is left where it waits. -/
theorem blockResetRegisters : Obligations.BlockResetRegisters := by
  refine ⟨⟨rfl, rfl, rfl, rfl, rfl, rfl, rfl⟩, fun s rest hh => ⟨_, step_blockReset hh, ?_⟩⟩
  refine ⟨rfl, rfl, rfl, rfl, rfl, rfl, rfl, rfl, rfl, fun hrest => step_waits rfl hrest, fun he => ?_⟩
  exact State.linesAfterReset_expected ((State.resetExpected_iff { s with host := rest }).mpr he)

/-- Settles O8: with no request a step fetches nothing but the wait. -/
theorem idleBlockWaits : Obligations.IdleBlockWaits := fun _ => step_waits

end Sys2Proof.Machine
end

section
/-! Runs: where they begin and where they end (70_reset_and_hazards.md R170, R172, R187). -/

namespace Sys2Proof.Machine

/-- A block reset in mid-session draws the levels of the lines (70_reset_and_hazards.md R172). -/
theorem State.blockReset_midsession {s : State} (h : s.resetExpected = false) :
    s.blockReset.lines
        = ⟨(Config.freeLevels s.draws).1, (Config.freeLevels s.draws).2.1, (Config.freeLevels s.draws).2.2⟩
      ∧ s.blockReset.draws = s.draws + 1 :=
  ⟨State.linesAfterReset_midsession h, by simp [h]⟩

/-- Only a block reset begins a run. -/
theorem step_keeps_run {s t : State} (hn : s.noReset = true) (h : step s = .next t) : t.run = s.run := by
  rcases step_cases h with ⟨-, rfl⟩ | ⟨rest, hf, -⟩ | ⟨i, u, hf, he⟩
  · rfl
  · simp [State.noReset, fetch_blockReset hf] at hn
  · obtain ⟨-, -, hrun⟩ := exec_keeps_outside he
    rw [hrun, fetch_instr_state hf]

/-- A run is over when no operation runs and the host's next action is no request. -/
theorem State.runOver_iff_host (s : State) :
    s.runOver = true ↔ s.pc = .idle ∧ ∀ c o rest, s.host ≠ .request c o :: rest := by
  simp only [State.runOver_iff, ← Bool.not_eq_true, State.requestLeft_iff, not_exists, ne_eq]

/-- Where a run is not over, a step that answers returns to `IDLE_PC`, and no other step does. -/
theorem step_idle_iff {s t : State} (hinv : BlockInv s = true) (hn : s.noReset = true) (h : step s = .next t)
    (hover : s.runOver = false) : t.pc = .idle ↔ ∃ r, t.responses = s.responses ++ [r] := by
  obtain ⟨hrunning, hidle⟩ := oneResponsePerOperation s t hinv hn h
  refine ⟨fun hp => hidle hp fun ⟨hpc, hh⟩ => ?_, fun ⟨r, hr⟩ => by_contra fun hp => ?_⟩
  · exact Bool.false_ne_true (hover.symm.trans (s.runOver_iff_host.mpr ⟨hpc, by simp [hh]⟩))
  · simp [hrunning hp] at hr

/-- The result of a run that is over, and when it is clean (70_reset_and_hazards.md R187). -/
theorem State.ended {s : State} (h : s.runOver = true) :
    s.runResult = some ⟨s.runResponses, s.runTrace, ⟨s.state, s.fault, s.pins, s.busOwned⟩⟩
      ∧ (s.clean = true ↔ ∀ r ∈ s.runResponses, r.status = .ok) :=
  ⟨if_pos h, s.clean_iff.trans (and_iff_right h)⟩

/-- Settles O60: a block reset sets the marks of the run, every other step keeps them, and a run that is not over ends where
a step returns to `IDLE_PC` with no request left. -/
theorem blockResetBeginsRun : Obligations.BlockResetBeginsRun := by
  refine ⟨fun s t rest hh hs => ?_, fun s t hinv hn hs hover => ⟨step_keeps_run hn hs, ?_⟩,
    fun s => ⟨State.ended, State.unended⟩⟩
  · cases (step_blockReset hh).symm.trans hs
    refine ⟨List.drop_length, List.drop_length, rfl, fun hoff hev => State.blockReset_midsession ?_⟩
    exact Bool.eq_false_iff.mpr fun he => ((State.resetExpected_iff _).mp he).elim hoff hev
  · rw [State.runOver_iff_host, step_idle_iff hinv hn hs hover]

end Sys2Proof.Machine
end

section
/-! After a sticky error only `powerOff` runs, whose list sends no frame (70_reset_and_hazards.md R181). -/

namespace Sys2Proof.Machine

/-- No event since `s` shows as a frame, in any wire view. -/
def SendsNoFrame (s t : State) : Prop := Sends (fun _ => False) s t

theorem SendsNoFrame.framesOf_eq_nil {s t : State} (h : SendsNoFrame s t) :
    ∃ E, t.trace = s.trace ++ E ∧ ∀ x took, framesOf (wireView x took E) = [] := by
  obtain ⟨E, hE, hno⟩ := h
  exact ⟨E, hE, fun x took => List.eq_nil_iff_forall_not_mem.mpr (hno x took)⟩

/-- No row of `powerOff` is a frame (42_sleep_power.md R103). -/
theorem Row.powerOff_no_frame {k : Nat} {m : MicroOp} (h : Row .powerOffOp k m) :
    m ≠ .stream ∧ (∀ o, m ≠ .sc o) ∧ ∀ b, m ≠ .sd b := by
  cases h with
  | check ho | frameBegins ho | frameCommand ho | plane ho | frameWait ho | frameDone ho => cases ho
  | _ => exact ⟨MicroOp.noConfusion, fun _ => MicroOp.noConfusion, fun _ => MicroOp.noConfusion⟩

theorem keptBy_sendsNoFrame (p : Params) (s : State) : KeptBy p .powerOffOp (SendsNoFrame s) (SendsNoFrame s) := by
  intro k m u hm hu hsent
  obtain ⟨m', hrow, hm'⟩ := hm.exists_row
  obtain ⟨hstream, hsc, hsd⟩ := hrow.powerOff_no_frame
  obtain rfl : m = m' := hm'.resolve_right fun h => hstream h.1
  exact Flow.ends_of_state (hsent.trans (runMicro_sends hstream (hu.sub_of_due hm)
    (fun o h => absurd h (hsc o)) fun b h => absurd h (hsd b)))

/-- Settles O46: with `fault` set, whatever stands at a row is `powerOff`. -/
theorem noFrameAfterFault : Obligations.NoFrameAfterFault := by
  intro s t hinv hn hf hstep
  suffices h : SendsNoFrame s t from h.framesOf_eq_nil
  cases invStep_of_step hinv hstep with
  | waits | answers => exact .of_trace_eq rfl
  | reset rest hh => simp [State.noReset, hh] at hn
  | request rest op b hpc ho hs =>
    obtain rfl := hs.fault.resolve_left hf
    exact (keptBy_sendsNoFrame s.params s).toEnd (k := 0) (fun _ _ ht => ht) (Nat.zero_le _) hs (.of_trace_eq rfl)
  | running hk hs h =>
    obtain rfl := hs.fault.resolve_left hf
    rcases h.kept (keptBy_sendsNoFrame _ s) (fun _ _ ht => ht) hs (.of_trace_eq rfl) with ⟨_, _, _, ht⟩ | ht <;> exact ht

end Sys2Proof.Machine
end
